-- ==== Sys2Proof/Word.lean ====
section
/-! DEFINITION. The byte, the only unit of storage and transfer (00_scope.md R4). -/

namespace Sys2Proof

/-- 00_scope.md R4: `BYTE`, 8 bits, unsigned. -/
abbrev Byte := BitVec 8

end Sys2Proof
end

