-- ==== Sys2Proof/Config.lean ====
section
/-! DEFINITION. What one implementation fixes (00_scope.md R5 to R7) and the free values: constants without a body, of which
nothing can be proved. -/

namespace Sys2Proof

/-- The parameters of one instance of the block. They never change while it runs (log 1).
`awMin` is the bound R5 puts on `AW`, carried as a proof so that no smaller instance can be written. -/
structure Config where
  /-- `AW`, 00_scope.md R5: the width in bits of addresses and cursors. -/
  aw : Nat
  /-- `HARDEN`, 00_scope.md R6. -/
  harden : Bool
  /-- `MODE_SET`, 00_scope.md R7: whether the Direct Decoder is present. -/
  hasLzDirect : Bool
  /-- `MODE_SET`, 00_scope.md R7: whether the Buffered Decoder is present. -/
  hasLzShadow : Bool
  /-- `MODE_SET`, 00_scope.md R7: whether the RLE Decoder is present. -/
  hasRle : Bool
  awMin : 9 ≤ aw
deriving DecidableEq, Repr

/-- The defaults of 00_scope.md R5 (16), R6 (`false`) and R7 (all three decoders). -/
def Config.default : Config :=
  { aw := 16, harden := false, hasLzDirect := true, hasLzShadow := true, hasRle := true, awMin := by decide }

/-- An `AW`-bit value: an address, a cursor, a length. -/
abbrev Config.Word (c : Config) := BitVec c.aw

/-- `zext_AW` of 00_scope.md section 5, for the narrow operands of address arithmetic. -/
def Config.zext (c : Config) (v : Byte) : c.Word := v.setWidth c.aw

/-- FREE VALUE, by the number of the draw: a byte the spec leaves unspecified (an unwritten shadow entry, 10_state.md R28; a
working register after START or reset, R32; the loop index after its loop, R25). Logs 3, 5, 6, 7. -/
opaque Config.freeByte : Nat → Byte

/-- FREE VALUE, by the number of the draw: a register of `w` bits the spec leaves unspecified (10_state.md R32, R33).
Logs 3, 7, 8. -/
opaque Config.freeWord : (w : Nat) → Nat → BitVec w

/-- FREE VALUE, by address: what memory holds at an address that nothing has written (00_scope.md section 6, "left open";
20_memory.md R48, "what memory held at that address before the call"). Log 4. -/
opaque Config.initialByte : Nat → Byte

end Sys2Proof
end

