-- ==== Sys2Proof/Syntax.lean ====
section
/-! DEFINITION. The tokens ("instructions") of the block, one constructor per row of spec/opcode_table.json, and the decoder
names of `MODE`. An instruction holds the fields of its TAG byte with the bias added (spec/INDEX.md); the payload bytes are
read from memory while the token executes, as the token rules say (log 23). -/

namespace Sys2Proof

/-- The three decoders, 10_state.md R13. -/
inductive Mode where
  | lzDirect
  | lzShadow
  | rle
deriving DecidableEq, Repr

/-- The ten tokens of 30_encoding.md R66 and R67. -/
inductive Instr where
  /-- `LZD.END`, 40_lz_direct.md R80. -/
  | lzdEnd
  /-- `LZD.LIT`, 40_lz_direct.md R81; `count` = tag[6:0]. -/
  | lzdLit (count : Byte)
  /-- `LZD.MATCH`, 40_lz_direct.md R82; `length` = tag[6:0]. -/
  | lzdMatch (length : Byte)
  /-- `LZS.END`, 41_lz_shadow.md R91. -/
  | lzsEnd
  /-- `LZS.LIT`, 41_lz_shadow.md R92; `count` = tag[6:0]. -/
  | lzsLit (count : Byte)
  /-- `LZS.MATCH`, 41_lz_shadow.md R93; `length` = tag[6:0]. -/
  | lzsMatch (length : Byte)
  /-- `RLE.END`, 42_rle.md R100. -/
  | rleEnd
  /-- `RLE.RUN`, 42_rle.md R101; `run` = tag[5:0] + 1. -/
  | rleRun (run : Byte)
  /-- `RLE.LIT`, 42_rle.md R102; `litlen` = tag[5:0] + 1. -/
  | rleLit (litlen : Byte)
  /-- `RLE.COMB`, 42_rle.md R103; `run` = tag[6:4] + 1, `litlen` = tag[3:0] + 1. -/
  | rleComb (run : Byte) (litlen : Byte)
deriving DecidableEq, Repr

/-- The decoder whose token map (30_encoding.md R66, R67) the token belongs to. -/
def Instr.mode : Instr → Mode
  | .lzdEnd => .lzDirect
  | .lzdLit _ => .lzDirect
  | .lzdMatch _ => .lzDirect
  | .lzsEnd => .lzShadow
  | .lzsLit _ => .lzShadow
  | .lzsMatch _ => .lzShadow
  | .rleEnd => .rle
  | .rleRun _ => .rle
  | .rleLit _ => .rle
  | .rleComb _ _ => .rle

end Sys2Proof
end

