-- ==== Sys2Proof/WellFormed.lean ====
section
/-! DEFINITION. Which terms of `Instr` the formats can express: the field ranges of 30_encoding.md R63 and R65. -/

namespace Sys2Proof

/-- The field ranges of 30_encoding.md R63 (LZ) and R65 (RLE), as decoded. -/
def Instr.wf : Instr → Bool
  | .lzdEnd => true
  | .lzdLit count => 1 ≤ count.toNat && count.toNat ≤ 127
  | .lzdMatch length => length.toNat ≤ 127
  | .lzsEnd => true
  | .lzsLit count => 1 ≤ count.toNat && count.toNat ≤ 127
  | .lzsMatch length => length.toNat ≤ 127
  | .rleEnd => true
  | .rleRun run => 2 ≤ run.toNat && run.toNat ≤ 64
  | .rleLit litlen => 1 ≤ litlen.toNat && litlen.toNat ≤ 64
  | .rleComb run litlen =>
    (1 ≤ run.toNat && run.toNat ≤ 8) && (1 ≤ litlen.toNat && litlen.toNat ≤ 16)

end Sys2Proof
end

