-- ==== Sys2Proof/Decode.lean ====
section
/-! DEFINITION. Decoding a token from its tag byte (30_encoding.md R62 to R67), token lengths (R61), the encoder (R74), and
spec/opcode_table.json as a list of rows. -/

namespace Sys2Proof

/-- 10_state.md R13: the two-bit value of `MODE` that names a decoder. -/
def Mode.code : Mode → BitVec 2
  | .lzDirect => 0
  | .lzShadow => 1
  | .rle => 2

/-- 10_state.md R13: the decoder a value of `MODE` names; 3 is reserved. -/
def Mode.ofCode (v : BitVec 2) : Option Mode :=
  if v = 0 then some .lzDirect
  else if v = 1 then some .lzShadow
  else if v = 2 then some .rle
  else none

/-- 00_scope.md R7: whether the instance has the decoder. -/
def Config.has (c : Config) : Mode → Bool
  | .lzDirect => c.hasLzDirect
  | .lzShadow => c.hasLzShadow
  | .rle => c.hasRle

/-- The decoder the instance `c` runs for a value of `MODE`: none when the value is reserved or names a decoder that is not in
`MODE_SET` (10_state.md R13, R14; 00_scope.md R7). -/
def Config.decoder (c : Config) (v : BitVec 2) : Option Mode :=
  match Mode.ofCode v with
  | some mode => if c.has mode then some mode else none
  | none => none

/-- `tag[6:0]`, 30_encoding.md R63: the LZ count and length. -/
def tagLow7 (tag : Byte) : Byte := tag &&& 0x7F#8

/-- `zext_8(tag[5:0]) + 1`, 30_encoding.md R65: the pure run and the pure literal length. -/
def tagLow6Biased (tag : Byte) : Byte := (tag &&& 0x3F#8) + 1#8

/-- `zext_8(tag[6:4]) + 1`, 30_encoding.md R65: the run of a combined token. -/
def tagRunBiased (tag : Byte) : Byte := ((tag >>> 4) &&& 0x7#8) + 1#8

/-- `zext_8(tag[3:0]) + 1`, 30_encoding.md R65: the literal length of a combined token. -/
def tagLow4Biased (tag : Byte) : Byte := (tag &&& 0x0F#8) + 1#8

/-- The tag maps of 30_encoding.md R66 (LZ) and R67 (RLE), the tests in the order given there. Every tag value decodes. -/
def decodeTag (mode : Mode) (tag : Byte) : Instr :=
  match mode with
  | .lzDirect =>
    if tag = 0#8 then .lzdEnd
    else if tag &&& 0x80#8 ≠ 0#8 then .lzdMatch (tagLow7 tag)
    else .lzdLit (tagLow7 tag)
  | .lzShadow =>
    if tag = 0#8 then .lzsEnd
    else if tag &&& 0x80#8 ≠ 0#8 then .lzsMatch (tagLow7 tag)
    else .lzsLit (tagLow7 tag)
  | .rle =>
    if tag = 0#8 then .rleEnd
    else if tag &&& 0x80#8 ≠ 0#8 then .rleComb (tagRunBiased tag) (tagLow4Biased tag)
    else if tag &&& 0x40#8 ≠ 0#8 then .rleLit (tagLow6Biased tag)
    else .rleRun (tagLow6Biased tag)

/-- Why a byte sequence decodes to no token. No tag value is among the reasons (30_encoding.md R69). -/
inductive DecodeError where
  /-- There is no tag byte. -/
  | noTag
  /-- `MODE` is 3 (10_state.md R13). -/
  | reservedMode
  /-- `MODE` names a decoder that is not in `MODE_SET` (00_scope.md R7). -/
  | absentMode
deriving DecidableEq, Repr

/-- Decodes the token at the head of `bytes` under `MODE = v` in the instance `c`. It consumes the tag byte, which alone
determines the token (30_encoding.md R61), and answers the bytes after it: the payload and what follows. -/
def decode (c : Config) (v : BitVec 2) (bytes : List Byte) : Except DecodeError (Instr × List Byte) :=
  match Mode.ofCode v with
  | none => .error .reservedMode
  | some mode =>
    if c.has mode then
      match bytes with
      | [] => .error .noTag
      | tag :: rest => .ok (decodeTag mode tag, rest)
    else .error .absentMode

/-- 30_encoding.md R61: the token's length in bytes, by which `sp` advances. -/
def Instr.length : Instr → Nat
  | .lzdEnd => 1
  | .lzdLit count => 1 + count.toNat
  | .lzdMatch _ => 2
  | .lzsEnd => 1
  | .lzsLit count => 1 + count.toNat
  | .lzsMatch _ => 2
  | .rleEnd => 1
  | .rleRun _ => 2
  | .rleLit litlen => 1 + litlen.toNat
  | .rleComb _ litlen => 2 + litlen.toNat

/-- `P` of 60_exceptions.md R124: the number of output bytes the token produces. -/
def Instr.output : Instr → Nat
  | .lzdEnd => 0
  | .lzdLit count => count.toNat
  | .lzdMatch length => length.toNat
  | .lzsEnd => 0
  | .lzsLit count => count.toNat
  | .lzsMatch length => length.toNat
  | .rleEnd => 0
  | .rleRun run => run.toNat
  | .rleLit litlen => litlen.toNat
  | .rleComb run litlen => run.toNat + litlen.toNat

/-- The tag byte of a token, from the layouts of 30_encoding.md R62 and R64 (the byte column of R74). -/
def encode : Instr → Byte
  | .lzdEnd => 0x00#8
  | .lzdLit count => count
  | .lzdMatch length => 0x80#8 ||| length
  | .lzsEnd => 0x00#8
  | .lzsLit count => count
  | .lzsMatch length => 0x80#8 ||| length
  | .rleEnd => 0x00#8
  | .rleRun run => run - 1#8
  | .rleLit litlen => 0x40#8 ||| (litlen - 1#8)
  | .rleComb run litlen => 0x80#8 ||| ((run - 1#8) <<< 4) ||| (litlen - 1#8)

/-- The longest token, an LZ literal of 127 bytes (30_encoding.md R61). -/
def longestToken : Nat := 128

/-- The bytes of a table word (`w` numbered from bit 0 of the first byte, `nbits` of it given and zeros above), first byte
first, up to the longest token. -/
def tableBytes (nbits w : Nat) : List Byte :=
  (List.range longestToken).map fun j => BitVec.ofNat 8 ((w % 2 ^ nbits) >>> (8 * j))

/-- The token the decoder `mode` reads from a table word. -/
def decodeTableWordIn (mode : Mode) (nbits w : Nat) : Option Instr :=
  match tableBytes nbits w with
  | [] => none
  | tag :: _ => some (decodeTag mode tag)

/-- The token the decoder reads from a table word under `MODE = LZ_DIRECT`, the value `State.reset` holds. The table has rows
of three modes whose tags are the same bytes; the mode is no part of a word (30_encoding.md R70, R73). Log 18. -/
def decodeTableWord (nbits w : Nat) : Option Instr := decodeTableWordIn .lzDirect nbits w

/-! ### The opcode table as data -/

/-- The names of the rows of spec/opcode_table.json. -/
inductive Kind where
  | lzdEnd | lzdLit | lzdMatch
  | lzsEnd | lzsLit | lzsMatch
  | rleEnd | rleRun | rleLit | rleComb
deriving DecidableEq, Repr

/-- The row an instruction belongs to. -/
def Instr.kind : Instr → Kind
  | .lzdEnd => .lzdEnd
  | .lzdLit _ => .lzdLit
  | .lzdMatch _ => .lzdMatch
  | .lzsEnd => .lzsEnd
  | .lzsLit _ => .lzsLit
  | .lzsMatch _ => .lzsMatch
  | .rleEnd => .rleEnd
  | .rleRun _ => .rleRun
  | .rleLit _ => .rleLit
  | .rleComb _ _ => .rleComb

/-- One row of spec/opcode_table.json: its mode, `match`, `mask`, and whether `exclude` holds `0x00`. -/
structure Row where
  kind : Kind
  mode : Mode
  pattern : Byte
  mask : Byte
  excludesZero : Bool
deriving DecidableEq, Repr

/-- spec/opcode_table.json, row by row. -/
def opcodeTable : List Row :=
  [ ⟨.lzdEnd, .lzDirect, 0x00#8, 0xFF#8, false⟩,
    ⟨.lzdLit, .lzDirect, 0x00#8, 0x80#8, true⟩,
    ⟨.lzdMatch, .lzDirect, 0x80#8, 0x80#8, false⟩,
    ⟨.lzsEnd, .lzShadow, 0x00#8, 0xFF#8, false⟩,
    ⟨.lzsLit, .lzShadow, 0x00#8, 0x80#8, true⟩,
    ⟨.lzsMatch, .lzShadow, 0x80#8, 0x80#8, false⟩,
    ⟨.rleEnd, .rle, 0x00#8, 0xFF#8, false⟩,
    ⟨.rleRun, .rle, 0x00#8, 0xC0#8, true⟩,
    ⟨.rleLit, .rle, 0x40#8, 0xC0#8, false⟩,
    ⟨.rleComb, .rle, 0x80#8, 0x80#8, false⟩ ]

/-- spec/INDEX.md: a row matches tag `t` when `t & mask = match` and `t` is not in its `exclude` list. -/
def Row.fits (r : Row) (mode : Mode) (tag : Byte) : Bool :=
  r.mode == mode && (tag &&& r.mask) == r.pattern && !(r.excludesZero && tag == 0#8)

end Sys2Proof
end

