-- ==== Sys2Proof/Machine/State.lean ====
section
/-! DEFINITION. The state of the block (10_state.md R10) and of the system memory beside it, as plain data; the state after
reset; why the machine can stop. -/

namespace Sys2Proof.Machine

/-- System memory, 20_memory.md R40: the bytes the host or the engine has written, addresses strictly rising. An address that
is not listed has no value here; the engine reads it as a free value (`Config.initialByte`, log 4). -/
abbrev Memory := List Host.Cell

/-- 10_state.md R15: the run state `STATUS`. -/
inductive Status where
  | idle
  | running
  | done
  | fault
deriving DecidableEq, Repr

/-- 60_exceptions.md R126: the causes of `MalformedStream`. -/
inductive Cause where
  | backrefUnderflow
  | dstOverflow
  | srcOverrun
  | zeroDistance
deriving DecidableEq, Repr

/-- One access the engine makes (20_memory.md R47, R48), by offset from `SRC` or `DST` or by shadow index. -/
inductive Access (w : Nat) where
  /-- `SrcRead(off)`. -/
  | srcRead (off : BitVec w)
  /-- `DstRead(off)`. -/
  | dstRead (off : BitVec w)
  /-- `DstWrite(off, v)`. -/
  | dstWrite (off : BitVec w) (v : Byte)
  /-- A read of `buf[j]`. -/
  | bufRead (j : Byte)
  /-- `buf[j] <- v`. -/
  | bufWrite (j : Byte) (v : Byte)
deriving DecidableEq, Repr

/-- The block of configuration `c` with its memory: every register of 10_state.md R10, under its name there. -/
structure Block (c : Config) where
  /-- `SRC`, R11. -/
  src : c.Word
  /-- `DST`, R12. -/
  dst : c.Word
  /-- `MODE`, R13. -/
  mode : BitVec 2
  /-- `STATUS`, R15. -/
  status : Status
  /-- `RESULT`, R16. -/
  result : c.Word
  /-- `WPOS`, R17. -/
  wpos : c.Word
  /-- `SRC_LEN`, R18; no part of an instance without `HARDEN` (log 21). -/
  srcLen : c.Word
  /-- `DST_LEN`, R18; as `srcLen`. -/
  dstLen : c.Word
  /-- `CAUSE`, R18, a code of 60_exceptions.md R126; as `srcLen`. -/
  cause : BitVec 2
  /-- `sp`, R19: the program counter, an offset from `SRC`. -/
  sp : c.Word
  /-- `wp`, R20: the write position, an offset from `DST`. -/
  wp : c.Word
  /-- `cmd`, R21. -/
  cmd : Byte
  /-- `n`, R22. -/
  n : Byte
  /-- `m`, R22. -/
  m : Byte
  /-- `dist`, R23. -/
  dist : Byte
  /-- `fill`, R24. -/
  fill : Byte
  /-- `k`, R25. -/
  k : Byte
  /-- `b`, R26. -/
  b : Byte
  /-- `i`, R27. -/
  i : Byte
  /-- `buf[0..255]`, R28: an entry is `none` while it is unwritten. -/
  buf : Vector (Option Byte) 256
  /-- System memory, 20_memory.md R40. -/
  mem : Memory
  /-- The model's own: the accesses of the current call, oldest first. Nothing reads it (log 20). -/
  trace : List (Access c.aw)
  /-- The model's own: how many free values have been drawn (log 20). -/
  draws : Nat
deriving DecidableEq, Repr

/-- The whole machine: the instance's configuration, which no step changes, and the block. -/
structure State where
  cfg : Config
  block : Block cfg
deriving DecidableEq, Repr

/-- Why the machine stops with a fault. The spec's own fault, `MalformedStream`, is no stop: it is the state `STATUS = FAULT`
(60_exceptions.md R125). -/
inductive Fault where
  /-- Raised by the step when `STATUS = RUNNING` and `MODE` names no decoder of the instance. START never leads there
  (10_state.md R14) and 30_encoding.md R68 gives the step no case for it. Safe. Log 15. -/
  | noDecoder
deriving DecidableEq, Repr

/-- Why the model gives no meaning. -/
inductive Refusal where
  /-- Raised by `exec` for an instruction without a meaning; no arm does so. Safe. -/
  | notModelled (mnemonic : String)
  /-- Raised by a host move on `SRC_LEN`, `DST_LEN` or `CAUSE` of an instance without `HARDEN`, where "none of the three
  exists" (10_state.md R18). Safe. Log 21. -/
  | registerAbsent
  /-- Raised by a host access to memory while `STATUS = RUNNING` (70_reset_and_hazards.md R154, 92_eei_decisions.md D18).
  Safe. Log 14. -/
  | hostDuringCall
deriving DecidableEq, Repr

/-- 10_state.md R28: every entry of `buf` unwritten. -/
def unwrittenBuf : Vector (Option Byte) 256 := Vector.replicate 256 none

/-- The machine of configuration `c` right after hardware reset: `STATUS = IDLE` (10_state.md R32); every register the spec
leaves unspecified at 0 (DESIGN CHOICE, log 2); memory with nothing listed. -/
def State.resetOf (c : Config) : State :=
  { cfg := c
    block :=
      { src := 0, dst := 0, mode := 0, status := .idle, result := 0, wpos := 0, srcLen := 0, dstLen := 0, cause := 0
        sp := 0, wp := 0, cmd := 0, n := 0, m := 0, dist := 0, fill := 0, k := 0, b := 0, i := 0
        buf := unwrittenBuf, mem := [], trace := [], draws := 0 } }

/-- The default instance (00_scope.md R5 to R7) right after hardware reset. -/
def State.reset : State := State.resetOf Config.default

end Sys2Proof.Machine
end

