-- ==== Sys2Proof/Machine/Operands.lean ====
section
/-! DEFINITION. Operand forms: the effective addresses of 20_memory.md R46 and the shadow index of 41_lz_shadow.md R93. The only
addressing mode is base plus offset (20_memory.md R47); all sums wrap. -/

namespace Sys2Proof.Machine

variable {c : Config}

/-- 20_memory.md R46: stream offset `off` is at address `SRC +_AW off`. -/
def Block.srcAddr (h : Block c) (off : c.Word) : c.Word := h.src + off

/-- 20_memory.md R46: output offset `off` is at address `DST +_AW off`. -/
def Block.dstAddr (h : Block c) (off : c.Word) : c.Word := h.dst + off

/-- The stream offset of payload byte `k` of a part of the token that starts `base` bytes after the tag's offset. -/
def Block.payloadOff (h : Block c) (base : c.Word) (k : Nat) : c.Word := h.sp + base + BitVec.ofNat c.aw k

/-- The output offset of byte `k` of a part of the token's output that starts `base` bytes after `wp` (10_state.md R20). -/
def Block.outOff (h : Block c) (base : c.Word) (k : Nat) : c.Word := h.wp + base + BitVec.ofNat c.aw k

/-- 20_memory.md R46: the back-reference offset `wp -_AW zext_AW(dist) +_AW k`. -/
def Block.backOff (h : Block c) (k : Nat) : c.Word := h.wp - c.zext h.dist + BitVec.ofNat c.aw k

/-- 41_lz_shadow.md R93: `i = b -_8 dist`, the 8-bit wrapping subtraction. -/
def Block.shadowStart (h : Block c) : Byte := h.b - h.dist

end Sys2Proof.Machine
end

