-- ==== Sys2Proof/Machine/Flags.lean ====
section
/-! DEFINITION. The block has no flags and no condition codes (10_state.md R29). What stands here are its status computations:
the codes of `STATUS` and `CAUSE`, and the comparisons of 60_exceptions.md R124 that select a cause with `HARDEN`. Comparisons
are on unbounded numbers, as R124 says. -/

namespace Sys2Proof.Machine

variable {c : Config}

/-- 10_state.md R15: the two-bit value the host reads from `STATUS`. -/
def Status.code : Status → BitVec 2
  | .idle => 0
  | .running => 1
  | .done => 2
  | .fault => 3

/-- 60_exceptions.md R126: the value of `CAUSE`. -/
def Cause.code : Cause → BitVec 2
  | .backrefUnderflow => 0
  | .dstOverflow => 1
  | .srcOverrun => 2
  | .zeroDistance => 3

/-- 60_exceptions.md R124, before the tag fetch: `sp >= SRC_LEN`. -/
def fetchCause (h : Block c) : Option Cause :=
  if c.harden = true ∧ h.srcLen.toNat ≤ h.sp.toNat then some .srcOverrun else none

/-- 60_exceptions.md R124, after dispatch: `sp + L > SRC_LEN`. -/
def sourceCause (L : Nat) (h : Block c) : Option Cause :=
  if c.harden = true ∧ h.srcLen.toNat < h.sp.toNat + L then some .srcOverrun else none

/-- 60_exceptions.md R124, the last check: `wp + P > DST_LEN`. -/
def outputCause (P : Nat) (h : Block c) : Option Cause :=
  if c.harden = true ∧ h.dstLen.toNat < h.wp.toNat + P then some .dstOverflow else none

/-- 60_exceptions.md R124, LZ match only, once `dist` has been read: `dist == 0`, then `dist > wp`. -/
def distanceCause (h : Block c) : Option Cause :=
  if c.harden = true ∧ h.dist = 0#8 then some .zeroDistance
  else if c.harden = true ∧ h.wp.toNat < h.dist.toNat then some .backrefUnderflow
  else none

end Sys2Proof.Machine
end

