-- ==== Sys2Proof/Machine/Ops.lean ====
section
/-! DEFINITION. The named operations the token rules are written with: memory, the shadow buffer, the byte loop, the end of a
token, the fault entry of 60_exceptions.md R125, START, hardware reset, the fetch. -/

namespace Sys2Proof.Machine

variable {c : Config}

/-! ### Memory as a list of cells -/

/-- The byte listed at an address. -/
def Memory.lookup : Memory → Nat → Option Byte
  | [], _ => none
  | (x, v) :: rest, a => if x = a then some v else Memory.lookup rest a

/-- Lists `v` at address `a`, keeping the addresses strictly rising. -/
def Memory.store : Memory → Nat → Byte → Memory
  | [], a, v => [(a, v)]
  | (x, w) :: rest, a, v =>
    if a < x then (a, v) :: (x, w) :: rest
    else if a = x then (a, v) :: rest
    else (x, w) :: Memory.store rest a v

/-- All addresses lie above `low` and rise strictly. -/
def Memory.risingAbove (low : Nat) : Memory → Bool
  | [] => true
  | (x, _) :: rest => decide (low < x) && Memory.risingAbove x rest

/-- The canonical form: addresses strictly rising. An unlisted address has no value (log 4), so no entry can equal what an
unlisted address reads as. -/
def Memory.wf : Memory → Bool
  | [] => true
  | (x, _) :: rest => Memory.risingAbove x rest

/-- All addresses lie in the space of `2 ^ aw` locations (20_memory.md R40). -/
def Memory.below (aw : Nat) (m : Memory) : Bool := m.all fun cell => decide (cell.1 < 2 ^ aw)

/-! ### One-byte accesses -/

/-- `MemRead(addr, 1)` as a value: the last byte written there, else the free value of the address (20_memory.md R48, log 4). -/
def Block.byteAt (h : Block c) (a : c.Word) : Byte :=
  match Memory.lookup h.mem a.toNat with
  | some v => v
  | none => Config.initialByte a.toNat

/-- `MemWrite(addr, 1, v)` (00_scope.md section 5). -/
def Block.setByte (h : Block c) (a : c.Word) (v : Byte) : Block c :=
  { h with mem := Memory.store h.mem a.toNat v }

/-- Appends one access to the record of the call. -/
def Block.record (h : Block c) (e : Access c.aw) : Block c := { h with trace := h.trace ++ [e] }

/-- `SrcRead(off)`: the byte, and the block after the access. -/
def srcRead (off : c.Word) (h : Block c) : Byte × Block c :=
  (h.byteAt (h.srcAddr off), h.record (.srcRead off))

/-- `DstRead(off)`: the byte, and the block after the access. -/
def dstRead (off : c.Word) (h : Block c) : Byte × Block c :=
  (h.byteAt (h.dstAddr off), h.record (.dstRead off))

/-- `DstWrite(off, v)`. -/
def dstWrite (off : c.Word) (v : Byte) (h : Block c) : Block c :=
  (h.setByte (h.dstAddr off) v).record (.dstWrite off v)

/-- Entry `j` of the shadow buffer. -/
def Block.entry (h : Block c) (j : Byte) : Option Byte := h.buf[j.toNat]'(j.isLt)

/-- `buf[j]`: a written entry gives its byte, an unwritten one an unspecified byte (10_state.md R28), drawn anew (log 5). -/
def bufRead (j : Byte) (h : Block c) : Byte × Block c :=
  match h.entry j with
  | some v => (v, h.record (.bufRead j))
  | none => (Config.freeByte h.draws, { h.record (.bufRead j) with draws := h.draws + 1 })

/-- `buf[j] <- v`: the entry becomes written (10_state.md R28). -/
def bufWrite (j : Byte) (v : Byte) (h : Block c) : Block c :=
  { h with buf := h.buf.set j.toNat (some v) j.isLt }.record (.bufWrite j v)

/-! ### The byte loop -/

/-- `for k = 0 .. n-1` (00_scope.md section 5): the body for each index, upward, `k` holding the index (10_state.md R25). -/
def countUp (body : Nat → Block c → Block c) : Nat → Block c → Block c
  | 0, h => h
  | j + 1, h => body j { countUp body j h with k := BitVec.ofNat 8 j }

/-- The loop, after which nothing says what `k` holds: "It carries nothing across tokens" (10_state.md R25). A free value,
log 6. -/
def forBytes (body : Nat → Block c → Block c) (count : Nat) (h : Block c) : Block c :=
  let h' := countUp body count h
  { h' with k := Config.freeByte h'.draws, draws := h'.draws + 1 }

/-! ### Loop bodies -/

/-- `v <- SrcRead(sp +_AW sbase +_AW k)`, `DstWrite(wp +_AW dbase +_AW k, v)`: 40_lz_direct.md R81, 42_rle.md R102, R103. -/
def copyLiteral (sbase dbase : c.Word) (k : Nat) (h : Block c) : Block c :=
  let (v, h1) := srcRead (h.payloadOff sbase k) h
  dstWrite (h1.outOff dbase k) v h1

/-- 40_lz_direct.md R82: `v <- DstRead(wp -_AW zext_AW(dist) +_AW k)`, `DstWrite(wp +_AW k, v)`. -/
def copyBack (k : Nat) (h : Block c) : Block c :=
  let (v, h1) := dstRead (h.backOff k) h
  dstWrite (h1.outOff 0 k) v h1

/-- 41_lz_shadow.md R92: a literal byte goes to `buf[b]`, `b` increments, then the byte goes to the destination. -/
def mirrorLiteral (k : Nat) (h : Block c) : Block c :=
  let (v, h1) := srcRead (h.payloadOff 1 k) h
  let h2 := bufWrite h1.b v h1
  let h3 := { h2 with b := h2.b + 1 }
  dstWrite (h3.outOff 0 k) v h3

/-- 41_lz_shadow.md R93: `buf[i]` goes to `buf[b]` and to the destination, then `i` and `b` increment. -/
def mirrorBack (k : Nat) (h : Block c) : Block c :=
  let (v, h1) := bufRead h.i h
  let h2 := bufWrite h1.b v h1
  let h3 := dstWrite (h2.outOff 0 k) v h2
  { h3 with i := h3.i + 1, b := h3.b + 1 }

/-- 42_rle.md R101, R103: `DstWrite(wp +_AW k, fill)`. -/
def writeFill (k : Nat) (h : Block c) : Block c := dstWrite (h.outOff 0 k) h.fill h

/-! ### Payload bytes that go to a register -/

/-- `dist <- SrcRead(sp +_AW 1)`: 40_lz_direct.md R82, 41_lz_shadow.md R93. -/
def readDistance (h : Block c) : Block c :=
  let (v, h1) := srcRead (h.sp + 1) h
  { h1 with dist := v }

/-- `fill <- SrcRead(sp +_AW 1)`: 42_rle.md R101, R103. -/
def readFill (h : Block c) : Block c :=
  let (v, h1) := srcRead (h.sp + 1) h
  { h1 with fill := v }

/-! ### The end of a token, the end of a call, the fault -/

/-- The last action of a token: `sp` and `wp` advance (10_state.md R19, R20). -/
def advance (len out : c.Word) (h : Block c) : Block c := { h with sp := h.sp + len, wp := h.wp + out }

/-- The terminator, 40_lz_direct.md R80, 41_lz_shadow.md R91, 42_rle.md R100. -/
def finishCall (h : Block c) : Block c :=
  let h1 := { h with sp := h.sp + 1 }
  { h1 with result := h1.sp, wpos := h1.wp, status := .done }

/-- Taking the one exception of this hardware, `raise MalformedStream(cause)`: 60_exceptions.md R125. There is no return from
it (R128): only START and hardware reset leave `FAULT`. -/
def raiseMalformed (cause : Cause) (h : Block c) : Block c :=
  { h with cause := cause.code, wpos := h.wp, status := .fault }

/-- A literal, run or combined token under the checks of 60_exceptions.md R124, in their order: `L`, then `P`, then the token
rule. Without `HARDEN` no check fails. -/
def checkedToken (L P : Nat) (rule : Block c → Block c) (h : Block c) : Block c :=
  match sourceCause L h with
  | some cause => raiseMalformed cause h
  | none =>
    match outputCause P h with
    | some cause => raiseMalformed cause h
    | none => rule h

/-- A match token of output length `P` under the checks of 60_exceptions.md R124: `L`, then the distance byte is read, then the
distance and `P` are checked, then the rest of the token rule runs on the distance read (log 17). -/
def checkedMatch (P : Nat) (rule : Block c → Block c) (h : Block c) : Block c :=
  match sourceCause 2 h with
  | some cause => raiseMalformed cause h
  | none =>
    let h1 := readDistance h
    match distanceCause h1 with
    | some cause => raiseMalformed cause h1
    | none =>
      match outputCause P h1 with
      | some cause => raiseMalformed cause h1
      | none => rule h1

/-- The state with its block changed; the configuration stays. -/
def State.onBlock (s : State) (f : Block s.cfg → Block s.cfg) : State := { cfg := s.cfg, block := f s.block }

/-! ### START and hardware reset -/

/-- 10_state.md R14: whether a START is accepted. -/
def Block.acceptsStart (h : Block c) : Bool := h.status != .running && (c.decoder h.mode).isSome

/-- 70_reset_and_hazards.md R141: function entry. The operand registers serve as their own latches, since nothing changes them
while `RUNNING` (10_state.md R33). What R32 leaves unspecified after START is drawn (log 7). -/
def enterCall (h : Block c) : Block c :=
  { h with
    sp := 0, wp := 0, b := 0, buf := unwrittenBuf, status := .running
    result := Config.freeWord c.aw h.draws
    wpos := Config.freeWord c.aw (h.draws + 1)
    cause := Config.freeWord 2 (h.draws + 2)
    cmd := Config.freeByte (h.draws + 3)
    n := Config.freeByte (h.draws + 4)
    m := Config.freeByte (h.draws + 5)
    dist := Config.freeByte (h.draws + 6)
    fill := Config.freeByte (h.draws + 7)
    k := Config.freeByte (h.draws + 8)
    i := Config.freeByte (h.draws + 9)
    trace := []
    draws := h.draws + 10 }

/-- 70_reset_and_hazards.md R140: hardware reset, at any time. `STATUS` becomes `IDLE`; memory is not accessed; every other
register and every shadow entry is unspecified, hence drawn (log 3). -/
def hardwareReset (h : Block c) : Block c :=
  { src := Config.freeWord c.aw h.draws
    dst := Config.freeWord c.aw (h.draws + 1)
    mode := Config.freeWord 2 (h.draws + 2)
    status := .idle
    result := Config.freeWord c.aw (h.draws + 3)
    wpos := Config.freeWord c.aw (h.draws + 4)
    srcLen := Config.freeWord c.aw (h.draws + 5)
    dstLen := Config.freeWord c.aw (h.draws + 6)
    cause := Config.freeWord 2 (h.draws + 7)
    sp := Config.freeWord c.aw (h.draws + 8)
    wp := Config.freeWord c.aw (h.draws + 9)
    cmd := Config.freeByte (h.draws + 10)
    n := Config.freeByte (h.draws + 11)
    m := Config.freeByte (h.draws + 12)
    dist := Config.freeByte (h.draws + 13)
    fill := Config.freeByte (h.draws + 14)
    k := Config.freeByte (h.draws + 15)
    b := Config.freeByte (h.draws + 16)
    i := Config.freeByte (h.draws + 17)
    buf := unwrittenBuf
    mem := h.mem
    trace := []
    draws := h.draws + 18 }

/-! ### The fetch -/

/-- `cmd <- SrcRead(sp)`: 30_encoding.md R68. -/
def fetchTag (h : Block c) : Block c :=
  let (v, h1) := srcRead h.sp h
  { h1 with cmd := v }

/-- What the engine finds when it is about to take a step. -/
inductive Fetched (c : Config) where
  /-- `STATUS` is not `RUNNING`: the engine does nothing (10_state.md R31). -/
  | quiet
  /-- `MODE` names no decoder of the instance (log 15). -/
  | noDecoder
  /-- The check before the fetch failed (60_exceptions.md R124): the block after the fault entry. -/
  | stopped (h : Block c)
  /-- A token and the block after its tag was fetched. -/
  | token (i : Instr) (h : Block c)

/-- The first half of the step of 30_encoding.md R68: the check before the fetch (60_exceptions.md R124), the fetch, the
dispatch by `MODE`. -/
def fetch (h : Block c) : Fetched c :=
  match h.status with
  | .running =>
    match c.decoder h.mode with
    | none => .noDecoder
    | some mode =>
      match fetchCause h with
      | some cause => .stopped (raiseMalformed cause h)
      | none => .token (decodeTag mode (fetchTag h).cmd) (fetchTag h)
  | _ => .quiet

/-- The bytes at stream offsets `off`, `off + 1`, … , written from outside the engine. -/
def Block.pokeSource (h : Block c) (off : c.Word) : List Byte → Block c
  | [] => h
  | v :: rest => (h.setByte (h.srcAddr off) v).pokeSource (off + 1) rest

/-- What it takes for `bytes` to be the next token the engine fetches: a call in progress (a block that is not `RUNNING` takes
the START event, R141), the bytes at `SRC +_AW sp`, and with `HARDEN` a `SRC_LEN` that covers them. Log 19. -/
def Block.withNextToken (h : Block c) (bytes : List Byte) : Block c :=
  let h1 := match h.status with
    | .running => h
    | _ => enterCall h
  let h2 := h1.pokeSource h1.sp bytes
  if c.harden = true ∧ h2.srcLen.toNat < h2.sp.toNat + bytes.length then { h2 with srcLen := BitVec.allOnes c.aw } else h2

end Sys2Proof.Machine
end

