-- ==== Sys2Proof/Machine/LzDirect.lean ====
section
/-! DEFINITION. The LZ tokens in mode `LZ_DIRECT`: 40_lz_direct.md R80 to R82. -/

namespace Sys2Proof.Machine

/-- `LZD.END`, 40_lz_direct.md R80. It has no exception of its own (log 16). -/
def execLzdEnd (s : State) : Host.Outcome State Fault Refusal :=
  .next (s.onBlock finishCall)

/-- `LZD.LIT`, 40_lz_direct.md R81. -/
def execLzdLit (count : Byte) (s : State) : Host.Outcome State Fault Refusal :=
  .next (s.onBlock (checkedToken (1 + count.toNat) count.toNat fun h =>
    let h1 := { h with n := count }
    advance (1 + s.cfg.zext h1.n) (s.cfg.zext h1.n) (forBytes (copyLiteral 1 0) h1.n.toNat h1)))

/-- `LZD.MATCH`, 40_lz_direct.md R82. -/
def execLzdMatch (length : Byte) (s : State) : Host.Outcome State Fault Refusal :=
  .next (s.onBlock (checkedMatch length.toNat fun h =>
    let h1 := { h with n := length }
    advance 2 (s.cfg.zext h1.n) (forBytes copyBack h1.n.toNat h1)))

end Sys2Proof.Machine
end

