-- ==== Sys2Proof/Machine/LzShadow.lean ====
section
/-! DEFINITION. The LZ tokens in mode `LZ_SHADOW`: 41_lz_shadow.md R91 to R93. -/

namespace Sys2Proof.Machine

/-- `LZS.END`, 41_lz_shadow.md R91. It has no exception (log 16). -/
def execLzsEnd (s : State) : Host.Outcome State Fault Refusal :=
  .next (s.onBlock finishCall)

/-- `LZS.LIT`, 41_lz_shadow.md R92. -/
def execLzsLit (count : Byte) (s : State) : Host.Outcome State Fault Refusal :=
  .next (s.onBlock (checkedToken (1 + count.toNat) count.toNat fun h =>
    let h1 := { h with n := count }
    advance (1 + s.cfg.zext h1.n) (s.cfg.zext h1.n) (forBytes mirrorLiteral h1.n.toNat h1)))

/-- `LZS.MATCH`, 41_lz_shadow.md R93. -/
def execLzsMatch (length : Byte) (s : State) : Host.Outcome State Fault Refusal :=
  .next (s.onBlock (checkedMatch length.toNat fun h =>
    let h1 := { h with n := length, i := h.shadowStart }
    advance 2 (s.cfg.zext h1.n) (forBytes mirrorBack h1.n.toNat h1)))

end Sys2Proof.Machine
end

