-- ==== Sys2Proof/Machine/Rle.lean ====
section
/-! DEFINITION. The RLE tokens in mode `RLE`: 42_rle.md R100 to R103. -/

namespace Sys2Proof.Machine

/-- `RLE.END`, 42_rle.md R100. It has no exception (log 16). -/
def execRleEnd (s : State) : Host.Outcome State Fault Refusal :=
  .next (s.onBlock finishCall)

/-- `RLE.RUN`, 42_rle.md R101. -/
def execRleRun (run : Byte) (s : State) : Host.Outcome State Fault Refusal :=
  .next (s.onBlock (checkedToken 2 run.toNat fun h =>
    let h1 := readFill { h with n := run }
    advance 2 (s.cfg.zext h1.n) (forBytes writeFill h1.n.toNat h1)))

/-- `RLE.LIT`, 42_rle.md R102. -/
def execRleLit (litlen : Byte) (s : State) : Host.Outcome State Fault Refusal :=
  .next (s.onBlock (checkedToken (1 + litlen.toNat) litlen.toNat fun h =>
    let h1 := { h with n := litlen }
    advance (1 + s.cfg.zext h1.n) (s.cfg.zext h1.n) (forBytes (copyLiteral 1 0) h1.n.toNat h1)))

/-- `RLE.COMB`, 42_rle.md R103. -/
def execRleComb (run litlen : Byte) (s : State) : Host.Outcome State Fault Refusal :=
  .next (s.onBlock (checkedToken (2 + litlen.toNat) (run.toNat + litlen.toNat) fun h =>
    let h1 := readFill { h with n := run, m := litlen }
    let h2 := forBytes writeFill h1.n.toNat h1
    let h3 := forBytes (copyLiteral 2 (s.cfg.zext h2.n)) h2.m.toNat h2
    advance (2 + s.cfg.zext h3.m) (s.cfg.zext h3.n + s.cfg.zext h3.m) h3))

end Sys2Proof.Machine
end

