-- ==== Sys2Proof/Machine/Dispatch.lean ====
section
/-! DEFINITION. One token: the dispatch of 30_encoding.md R68, one arm per constructor of `Instr`. -/

namespace Sys2Proof.Machine

def exec (i : Instr) (s : State) : Host.Outcome State Fault Refusal :=
  match i with
  | .lzdEnd => Sys2Proof.Machine.execLzdEnd s
  | .lzdLit count => Sys2Proof.Machine.execLzdLit count s
  | .lzdMatch length => Sys2Proof.Machine.execLzdMatch length s
  | .lzsEnd => Sys2Proof.Machine.execLzsEnd s
  | .lzsLit count => Sys2Proof.Machine.execLzsLit count s
  | .lzsMatch length => Sys2Proof.Machine.execLzsMatch length s
  | .rleEnd => Sys2Proof.Machine.execRleEnd s
  | .rleRun run => Sys2Proof.Machine.execRleRun run s
  | .rleLit litlen => Sys2Proof.Machine.execRleLit litlen s
  | .rleComb run litlen => Sys2Proof.Machine.execRleComb run litlen s

end Sys2Proof.Machine
end

