-- ==== Sys2Proof/Machine/Step.lean ====
section
/-! DEFINITION. The step of 30_encoding.md R68: one token of a call in progress, nothing otherwise (10_state.md R31). -/

namespace Sys2Proof.Machine

/-- 30_encoding.md R68: fetch, dispatch, execute. -/
def step (s : State) : Host.Outcome State Fault Refusal :=
  match fetch s.block with
  | .quiet => .next s
  | .noDecoder => .fault .noDecoder
  | .stopped h => .next { cfg := s.cfg, block := h }
  | .token i h => exec i { cfg := s.cfg, block := h }

/-- The state with a table word as the next token the engine fetches (log 19). -/
def State.withFetchWord (s : State) (nbits w : Nat) : State :=
  s.onBlock fun h => h.withNextToken (tableBytes nbits w)

end Sys2Proof.Machine
end

