-- ==== Sys2Proof/Machine/HostPort.lean ====
section
/-! DEFINITION. The host's side: the whole host interface of 70_reset_and_hazards.md R154 (configure, start, wait, collect),
hardware reset (R140), and the host's own stores to memory. A host move stands between two engine steps. -/

namespace Sys2Proof.Machine

variable {c : Config}

/-- What the host can do to the block. -/
inductive HostCmd (c : Config) where
  /-- Write `SRC`, 10_state.md R11. -/
  | writeSrc (v : c.Word)
  /-- Write `DST`, 10_state.md R12. -/
  | writeDst (v : c.Word)
  /-- Write `MODE`, 10_state.md R13. -/
  | writeMode (v : BitVec 2)
  /-- Write `SRC_LEN`, 10_state.md R18. -/
  | writeSrcLen (v : c.Word)
  /-- Write `DST_LEN`, 10_state.md R18. -/
  | writeDstLen (v : c.Word)
  /-- The START command, 10_state.md R14. -/
  | start
  /-- Hardware reset, 70_reset_and_hazards.md R140. -/
  | reset
  /-- Store a byte in system memory (70_reset_and_hazards.md R144 item 1). -/
  | poke (a : c.Word) (v : Byte)
deriving DecidableEq, Repr

/-- A write of an operand register: ignored while `RUNNING` (10_state.md R33). -/
def unlessRunning (f : Block c → Block c) (h : Block c) : Block c :=
  match h.status with
  | .running => h
  | _ => f h

/-- 10_state.md R14: an accepted START is the event R141; an ignored or refused one changes nothing. -/
def hostStart (h : Block c) : Block c := if h.acceptsStart then enterCall h else h

/-- One host move. -/
def hostAct (cmd : HostCmd c) (h : Block c) : Host.Outcome (Block c) Fault Refusal :=
  match cmd with
  | .writeSrc v => .next (unlessRunning (fun g => { g with src := v }) h)
  | .writeDst v => .next (unlessRunning (fun g => { g with dst := v }) h)
  | .writeMode v => .next (unlessRunning (fun g => { g with mode := v }) h)
  | .writeSrcLen v =>
    if c.harden then .next (unlessRunning (fun g => { g with srcLen := v }) h) else .refused .registerAbsent
  | .writeDstLen v =>
    if c.harden then .next (unlessRunning (fun g => { g with dstLen := v }) h) else .refused .registerAbsent
  | .start => .next (hostStart h)
  | .reset => .next (hardwareReset h)
  | .poke a v => if h.status = .running then .refused .hostDuringCall else .next (h.setByte a v)

/-- The registers the host can read (10_state.md R10). -/
inductive HostReg where
  | src | dst | mode | status | result | wpos | srcLen | dstLen | cause
deriving DecidableEq, Repr

/-- 10_state.md R10: the width of a register. -/
def HostReg.width (c : Config) : HostReg → Nat
  | .mode => 2
  | .status => 2
  | .cause => 2
  | .src => c.aw
  | .dst => c.aw
  | .result => c.aw
  | .wpos => c.aw
  | .srcLen => c.aw
  | .dstLen => c.aw

/-- Whether the instance has the register (10_state.md R18). -/
def HostReg.present (c : Config) : HostReg → Bool
  | .srcLen => c.harden
  | .dstLen => c.harden
  | .cause => c.harden
  | _ => true

/-- Whether a read of the register gives what it holds: `RESULT` in `DONE` (10_state.md R16), `WPOS` in `DONE` and `FAULT`
(R17), `CAUSE` in `FAULT` (R18), every other register always. -/
def HostReg.valid (status : Status) : HostReg → Bool
  | .result => status == .done
  | .wpos => status == .done || status == .fault
  | .cause => status == .fault
  | _ => true

/-- What a register holds. -/
def HostReg.held (h : Block c) : (r : HostReg) → BitVec (r.width c)
  | .src => h.src
  | .dst => h.dst
  | .mode => h.mode
  | .status => h.status.code
  | .result => h.result
  | .wpos => h.wpos
  | .srcLen => h.srcLen
  | .dstLen => h.dstLen
  | .cause => h.cause

/-- A host read: the value, and the block after it. A register that is not valid gives an unspecified value, drawn anew at
every read (10_state.md R16, R17, R33; log 8). -/
def hostRead (r : HostReg) (h : Block c) : Except Refusal (BitVec (r.width c) × Block c) :=
  if r.present c then
    if r.valid h.status then .ok (r.held h, h)
    else .ok (Config.freeWord (r.width c) h.draws, { h with draws := h.draws + 1 })
  else .error .registerAbsent

end Sys2Proof.Machine
end

