-- ==== Sys2Proof/Machine/RefEncoder.lean ====
section
/-! DEFINITION. The reference LZ encoder, 45_encoder_reference.md R110 to R117. It is no part of the hardware (00_scope.md R3): it
defines the canonical streams (30_encoding.md R71), through which the testable properties are stated. -/

namespace Sys2Proof.RefEncoder

/-- The inner `while` of 45_encoder_reference.md R117: how far `source[pos-i+j] == source[pos+j]` holds from `j` on, at most
`room` bytes. -/
def runLength (source : List Byte) (pos i : Nat) : Nat → Nat → Nat
  | _, 0 => 0
  | j, room + 1 =>
    match source[pos - i + j]?, source[pos + j]? with
    | some x, some y => if x = y then runLength source pos i (j + 1) room + 1 else 0
    | _, _ => 0

/-- 45_encoder_reference.md R112: the match length at distance `i`, capped at 127 and at `size - pos`. -/
def matchLength (source : List Byte) (pos i : Nat) : Nat :=
  runLength source pos i 0 (min 127 (source.length - pos))

/-- 45_encoder_reference.md R112: the best `(length, distance)` over the distances 1 to the argument, scanned upward, replaced
by a strictly longer match only. The distance beside length 0 is never used (R112, 93_implementation_defined.md U11). -/
def bestMatch (source : List Byte) (pos : Nat) : Nat → Nat × Nat
  | 0 => (0, 0)
  | i + 1 =>
    let best := bestMatch source pos i
    let j := matchLength source pos (i + 1)
    if best.1 < j then (j, i + 1) else best

/-- 45_encoder_reference.md R113, R115: the pending literal run of `pi` bytes before `pos`, as a literal token. -/
def flush (source : List Byte) (pos pi : Nat) : List Byte :=
  if 0 < pi then BitVec.ofNat 8 pi :: (source.drop (pos - pi)).take pi else []

/-- The outer loop of 45_encoder_reference.md R117 from `pos` with `pi` pending bytes, then the terminator (R116). Every
iteration advances `pos`, so `source.length` iterations are enough. -/
def encodeFrom (source : List Byte) : Nat → Nat → Nat → List Byte
  | 0, _, _ => [0x00#8]
  | fuel + 1, pos, pi =>
    if pos < source.length then
      let best := bestMatch source pos (min pos 255)
      if 4 ≤ best.1 then
        flush source pos pi ++ [0x80#8 ||| BitVec.ofNat 8 best.1, BitVec.ofNat 8 best.2]
          ++ encodeFrom source fuel (pos + best.1) 0
      else if pi + 1 = 127 ∨ pos + 1 = source.length then
        flush source (pos + 1) (pi + 1) ++ encodeFrom source fuel (pos + 1) 0
      else encodeFrom source fuel (pos + 1) (pi + 1)
    else [0x00#8]

/-- `compress(source)`, 45_encoder_reference.md R110. -/
def compress (source : List Byte) : List Byte := encodeFrom source source.length 0 0

end Sys2Proof.RefEncoder
end

