-- ==== Sys2Proof/Safety.lean ====
section
/-! DEFINITION. The terms claims are stated in: what a call has read and written, what a copy does, the promises the spec makes
of every state of a call, when a token is inside the contract, the moves of the whole system. -/

namespace Sys2Proof.Machine

variable {c : Config}

/-! ### What a record of accesses says -/

/-- The offsets of the `SrcRead` events, in order. -/
def srcReads {w : Nat} (trace : List (Access w)) : List (BitVec w) :=
  trace.filterMap fun | .srcRead off => some off | _ => none

/-- The offsets of the `DstRead` events, in order. -/
def dstReads {w : Nat} (trace : List (Access w)) : List (BitVec w) :=
  trace.filterMap fun | .dstRead off => some off | _ => none

/-- The offsets and values of the `DstWrite` events, in order. -/
def dstWrites {w : Nat} (trace : List (Access w)) : List (BitVec w × Byte) :=
  trace.filterMap fun | .dstWrite off v => some (off, v) | _ => none

/-- The indexes of the reads of `buf`, in order. -/
def bufReads {w : Nat} (trace : List (Access w)) : List Byte :=
  trace.filterMap fun | .bufRead j => some j | _ => none

/-- The indexes and values of the writes of `buf`, in order. -/
def bufWrites {w : Nat} (trace : List (Access w)) : List (Byte × Byte) :=
  trace.filterMap fun | .bufWrite j v => some (j, v) | _ => none

/-- The logical output `out` of a call (00_scope.md section 5): the bytes written, in order. -/
def output {w : Nat} (trace : List (Access w)) : List Byte := (dstWrites trace).map Prod.snd

/-- The offsets 0, 1, … , `count - 1`, modulo `2 ^ w`. -/
def offsetsUpTo (w count : Nat) : List (BitVec w) := (List.range count).map (BitVec.ofNat w)

/-! ### The work of a token, 70_reset_and_hazards.md R161: the columns that are not the token's length and output -/

/-- Destination reads. -/
def dstReadCount : Instr → Nat
  | .lzdMatch length => length.toNat
  | _ => 0

/-- Reads of `buf`. -/
def bufReadCount : Instr → Nat
  | .lzsMatch length => length.toNat
  | _ => 0

/-- Writes of `buf`. -/
def bufWriteCount : Instr → Nat
  | .lzsLit count => count.toNat
  | .lzsMatch length => length.toNat
  | _ => 0

/-! ### What a byte loop does to storage -/

/-- A copy one element at a time in increasing order (40_lz_direct.md R82, 70_reset_and_hazards.md R152): element `k` gets what
its source holds when its turn comes, which is an element already copied where the two coincide (20_memory.md R48, R54). -/
def ForwardCopy {α β : Type} (before after : α → β) (source target : Nat → α) (count : Nat) : Prop :=
  ∀ k < count,
    (∀ j < k, target j = source k → after (target k) = after (target j)) ∧
    ((∀ j < k, target j ≠ source k) → after (target k) = before (source k))

/-- Nothing but the listed places changes. -/
def OnlyChanges {α β : Type} (before after : α → β) (target : Nat → α) (count : Nat) : Prop :=
  ∀ a, (∀ k < count, a ≠ target k) → after a = before a

/-- The address of byte `k` of the output of the token at hand: `DST +_AW wp +_AW k` (10_state.md R20). -/
def Block.outAddr (h : Block c) (k : Nat) : c.Word := h.dstAddr (h.outOff 0 k)

/-- The address of byte `k` of a payload that starts `base` bytes after the tag. -/
def Block.payloadAddr (h : Block c) (base k : Nat) : c.Word := h.srcAddr (h.payloadOff (BitVec.ofNat c.aw base) k)

/-- The address a match at distance `d` takes its byte `k` from in mode `LZ_DIRECT` (20_memory.md R46). -/
def Block.backAddr (h : Block c) (d : Byte) (k : Nat) : c.Word :=
  h.dstAddr (h.wp - c.zext d + BitVec.ofNat c.aw k)

/-- The tag byte of the token at hand. -/
def Block.tagByte (h : Block c) : Byte := h.byteAt (h.srcAddr h.sp)

/-- The byte after the tag: a distance or a fill byte. -/
def Block.secondByte (h : Block c) : Byte := h.byteAt (h.srcAddr (h.sp + 1))

/-! ### The checks of 60_exceptions.md R124, as propositions -/

/-- The length checks hold for a token of `L` stream bytes and `P` output bytes (vacuous without `HARDEN`). -/
def Block.PassesLengths (h : Block c) (L P : Nat) : Prop :=
  c.harden = true → h.sp.toNat + L ≤ h.srcLen.toNat ∧ h.wp.toNat + P ≤ h.dstLen.toNat

/-- The checks hold for a match of output length `P` (vacuous without `HARDEN`). -/
def Block.PassesMatch (h : Block c) (P : Nat) : Prop :=
  c.harden = true → h.sp.toNat + 2 ≤ h.srcLen.toNat ∧ h.secondByte ≠ 0#8 ∧ h.secondByte.toNat ≤ h.wp.toNat ∧
    h.wp.toNat + P ≤ h.dstLen.toNat

/-- The first check that fails for a literal, run or combined token, by R124 and R127. -/
def Block.lengthsFailure (h : Block c) (L P : Nat) : Option Cause :=
  if h.srcLen.toNat < h.sp.toNat + L then some .srcOverrun
  else if h.dstLen.toNat < h.wp.toNat + P then some .dstOverflow
  else none

/-- The first check that fails for a match once the distance byte is read, by R124 and R127. -/
def Block.matchFailure (h : Block c) (P : Nat) : Option Cause :=
  if h.secondByte = 0#8 then some .zeroDistance
  else if h.wp.toNat < h.secondByte.toNat then some .backrefUnderflow
  else if h.dstLen.toNat < h.wp.toNat + P then some .dstOverflow
  else none

/-- A token without a distance byte that fails a length check takes the fault (60_exceptions.md R124, R125) instead of having its
effect. Without `HARDEN` this says nothing. -/
def Block.StopsOnLengths (h : Block c) (i : Instr) : Prop :=
  ∀ cause, c.harden = true → h.lengthsFailure i.length i.output = some cause →
    exec i ⟨c, h⟩ = .next ⟨c, raiseMalformed cause h⟩

/-- A match of output length `P` that fails a check takes the fault instead of having its effect: a source overrun before the
distance byte is read, the others after it (R124, R125), with `dist` holding the byte and `n` as it was (log 17). Without `HARDEN`
this says nothing. -/
def Block.StopsOnMatch (h : Block c) (i : Instr) (P : Nat) : Prop :=
  (c.harden = true → h.srcLen.toNat < h.sp.toNat + 2 → exec i ⟨c, h⟩ = .next ⟨c, raiseMalformed .srcOverrun h⟩) ∧
  (∀ cause, c.harden = true → h.sp.toNat + 2 ≤ h.srcLen.toNat → h.matchFailure P = some cause →
    exec i ⟨c, h⟩ = .next ⟨c, raiseMalformed cause
      { h with dist := h.secondByte, trace := h.trace ++ [.srcRead (h.sp + 1)] }⟩)

/-! ### Frames -/

/-- The host's operand registers, which the engine never writes (10_state.md R10, R11, R12), and the block's own copy of the
configuration's registers `SRC_LEN`, `DST_LEN`. -/
structure Block.SameOperands (h h' : Block c) : Prop where
  src : h'.src = h.src
  dst : h'.dst = h.dst
  mode : h'.mode = h.mode
  srcLen : h'.srcLen = h.srcLen
  dstLen : h'.dstLen = h.dstLen

/-- The registers that publish a call's end (10_state.md R15 to R18). -/
structure Block.SamePublished (h h' : Block c) : Prop where
  status : h'.status = h.status
  result : h'.result = h.result
  wpos : h'.wpos = h.wpos
  cause : h'.cause = h.cause

/-- The state only mode `LZ_SHADOW` uses (10_state.md R26 to R28). -/
structure Block.SameShadow (h h' : Block c) : Prop where
  b : h'.b = h.b
  i : h'.i = h.i
  buf : h'.buf = h.buf

/-! ### Promises about every state of a call -/

/-- Memory is in its canonical form and inside the address space (20_memory.md R40). -/
def Block.MemoryOk (h : Block c) : Prop := Memory.wf h.mem = true ∧ Memory.below c.aw h.mem = true

/-- 20_memory.md R49 and R50 at every point of a call: each stream byte was read once, in increasing order; each output byte was
written once, in increasing order; the cursors count them (10_state.md R19, R20); the result registers publish them (R16, R17;
60_exceptions.md R125). -/
structure Block.ExactAccess (h : Block c) : Prop where
  reads : h.status ≠ .idle → srcReads h.trace = offsetsUpTo c.aw (srcReads h.trace).length
  writes : h.status ≠ .idle → (dstWrites h.trace).map Prod.fst = offsetsUpTo c.aw (dstWrites h.trace).length
  sp : h.status = .running ∨ h.status = .done → h.sp = BitVec.ofNat c.aw (srcReads h.trace).length
  wp : h.status ≠ .idle → h.wp = BitVec.ofNat c.aw (dstWrites h.trace).length
  result : h.status = .done → h.result = h.sp
  wpos : h.status = .done ∨ h.status = .fault → h.wpos = h.wp

/-- 41_lz_shadow.md R94, the mirror invariant: in a call in mode `LZ_SHADOW`, `b` counts the output modulo 256 and the buffer
holds the last `min(wp, 256)` output bytes, the newest just behind the cursor. -/
def Block.Mirrors (h : Block c) : Prop :=
  h.status = .running → h.mode = Mode.lzShadow.code →
    h.b = BitVec.ofNat 8 (output h.trace).length ∧
    ∀ j, 1 ≤ j → j ≤ min (output h.trace).length 256 →
      h.entry (h.b - BitVec.ofNat 8 j) = (output h.trace)[(output h.trace).length - j]?

/-- 70_reset_and_hazards.md R142 at every point of a call: the destination holds the output (its last `2 ^ AW` bytes, should it
be longer than the address space). -/
def Block.HoldsOutput (h : Block c) : Prop :=
  ∀ j, 1 ≤ j → j ≤ min (output h.trace).length (2 ^ c.aw) →
    some (h.byteAt (h.dstAddr (BitVec.ofNat c.aw ((output h.trace).length - j)))) =
      (output h.trace)[(output h.trace).length - j]?

/-- With `HARDEN` the cursors of a call stay inside the lengths the host gave (60_exceptions.md R123). -/
def Block.WithinLengths (h : Block c) : Prop :=
  c.harden = true → h.status = .running → h.sp.toNat ≤ h.srcLen.toNat ∧ h.wp.toNat ≤ h.dstLen.toNat

/-- 10_state.md R14: a call in progress has a decoder. -/
def Block.HasDecoder (h : Block c) : Prop := h.status = .running → (c.decoder h.mode).isSome = true

/-- 10_state.md R15: `FAULT` is reachable only with `HARDEN`. -/
def Block.FaultNeedsHarden (h : Block c) : Prop := h.status = .fault → c.harden = true

/-! ### Contract of the LZ format -/

/-- 30_encoding.md R72 for the token at hand in an LZ mode: a match has `1 <= distance <= wp`. -/
def Block.TokenWellFormed (h : Block c) : Prop :=
  h.tagByte &&& 0x80#8 ≠ 0#8 → h.secondByte ≠ 0#8 ∧ h.secondByte.toNat ≤ h.wp.toNat

/-- 30_encoding.md R71, what every canonical LZ stream satisfies, of the bytes from a token boundary on, with `wp` bytes of output
before them: literals of 1 to 127 bytes, matches of length 4 to 127 at a distance of 1 to 255 and at most `wp` (layouts LZ-L and
LZ-M of R62), and one terminator, which is the last byte. No tag but the terminator's can be `0x00`. -/
inductive CanonicalFrom : Nat → List Byte → Prop where
  | terminator (wp : Nat) : CanonicalFrom wp [0x00#8]
  | literal (wp : Nat) (payload rest : List Byte) : 1 ≤ payload.length → payload.length ≤ 127 →
      CanonicalFrom (wp + payload.length) rest →
      CanonicalFrom wp (BitVec.ofNat 8 payload.length :: (payload ++ rest))
  | backReference (wp length distance : Nat) (rest : List Byte) : 4 ≤ length → length ≤ 127 →
      1 ≤ distance → distance ≤ 255 → distance ≤ wp → CanonicalFrom (wp + length) rest →
      CanonicalFrom wp ((0x80#8 ||| BitVec.ofNat 8 length) :: BitVec.ofNat 8 distance :: rest)

/-- A call in `mode` has begun on `stream`, whose output is to be `source`: the stream stands at `SRC`, neither is as long as the
address space, the regions do not overlap (70_reset_and_hazards.md R157) and, with `HARDEN`, the lengths suffice. Nothing is said
of the shadow buffer or of the destination's contents. -/
structure Block.BeginsOn (h : Block c) (mode : Mode) (source stream : List Byte) : Prop where
  running : h.status = .running
  decoder : c.decoder h.mode = some mode
  sp : h.sp = 0
  wp : h.wp = 0
  streamFits : stream.length < 2 ^ c.aw
  sourceFits : source.length < 2 ^ c.aw
  lengths : c.harden = true → stream.length ≤ h.srcLen.toNat ∧ source.length ≤ h.dstLen.toNat
  apart : ∀ j k, j < stream.length → k < source.length →
    h.srcAddr (BitVec.ofNat c.aw j) ≠ h.dstAddr (BitVec.ofNat c.aw k)
  held : ∀ j (hj : j < stream.length), h.byteAt (h.srcAddr (BitVec.ofNat c.aw j)) = stream[j]

/-- The call ends, in `DONE`, with `source` at `DST`, `RESULT` the stream's length and `WPOS` the output's
(40_lz_direct.md R84). -/
def Block.EndsWith (h : Block c) (source stream : List Byte) : Prop :=
  ∃ n h', Sys2Proof.core.run n ⟨c, h⟩ = .next (⟨c, h'⟩ : State) ∧ h'.status = .done ∧
    h'.result = BitVec.ofNat c.aw stream.length ∧ h'.wpos = BitVec.ofNat c.aw source.length ∧
    ∀ k (hk : k < source.length), h'.byteAt (h'.dstAddr (BitVec.ofNat c.aw k)) = source[k]

/-- 41_lz_shadow.md R95: a call in mode `LZ_DIRECT` and a call in mode `LZ_SHADOW` that have made the same source reads and the
same destination writes and stand at the same point. -/
structure Block.SameCall (hd hs : Block c) : Prop where
  direct : hd.mode = Mode.lzDirect.code
  shadow : hs.mode = Mode.lzShadow.code
  src : hs.src = hd.src
  dst : hs.dst = hd.dst
  srcLen : hs.srcLen = hd.srcLen
  dstLen : hs.dstLen = hd.dstLen
  status : hs.status = hd.status
  sp : hs.sp = hd.sp
  wp : hs.wp = hd.wp
  mem : hs.mem = hd.mem
  reads : srcReads hs.trace = srcReads hd.trace
  writes : dstWrites hs.trace = dstWrites hd.trace
  result : hd.status = .done → hs.result = hd.result
  wpos : hd.status = .done ∨ hd.status = .fault → hs.wpos = hd.wpos
  cause : hd.status = .fault → hs.cause = hd.cause
  notIdle : hd.status ≠ .idle
  exact : hd.ExactAccess
  held : hd.HoldsOutput
  mirror : hs.Mirrors

/-! ### The original block beside the hardened one -/

/-- The instance without the checks (00_scope.md R6). -/
def Config.soft (c : Config) : Config := { c with harden := false }

/-- The same registers and memory in the instance without the checks. -/
def Block.soft (h : Block c) : Block (Config.soft c) :=
  { src := h.src, dst := h.dst, mode := h.mode, status := h.status, result := h.result, wpos := h.wpos
    srcLen := h.srcLen, dstLen := h.dstLen, cause := h.cause, sp := h.sp, wp := h.wp, cmd := h.cmd, n := h.n, m := h.m
    dist := h.dist, fill := h.fill, k := h.k, b := h.b, i := h.i, buf := h.buf, mem := h.mem, trace := h.trace
    draws := h.draws }

/-! ### The whole system -/

/-- One move of the engine or of the host (70_reset_and_hazards.md R154). -/
inductive Moves : State → State → Prop where
  /-- The engine takes a step. -/
  | engine {s t : State} : step s = .next t → Moves s t
  /-- The host acts. -/
  | host {c : Config} {h h' : Block c} (cmd : HostCmd c) : hostAct cmd h = .next h' → Moves ⟨c, h⟩ ⟨c, h'⟩
  /-- The host reads a register. -/
  | read {c : Config} {h h' : Block c} (r : HostReg) (v : BitVec (r.width c)) : hostRead r h = .ok (v, h') →
      Moves ⟨c, h⟩ ⟨c, h'⟩

/-- What the moves of engine and host reach from hardware reset, in any instance. -/
inductive Reachable : State → Prop where
  | reset (c : Config) : Reachable (State.resetOf c)
  | move {s t : State} : Reachable s → Moves s t → Reachable t

/-- A run is safe when the engine has a next state: the model neither faults nor refuses. A malformed stream of a hardened
instance is safe in this sense: it ends in `STATUS = FAULT`, which is a state of the spec. -/
def State.Safe (s : State) : Prop := ∃ t, step s = .next t

end Sys2Proof.Machine
end

