-- ==== Sys2Proof/Certificates/Slice0/Obligations.lean ====
section
/-! DEFINITION. The statements for the provers. Each names the rules of spec/ it formalises; `c` is any instance (every `AW`,
`HARDEN`, `MODE_SET`), `h` any block of it, reached or not. -/

open Sys2Proof Sys2Proof.Machine

/-! ### Encoding -/

/-- Words written out from the layouts of 30_encoding.md R62 and R64 decode to the tokens they stand for. -/
def Obligations.SpecWordsDecode : Prop :=
  decodeTag .lzDirect 0b00000000#8 = .lzdEnd ∧
  decodeTag .lzDirect 0b00000011#8 = .lzdLit 3 ∧
  decodeTag .lzDirect 0b10000110#8 = .lzdMatch 6 ∧
  decodeTag .lzShadow 0b00000000#8 = .lzsEnd ∧
  decodeTag .lzShadow 0b01111111#8 = .lzsLit 127 ∧
  decodeTag .lzShadow 0b11111111#8 = .lzsMatch 127 ∧
  decodeTag .rle 0b00000000#8 = .rleEnd ∧
  decodeTag .rle 0b00000001#8 = .rleRun 2 ∧
  decodeTag .rle 0b01000010#8 = .rleLit 3 ∧
  decodeTag .rle 0b10100011#8 = .rleComb 3 4

/-- 30_encoding.md R66 with R63: the LZ tag map by tag value, the same in both LZ modes. -/
def Obligations.LzTagMap : Prop :=
  ∀ tag : Byte,
    (tag.toNat = 0x00 → decodeTag .lzDirect tag = .lzdEnd ∧ decodeTag .lzShadow tag = .lzsEnd) ∧
    (0x01 ≤ tag.toNat → tag.toNat ≤ 0x7F →
      decodeTag .lzDirect tag = .lzdLit tag ∧ decodeTag .lzShadow tag = .lzsLit tag) ∧
    (0x80 ≤ tag.toNat →
      decodeTag .lzDirect tag = .lzdMatch (BitVec.ofNat 8 (tag.toNat - 128)) ∧
      decodeTag .lzShadow tag = .lzsMatch (BitVec.ofNat 8 (tag.toNat - 128)))

/-- 30_encoding.md R67 with R65: the RLE tag map by tag value, every count biased by one. -/
def Obligations.RleTagMap : Prop :=
  ∀ tag : Byte,
    (tag.toNat = 0x00 → decodeTag .rle tag = .rleEnd) ∧
    (0x01 ≤ tag.toNat → tag.toNat ≤ 0x3F → decodeTag .rle tag = .rleRun (BitVec.ofNat 8 (tag.toNat + 1))) ∧
    (0x40 ≤ tag.toNat → tag.toNat ≤ 0x7F → decodeTag .rle tag = .rleLit (BitVec.ofNat 8 (tag.toNat - 64 + 1))) ∧
    (0x80 ≤ tag.toNat →
      decodeTag .rle tag =
        .rleComb (BitVec.ofNat 8 ((tag.toNat - 128) / 16 + 1)) (BitVec.ofNat 8 (tag.toNat % 16 + 1)))

/-- spec/opcode_table.json: within one mode every tag value fits exactly one row (spec/INDEX.md), and it is the row of the
token the decoder reads. -/
def Obligations.TableRowsPartitionTags : Prop :=
  ∀ (mode : Mode) (tag : Byte),
    (opcodeTable.filter fun r => r.fits mode tag).map Row.kind = [(decodeTag mode tag).kind]

/-- Decode of encode, for every well-formed token: no bit of a tag is dropped. -/
def Obligations.DecodeOfEncode : Prop :=
  ∀ i : Instr, i.wf = true → decodeTag i.mode (encode i) = i

/-- Encode of decode, for every tag of every mode: each tag has one meaning, and it is a well-formed token of its mode. -/
def Obligations.EncodeOfDecode : Prop :=
  ∀ (mode : Mode) (tag : Byte),
    encode (decodeTag mode tag) = tag ∧ (decodeTag mode tag).mode = mode ∧ (decodeTag mode tag).wf = true

/-! ### The step -/

/-- 30_encoding.md R68: while `RUNNING` a step fetches the tag at `sp` into `cmd` and executes the token it decodes to under
`MODE`; with `HARDEN` the check before the fetch must hold (60_exceptions.md R124). -/
def Obligations.StepRunsFetchedToken : Prop :=
  ∀ (c : Config) (h : Block c) (mode : Mode),
    h.status = .running → c.decoder h.mode = some mode → (c.harden = true → h.sp.toNat < h.srcLen.toNat) →
    step ⟨c, h⟩ =
      exec (decodeTag mode h.tagByte) ⟨c, { h with cmd := h.tagByte, trace := h.trace ++ [.srcRead h.sp] }⟩

/-- The bytes at the program counter and the step: when they decode (under `MODE`, in this instance) to a token `i`, the step is
`exec i` after the fetch. -/
def Obligations.StepRunsDecodedBytes : Prop :=
  ∀ (c : Config) (h : Block c) (i : Instr) (rest : List Byte),
    h.status = .running → (c.harden = true → h.sp.toNat < h.srcLen.toNat) →
    decode c h.mode (h.tagByte :: rest) = .ok (i, rest) →
    step ⟨c, h⟩ = exec i ⟨c, { h with cmd := h.tagByte, trace := h.trace ++ [.srcRead h.sp] }⟩

/-- 10_state.md R31: outside `RUNNING` the engine does nothing, and it leaves `RUNNING` only for `DONE`, on a terminator, or for
`FAULT`, with `HARDEN`; the host's commands change `STATUS` only by START (to `RUNNING`, never from `RUNNING`) and by reset (to
`IDLE`); a host read changes neither `STATUS` nor any other state of the spec (only the model's own `draws`, log 20). -/
def Obligations.StatusMovesAsListed : Prop :=
  (∀ s t : State, step s = .next t →
    (s.block.status ≠ .running → t = s) ∧
    (s.block.status = .running →
      (t.block.status = .running ∧ s.block.tagByte ≠ 0x00#8) ∨ (t.block.status = .done ∧ s.block.tagByte = 0x00#8) ∨
        (t.block.status = .fault ∧ s.cfg.harden = true))) ∧
  (∀ (c : Config) (h h' : Block c) (cmd : HostCmd c), hostAct cmd h = .next h' →
    (cmd = .reset → h'.status = .idle) ∧
    (cmd = .start → h'.status = if h.acceptsStart then .running else h.status) ∧
    (cmd ≠ .reset → cmd ≠ .start → h'.status = h.status)) ∧
  (∀ (c : Config) (h h' : Block c) (r : HostReg) (v : BitVec (r.width c)), hostRead r h = .ok (v, h') →
    h'.status = h.status ∧ h' = { h with draws := h'.draws })

/-- The model's choice (log 15): a step while `MODE` names no decoder stops with the fault `noDecoder`; R14 keeps it from
happening. -/
def Obligations.NoDecoderStops : Prop :=
  ∀ (c : Config) (h : Block c), h.status = .running → c.decoder h.mode = none → step ⟨c, h⟩ = .fault .noDecoder

/-- 30_encoding.md R76: without `HARDEN` a call ends exactly when a tag byte `0x00` is met at a token boundary. -/
def Obligations.CallEndsExactlyAtZeroTag : Prop :=
  ∀ (c : Config) (h : Block c) (t : State), c.harden = false → h.status = .running → step ⟨c, h⟩ = .next t →
    (t.block.status = .done ↔ h.tagByte = 0x00#8)

/-! ### What each token does

The second clause of a statement says what the token does instead when a check of the hardened block fails
(`Block.StopsOnLengths`, `Block.StopsOnMatch`). -/

/-- 40_lz_direct.md R80, 41_lz_shadow.md R91, 42_rle.md R100: a terminator consumes its tag byte, writes no output, publishes
`RESULT` and `WPOS`, and ends the call. Nothing else changes. That it is so in every state with `HARDEN` too is the model's
reading (log 16, DEDUCED): the token rules give a terminator no exception of its own, while 60_exceptions.md R124 writes the
checks for a terminator as well (`L = 1`, `P = 0`). The two differ only where `wp > DST_LEN` or `sp + 1 > SRC_LEN`, which no call
reaches at a terminator (`MovesKeepWithinLengths`). -/
def Obligations.TerminatorEndsCall : Prop :=
  ∀ (c : Config) (h : Block c) (i : Instr), i = .lzdEnd ∨ i = .lzsEnd ∨ i = .rleEnd →
    exec i ⟨c, h⟩ = .next ⟨c, { h with sp := h.sp + 1, result := h.sp + 1, wpos := h.wp, status := .done }⟩

/-- 40_lz_direct.md R81 (`LZD.LIT`): the payload goes to the destination byte by byte, `sp` and `wp` advance; nothing else
changes but `n` and the loop index `k`. -/
def Obligations.LzdLitCopies : Prop :=
  ∀ (c : Config) (h : Block c) (count : Byte),
    (h.PassesLengths (1 + count.toNat) count.toNat →
      ∃ h' : Block c, exec (.lzdLit count) ⟨c, h⟩ = .next ⟨c, h'⟩ ∧
        h'.n = count ∧ h'.sp = h.sp + 1 + c.zext count ∧ h'.wp = h.wp + c.zext count ∧
        ForwardCopy h.byteAt h'.byteAt (h.payloadAddr 1) h.outAddr count.toNat ∧
        OnlyChanges h.byteAt h'.byteAt h.outAddr count.toNat ∧
        h'.trace = h.trace ++ (List.range count.toNat).flatMap (fun k =>
          [.srcRead (h.payloadOff 1 k), .dstWrite (h.outOff 0 k) (h'.byteAt (h.outAddr k))]) ∧
        h.SameOperands h' ∧ h.SamePublished h' ∧ h.SameShadow h' ∧
        h'.cmd = h.cmd ∧ h'.m = h.m ∧ h'.dist = h.dist ∧ h'.fill = h.fill) ∧
    h.StopsOnLengths (.lzdLit count)

/-- 40_lz_direct.md R82 (`LZD.MATCH`): `length` bytes are copied from `distance` bytes behind the write position, one at a time
in increasing order, each seeing the writes before it; the distance byte is consumed, `sp` advances by 2. Second clause: R124 and
R125; that `dist` then holds the byte read and `n` is as it was is the model's reading (log 17, DEDUCED). -/
def Obligations.LzdMatchCopies : Prop :=
  ∀ (c : Config) (h : Block c) (length : Byte),
    (h.PassesMatch length.toNat →
      ∃ h' : Block c, exec (.lzdMatch length) ⟨c, h⟩ = .next ⟨c, h'⟩ ∧
        h'.n = length ∧ h'.dist = h.secondByte ∧ h'.sp = h.sp + 2 ∧ h'.wp = h.wp + c.zext length ∧
        ForwardCopy h.byteAt h'.byteAt (h.backAddr h.secondByte) h.outAddr length.toNat ∧
        OnlyChanges h.byteAt h'.byteAt h.outAddr length.toNat ∧
        h'.trace = h.trace ++ .srcRead (h.sp + 1) :: (List.range length.toNat).flatMap (fun k =>
          [.dstRead (h.wp - c.zext h.secondByte + BitVec.ofNat c.aw k),
            .dstWrite (h.outOff 0 k) (h'.byteAt (h.outAddr k))]) ∧
        h.SameOperands h' ∧ h.SamePublished h' ∧ h.SameShadow h' ∧
        h'.cmd = h.cmd ∧ h'.m = h.m ∧ h'.fill = h.fill) ∧
    h.StopsOnMatch (.lzdMatch length) length.toNat

/-- 41_lz_shadow.md R92 (`LZS.LIT`): as `LZD.LIT`, and each byte is mirrored at the shadow cursor, which advances by the count
modulo 256. -/
def Obligations.LzsLitMirrors : Prop :=
  ∀ (c : Config) (h : Block c) (count : Byte),
    (h.PassesLengths (1 + count.toNat) count.toNat →
      ∃ h' : Block c, exec (.lzsLit count) ⟨c, h⟩ = .next ⟨c, h'⟩ ∧
        h'.n = count ∧ h'.sp = h.sp + 1 + c.zext count ∧ h'.wp = h.wp + c.zext count ∧ h'.b = h.b + count ∧
        ForwardCopy h.byteAt h'.byteAt (h.payloadAddr 1) h.outAddr count.toNat ∧
        OnlyChanges h.byteAt h'.byteAt h.outAddr count.toNat ∧
        (∀ k < count.toNat, h'.entry (h.b + BitVec.ofNat 8 k) = some (h'.byteAt (h.outAddr k))) ∧
        OnlyChanges h.entry h'.entry (fun k => h.b + BitVec.ofNat 8 k) count.toNat ∧
        h'.trace = h.trace ++ (List.range count.toNat).flatMap (fun k =>
          [.srcRead (h.payloadOff 1 k), .bufWrite (h.b + BitVec.ofNat 8 k) (h'.byteAt (h.outAddr k)),
            .dstWrite (h.outOff 0 k) (h'.byteAt (h.outAddr k))]) ∧
        h.SameOperands h' ∧ h.SamePublished h' ∧
        h'.cmd = h.cmd ∧ h'.m = h.m ∧ h'.dist = h.dist ∧ h'.fill = h.fill ∧ h'.i = h.i) ∧
    h.StopsOnLengths (.lzsLit count)

/-- 41_lz_shadow.md R93 (`LZS.MATCH`): `length` entries are copied inside the shadow buffer from `distance` behind the cursor to
the cursor, one at a time in increasing order, and to the destination; both indexes advance modulo 256. An entry that no token
of the call has written gives an unspecified byte (10_state.md R28, 41_lz_shadow.md R96): `Config.freeByte`, of which nothing is
known. That the token runs on it, where 93_implementation_defined.md U8 also lets a model fault, is the model's choice (log 5,
DESIGN CHOICE). Second clause: 60_exceptions.md R124 and R125; that `dist` then holds the byte read and `n` is as it was is the
model's reading (log 17, DEDUCED). -/
def Obligations.LzsMatchMirrors : Prop :=
  ∀ (c : Config) (h : Block c) (length : Byte),
    (h.PassesMatch length.toNat →
      ∃ h' : Block c, exec (.lzsMatch length) ⟨c, h⟩ = .next ⟨c, h'⟩ ∧
        h'.n = length ∧ h'.dist = h.secondByte ∧ h'.sp = h.sp + 2 ∧ h'.wp = h.wp + c.zext length ∧
        h'.b = h.b + length ∧ h'.i = h.b - h.secondByte + length ∧
        (∀ k < length.toNat,
          (∀ j < k, h.b + BitVec.ofNat 8 j = h.b - h.secondByte + BitVec.ofNat 8 k →
            h'.entry (h.b + BitVec.ofNat 8 k) = h'.entry (h.b + BitVec.ofNat 8 j)) ∧
          ((∀ j < k, h.b + BitVec.ofNat 8 j ≠ h.b - h.secondByte + BitVec.ofNat 8 k) →
            (∀ v, h.entry (h.b - h.secondByte + BitVec.ofNat 8 k) = some v →
              h'.entry (h.b + BitVec.ofNat 8 k) = some v) ∧
            (h.entry (h.b - h.secondByte + BitVec.ofNat 8 k) = none →
              ∃ d, h.draws ≤ d ∧ d < h'.draws ∧ h'.entry (h.b + BitVec.ofNat 8 k) = some (Config.freeByte d))) ∧
          h'.entry (h.b + BitVec.ofNat 8 k) = some (h'.byteAt (h.outAddr k))) ∧
        OnlyChanges h.entry h'.entry (fun k => h.b + BitVec.ofNat 8 k) length.toNat ∧
        OnlyChanges h.byteAt h'.byteAt h.outAddr length.toNat ∧
        h'.trace = h.trace ++ .srcRead (h.sp + 1) :: (List.range length.toNat).flatMap (fun k =>
          [.bufRead (h.b - h.secondByte + BitVec.ofNat 8 k),
            .bufWrite (h.b + BitVec.ofNat 8 k) (h'.byteAt (h.outAddr k)),
            .dstWrite (h.outOff 0 k) (h'.byteAt (h.outAddr k))]) ∧
        h.SameOperands h' ∧ h.SamePublished h' ∧
        h'.cmd = h.cmd ∧ h'.m = h.m ∧ h'.fill = h.fill) ∧
    h.StopsOnMatch (.lzsMatch length) length.toNat

/-- 42_rle.md R101 (`RLE.RUN`): the fill byte is read once and written `run` times. -/
def Obligations.RleRunFills : Prop :=
  ∀ (c : Config) (h : Block c) (run : Byte),
    (h.PassesLengths 2 run.toNat →
      ∃ h' : Block c, exec (.rleRun run) ⟨c, h⟩ = .next ⟨c, h'⟩ ∧
        h'.n = run ∧ h'.fill = h.secondByte ∧ h'.sp = h.sp + 2 ∧ h'.wp = h.wp + c.zext run ∧
        (∀ k < run.toNat, h'.byteAt (h.outAddr k) = h.secondByte) ∧
        OnlyChanges h.byteAt h'.byteAt h.outAddr run.toNat ∧
        h'.trace = h.trace ++ .srcRead (h.sp + 1) :: (List.range run.toNat).map (fun k =>
          .dstWrite (h.outOff 0 k) h.secondByte) ∧
        h.SameOperands h' ∧ h.SamePublished h' ∧ h.SameShadow h' ∧
        h'.cmd = h.cmd ∧ h'.m = h.m ∧ h'.dist = h.dist) ∧
    h.StopsOnLengths (.rleRun run)

/-- 42_rle.md R102 (`RLE.LIT`): the payload goes to the destination byte by byte. -/
def Obligations.RleLitCopies : Prop :=
  ∀ (c : Config) (h : Block c) (litlen : Byte),
    (h.PassesLengths (1 + litlen.toNat) litlen.toNat →
      ∃ h' : Block c, exec (.rleLit litlen) ⟨c, h⟩ = .next ⟨c, h'⟩ ∧
        h'.n = litlen ∧ h'.sp = h.sp + 1 + c.zext litlen ∧ h'.wp = h.wp + c.zext litlen ∧
        ForwardCopy h.byteAt h'.byteAt (h.payloadAddr 1) h.outAddr litlen.toNat ∧
        OnlyChanges h.byteAt h'.byteAt h.outAddr litlen.toNat ∧
        h'.trace = h.trace ++ (List.range litlen.toNat).flatMap (fun k =>
          [.srcRead (h.payloadOff 1 k), .dstWrite (h.outOff 0 k) (h'.byteAt (h.outAddr k))]) ∧
        h.SameOperands h' ∧ h.SamePublished h' ∧ h.SameShadow h' ∧
        h'.cmd = h.cmd ∧ h'.m = h.m ∧ h'.dist = h.dist ∧ h'.fill = h.fill) ∧
    h.StopsOnLengths (.rleLit litlen)

/-- 42_rle.md R103 (`RLE.COMB`): the run first, then the literal; a literal byte sees the writes before it. -/
def Obligations.RleCombFillsThenCopies : Prop :=
  ∀ (c : Config) (h : Block c) (run litlen : Byte),
    (h.PassesLengths (2 + litlen.toNat) (run.toNat + litlen.toNat) →
      ∃ h' : Block c, exec (.rleComb run litlen) ⟨c, h⟩ = .next ⟨c, h'⟩ ∧
        h'.n = run ∧ h'.m = litlen ∧ h'.fill = h.secondByte ∧
        h'.sp = h.sp + 2 + c.zext litlen ∧ h'.wp = h.wp + c.zext run + c.zext litlen ∧
        (∀ k < run.toNat, h'.byteAt (h.outAddr k) = h.secondByte) ∧
        (∀ k < litlen.toNat,
          (∀ j < run.toNat + k, h.outAddr j = h.payloadAddr 2 k →
            h'.byteAt (h.outAddr (run.toNat + k)) = h'.byteAt (h.outAddr j)) ∧
          ((∀ j < run.toNat + k, h.outAddr j ≠ h.payloadAddr 2 k) →
            h'.byteAt (h.outAddr (run.toNat + k)) = h.byteAt (h.payloadAddr 2 k))) ∧
        OnlyChanges h.byteAt h'.byteAt h.outAddr (run.toNat + litlen.toNat) ∧
        h'.trace = h.trace ++ .srcRead (h.sp + 1) :: ((List.range run.toNat).map (fun k =>
            .dstWrite (h.outOff 0 k) h.secondByte) ++
          (List.range litlen.toNat).flatMap (fun k =>
            [.srcRead (h.payloadOff 2 k),
              .dstWrite (h.outOff 0 (run.toNat + k)) (h'.byteAt (h.outAddr (run.toNat + k)))])) ∧
        h.SameOperands h' ∧ h.SamePublished h' ∧ h.SameShadow h' ∧
        h'.cmd = h.cmd ∧ h'.dist = h.dist) ∧
    h.StopsOnLengths (.rleComb run litlen)

/-- 40_lz_direct.md R83, the overlap law: after `LZD.MATCH` at a distance `d` of at least 1, the new bytes are the previous `d`
bytes repeated cyclically. -/
def Obligations.MatchRepeatsPeriodically : Prop :=
  ∀ (c : Config) (h h' : Block c) (length : Byte), h.PassesMatch length.toNat → 1 ≤ h.secondByte.toNat →
    exec (.lzdMatch length) ⟨c, h⟩ = .next ⟨c, h'⟩ →
    ∀ k < length.toNat, h'.byteAt (h.outAddr k) = h.byteAt (h.backAddr h.secondByte (k % h.secondByte.toNat))

/-- 40_lz_direct.md R85: without `HARDEN` a match at distance 0 in mode `LZ_DIRECT` leaves memory as it is and advances `wp`.
R85 calls this the spec's own completion and says a model should refuse the case; running it is a choice (log 10, DESIGN
CHOICE). -/
def Obligations.ZeroDistanceDirectKeepsMemory : Prop :=
  ∀ (c : Config) (h : Block c) (length : Byte), c.harden = false → h.secondByte = 0#8 →
    ∃ h' : Block c, exec (.lzdMatch length) ⟨c, h⟩ = .next ⟨c, h'⟩ ∧ h'.wp = h.wp + c.zext length ∧
      ∀ a, h'.byteAt a = h.byteAt a

/-- 41_lz_shadow.md R96: without `HARDEN` a match at distance 0 in mode `LZ_SHADOW` writes each entry at the cursor back as it is
(if it is written) and to the destination. R96 calls this the spec's own completion and says a model should refuse such streams;
running it is a choice (log 10, DESIGN CHOICE). Unwritten entries: `LzsMatchMirrors`. -/
def Obligations.ZeroDistanceShadowRepeatsBuffer : Prop :=
  ∀ (c : Config) (h : Block c) (length : Byte), c.harden = false → h.secondByte = 0#8 →
    ∃ h' : Block c, exec (.lzsMatch length) ⟨c, h⟩ = .next ⟨c, h'⟩ ∧ h'.wp = h.wp + c.zext length ∧
      ∀ k < length.toNat, ∀ v, h.entry (h.b + BitVec.ofNat 8 k) = some v →
        h'.entry (h.b + BitVec.ofNat 8 k) = some v ∧ h'.byteAt (h.outAddr k) = v

/-! ### All tokens together -/

/-- 30_encoding.md R61 with 10_state.md R19 and R20: a token that is not stopped by a check advances `sp` by its own length and
`wp` by the bytes it produces. -/
def Obligations.CursorsAdvanceByToken : Prop :=
  ∀ (c : Config) (h h' : Block c) (i : Instr), h.status = .running → exec i ⟨c, h⟩ = .next ⟨c, h'⟩ →
    h'.status ≠ .fault →
    h'.sp = h.sp + BitVec.ofNat c.aw i.length ∧ h'.wp = h.wp + BitVec.ofNat c.aw i.output

/-- The frame of every token, stopped or not: the host's operands never change; memory changes only at the token's own output
addresses, and nowhere at all when it is stopped; `b`, `i` and `buf` change only in mode `LZ_SHADOW`; the record of accesses
only grows. -/
def Obligations.TokenFrame : Prop :=
  ∀ (c : Config) (h : Block c) (i : Instr), ∃ h' : Block c, exec i ⟨c, h⟩ = .next ⟨c, h'⟩ ∧
    h.SameOperands h' ∧ h'.cmd = h.cmd ∧
    OnlyChanges h.byteAt h'.byteAt h.outAddr i.output ∧
    (h.status = .running → h'.status = .fault → ∀ a, h'.byteAt a = h.byteAt a) ∧
    (i.mode ≠ .lzShadow → h.SameShadow h') ∧
    (h.status = .running → h'.status = .fault → h.SameShadow h') ∧
    ∃ accesses, h'.trace = h.trace ++ accesses

/-- 70_reset_and_hazards.md R161: the accesses of a step that is not stopped, by token. -/
def Obligations.AccessesPerToken : Prop :=
  ∀ (c : Config) (h h' : Block c) (mode : Mode) (i : Instr), h.status = .running → c.decoder h.mode = some mode →
    decodeTag mode h.tagByte = i → step ⟨c, h⟩ = .next ⟨c, h'⟩ → h'.status ≠ .fault →
    ∃ accesses, h'.trace = h.trace ++ accesses ∧
      (srcReads accesses).length = i.length ∧
      (dstWrites accesses).length = i.output ∧
      (dstReads accesses).length = dstReadCount i ∧
      (bufReads accesses).length = bufReadCount i ∧
      (bufWrites accesses).length = bufWriteCount i

/-- 20_memory.md R47: the kinds of access by mode, of any step. -/
def Obligations.AccessKindsFollowMode : Prop :=
  ∀ (c : Config) (h h' : Block c), step ⟨c, h⟩ = .next ⟨c, h'⟩ →
    ∃ accesses, h'.trace = h.trace ++ accesses ∧
      (h.mode ≠ Mode.lzDirect.code → dstReads accesses = []) ∧
      (h.mode ≠ Mode.lzShadow.code → bufReads accesses = [] ∧ bufWrites accesses = [])

/-! ### The hardened block -/

/-- 60_exceptions.md R124 to R127 for the tokens without a distance byte: the first failing check raises its cause, which writes
`CAUSE`, `WPOS` and `STATUS` and nothing else. -/
def Obligations.LengthChecksRaise : Prop :=
  ∀ (c : Config) (h : Block c) (i : Instr) (cause : Cause), c.harden = true →
    (∃ x, i = .lzdLit x ∨ i = .lzsLit x ∨ i = .rleRun x ∨ i = .rleLit x ∨ ∃ y, i = .rleComb x y) →
    h.lengthsFailure i.length i.output = some cause →
    exec i ⟨c, h⟩ = .next ⟨c, { h with cause := cause.code, wpos := h.wp, status := .fault }⟩

/-- 60_exceptions.md R124 to R127 for the match tokens: a source overrun is raised before the distance byte is read; else the
byte is read into `dist`, and the first failing check of the rest raises its cause. That in `FAULT` `dist` holds the byte read and
`n` is as it was is the model's reading (log 17, DEDUCED). -/
def Obligations.MatchChecksRaise : Prop :=
  ∀ (c : Config) (h : Block c) (i : Instr) (length : Byte), c.harden = true →
    (i = .lzdMatch length ∨ i = .lzsMatch length) →
    (h.srcLen.toNat < h.sp.toNat + 2 →
      exec i ⟨c, h⟩ = .next ⟨c, { h with cause := Cause.srcOverrun.code, wpos := h.wp, status := .fault }⟩) ∧
    (∀ cause, h.sp.toNat + 2 ≤ h.srcLen.toNat → h.matchFailure length.toNat = some cause →
      exec i ⟨c, h⟩ = .next ⟨c, { h with dist := h.secondByte, trace := h.trace ++ [.srcRead (h.sp + 1)],
                                         cause := cause.code, wpos := h.wp, status := .fault }⟩)

/-- 60_exceptions.md R124, before the fetch: at `sp >= SRC_LEN` the step raises `SRC_OVERRUN` (code 2) and reads nothing. -/
def Obligations.FetchPastSourceRaises : Prop :=
  ∀ (c : Config) (h : Block c), c.harden = true → h.status = .running → (c.decoder h.mode).isSome = true →
    h.srcLen.toNat ≤ h.sp.toNat →
    step ⟨c, h⟩ = .next ⟨c, { h with cause := 2, wpos := h.wp, status := .fault }⟩

/-- 60_exceptions.md R126 and 10_state.md R13, R15: the numeric codes. -/
def Obligations.RegisterCodes : Prop :=
  [Cause.backrefUnderflow, .dstOverflow, .srcOverrun, .zeroDistance].map Cause.code = [0, 1, 2, 3] ∧
  [Status.idle, .running, .done, .fault].map Status.code = [0, 1, 2, 3] ∧
  [Mode.lzDirect, .lzShadow, .rle].map Mode.code = [0, 1, 2] ∧
  [0, 1, 2, 3].map Mode.ofCode = [some .lzDirect, some .lzShadow, some .rle, none]

/-- 60_exceptions.md R120: without `HARDEN` every step of a call with a decoder (which R14 sees to) has a next state, and none
enters `FAULT`, whatever the tag, the operands, the addresses. -/
def Obligations.NoFaultWithoutHarden : Prop :=
  ∀ (c : Config) (h : Block c), c.harden = false → h.HasDecoder → h.status ≠ .fault →
    ∃ h' : Block c, step ⟨c, h⟩ = .next ⟨c, h'⟩ ∧ h'.status ≠ .fault

/-- 60_exceptions.md R123: a step of the hardened block that raises nothing is the step of the original block: the same
registers, memory and accesses. -/
def Obligations.HardenedAgreesWithOriginal : Prop :=
  ∀ (c : Config) (h h' : Block c), h.status ≠ .fault → step ⟨c, h⟩ = .next ⟨c, h'⟩ → h'.status ≠ .fault →
    step ⟨Config.soft c, h.soft⟩ = .next ⟨Config.soft c, h'.soft⟩

/-- 70_reset_and_hazards.md R156 with 60_exceptions.md R124: with `HARDEN` every call ends, after at most `SRC_LEN + 1` steps. -/
def Obligations.HardenedCallEnds : Prop :=
  ∀ (c : Config) (h : Block c), c.harden = true → h.status = .running → (c.decoder h.mode).isSome = true →
    ∃ n h', n ≤ h.srcLen.toNat + 1 ∧ Sys2Proof.core.run n ⟨c, h⟩ = .next (⟨c, h'⟩ : State) ∧
      (h'.status = .done ∨ h'.status = .fault)

/-! ### Invariants -/

/-- Every move of engine and host keeps memory in its canonical form, inside the address space (20_memory.md R40). -/
def Obligations.MovesKeepMemoryOk : Prop :=
  ∀ s t : State, Moves s t → s.block.MemoryOk → t.block.MemoryOk

/-- 20_memory.md R49 and R50: every move of engine and host keeps the exactness of accesses. -/
def Obligations.MovesKeepExactAccess : Prop :=
  ∀ s t : State, Moves s t → s.block.ExactAccess → t.block.ExactAccess

/-- 41_lz_shadow.md R94: every move of engine and host keeps the mirror invariant. -/
def Obligations.MovesKeepMirror : Prop :=
  ∀ s t : State, Moves s t → s.block.Mirrors → t.block.Mirrors

/-- 70_reset_and_hazards.md R142 and 20_memory.md R48: every step keeps the output in the destination. (The host may use the
regions again after the call, so this is about engine steps.) -/
def Obligations.StepsKeepOutput : Prop :=
  ∀ s t : State, step s = .next t → s.block.ExactAccess → s.block.HoldsOutput → t.block.HoldsOutput

/-- 60_exceptions.md R123: every move of engine and host keeps the cursors inside `SRC_LEN` and `DST_LEN`, so the checks R124
makes of a terminator hold (log 16). -/
def Obligations.MovesKeepWithinLengths : Prop :=
  ∀ s t : State, Moves s t → s.block.WithinLengths → t.block.WithinLengths

/-- 10_state.md R14 and R15: every move keeps "a call in progress has a decoder" and "`FAULT` needs `HARDEN`". -/
def Obligations.MovesKeepLegalStatus : Prop :=
  ∀ s t : State, Moves s t → s.block.HasDecoder → s.block.FaultNeedsHarden →
    t.block.HasDecoder ∧ t.block.FaultNeedsHarden

/-- The state after reset of any instance has every invariant above. -/
def Obligations.ResetHasInvariants : Prop :=
  ∀ c : Config, (State.resetOf c).block.MemoryOk ∧ (State.resetOf c).block.ExactAccess ∧
    (State.resetOf c).block.Mirrors ∧ (State.resetOf c).block.HoldsOutput ∧ (State.resetOf c).block.WithinLengths ∧
    (State.resetOf c).block.HasDecoder ∧ (State.resetOf c).block.FaultNeedsHarden

/-- No state that engine and host reach from reset stops the engine: no trap and no abort in any instance, on any stream. -/
def Obligations.NoReachableStateStops : Prop :=
  ∀ s : State, Reachable s → s.Safe

/-- No move changes the configuration of the instance. -/
def Obligations.MovesKeepConfig : Prop :=
  ∀ s t : State, Moves s t → t.cfg = s.cfg

/-! ### The two LZ decoders -/

/-- START in mode `LZ_DIRECT` and START in mode `LZ_SHADOW` on the same operands and memory begin the same call. -/
def Obligations.StartBeginsSameCall : Prop :=
  ∀ (c : Config) (h : Block c),
    Block.SameCall (enterCall { h with mode := Mode.lzDirect.code }) (enterCall { h with mode := Mode.lzShadow.code })

/-- 41_lz_shadow.md R95, one token: on a well-formed token the two LZ decoders take the same step: the same source reads, the
same destination writes, the same cursors and results. -/
def Obligations.ShadowStepAgreesWithDirect : Prop :=
  ∀ (c : Config) (hd hs : Block c), c.hasLzDirect = true → c.hasLzShadow = true → hd.SameCall hs →
    (hd.status = .running → hd.TokenWellFormed) →
    ∃ hd' hs' : Block c, step ⟨c, hd⟩ = .next ⟨c, hd'⟩ ∧ step ⟨c, hs⟩ = .next ⟨c, hs'⟩ ∧ hd'.SameCall hs'

/-- 41_lz_shadow.md R95, the whole call: on a well-formed stream the two LZ decoders make the same source reads and destination
writes at every point and end with the same `RESULT` and `WPOS`. -/
def Obligations.ShadowCallAgreesWithDirect : Prop :=
  ∀ (c : Config) (hd hs : Block c), c.hasLzDirect = true → c.hasLzShadow = true → hd.SameCall hs →
    (∀ (n : Nat) (g : Block c), Sys2Proof.core.run n ⟨c, hd⟩ = .next (⟨c, g⟩ : State) → g.status = .running →
      g.TokenWellFormed) →
    ∀ n : Nat, ∃ hd' hs' : Block c, Sys2Proof.core.run n ⟨c, hd⟩ = .next (⟨c, hd'⟩ : State) ∧
      Sys2Proof.core.run n ⟨c, hs⟩ = .next (⟨c, hs'⟩ : State) ∧ hd'.SameCall hs'

/-- 30_encoding.md R71 with 45_encoder_reference.md R118: every stream of the reference encoder is canonical: literals of 1 to 127
bytes, matches of length 4 to 127 at a distance of 1 to 255 that reaches no further back than the output before it, one
terminator, which is the last byte and the only tag `0x00`. -/
def Obligations.EncoderStreamsAreCanonical : Prop :=
  ∀ source : List Byte, CanonicalFrom 0 (RefEncoder.compress source)

/-- 30_encoding.md R72 of the reference encoder's streams: in either LZ mode, every token that a call on `compress(s)` meets is
well-formed. So these streams meet the premise of `ShadowCallAgreesWithDirect`. -/
def Obligations.EncoderTokensAreWellFormed : Prop :=
  ∀ (c : Config) (h : Block c) (mode : Mode) (source : List Byte), mode ≠ .rle →
    h.BeginsOn mode source (RefEncoder.compress source) →
    ∀ (n : Nat) (g : Block c), Sys2Proof.core.run n ⟨c, h⟩ = .next (⟨c, g⟩ : State) → g.status = .running →
      g.TokenWellFormed

/-- 40_lz_direct.md R84, the round trip: a call in mode `LZ_DIRECT` on the reference encoder's stream for `s` ends with `s` in
the destination, `RESULT` the stream's length and `WPOS` the length of `s`, where the regions do not overlap or wrap
(70_reset_and_hazards.md R157) and, with `HARDEN`, the lengths suffice (`Block.BeginsOn`). -/
def Obligations.DirectRoundTrip : Prop :=
  ∀ (c : Config) (h : Block c) (source stream : List Byte), stream = RefEncoder.compress source →
    h.BeginsOn .lzDirect source stream → h.EndsWith source stream

/-- 41_lz_shadow.md R95, the testable property, with 40_lz_direct.md R84: a call in mode `LZ_SHADOW` on the reference encoder's
stream for `s` ends with the same output and results as the call in mode `LZ_DIRECT` (`DirectRoundTrip`): `s`, the stream's
length, the length of `s`. It holds whatever the shadow buffer and its cursor held. -/
def Obligations.ShadowRoundTrip : Prop :=
  ∀ (c : Config) (h : Block c) (source stream : List Byte), stream = RefEncoder.compress source →
    h.BeginsOn .lzShadow source stream → h.EndsWith source stream

/-! ### Reset and the host -/

/-- 10_state.md R32 and 00_scope.md R5 to R7: after hardware reset `STATUS` is `IDLE`; the default instance has `AW = 16`,
no `HARDEN`, all three decoders. That no shadow entry is written is the model's rendering (log 2, DESIGN CHOICE) of what R28 and
R32 call unspecified. (The other reset values are the model's choice too, log 2, and not stated.) -/
def Obligations.ResetStateAsStated : Prop :=
  (∀ c : Config, (State.resetOf c).block.status = .idle ∧ (State.resetOf c).cfg = c ∧
    ∀ j, (State.resetOf c).block.entry j = none) ∧
  State.reset.cfg.aw = 16 ∧ State.reset.cfg.harden = false ∧ State.reset.cfg.hasLzDirect = true ∧
  State.reset.cfg.hasLzShadow = true ∧ State.reset.cfg.hasRle = true

/-- 70_reset_and_hazards.md R140: hardware reset, in any state, leaves `STATUS = IDLE` and memory as it was. That
every shadow entry is unwritten is the model's rendering of an unspecified entry (log 3, DESIGN CHOICE). -/
def Obligations.HardwareResetGoesIdle : Prop :=
  ∀ (c : Config) (h : Block c), ∃ h', hostAct .reset h = .next h' ∧ h'.status = .idle ∧ h'.mem = h.mem ∧
    (∀ j, h'.entry j = none)

/-- 10_state.md R14 and 70_reset_and_hazards.md R141: a START is accepted unless `RUNNING` or without a decoder; accepted, it
clears the cursors and the shadow buffer and enters `RUNNING` on the same operands and memory; otherwise it changes nothing. -/
def Obligations.StartCommand : Prop :=
  ∀ (c : Config) (h : Block c),
    (h.status ≠ .running → (c.decoder h.mode).isSome = true →
      ∃ h', hostAct .start h = .next h' ∧ h'.sp = 0 ∧ h'.wp = 0 ∧ h'.b = 0 ∧ (∀ j, h'.entry j = none) ∧
        h'.status = .running ∧ h.SameOperands h' ∧ h'.mem = h.mem) ∧
    (h.status = .running → hostAct .start h = .next h) ∧
    (c.decoder h.mode = none → hostAct .start h = .next h)

/-- 10_state.md R33: host writes to the operand registers are ignored while `RUNNING`. -/
def Obligations.OperandWritesIgnoredInCall : Prop :=
  ∀ (c : Config) (h : Block c) (v : c.Word) (m : BitVec 2), h.status = .running →
    hostAct (.writeSrc v) h = .next h ∧ hostAct (.writeDst v) h = .next h ∧ hostAct (.writeMode m) h = .next h ∧
    (c.harden = true → hostAct (.writeSrcLen v) h = .next h ∧ hostAct (.writeDstLen v) h = .next h)

/-- 10_state.md R11 to R13 and R18: outside a call a host write sets its register and nothing else. Without `HARDEN` the two
lengths do not exist (R18); that a write of one is then refused as `registerAbsent` is the model's choice (log 21, DESIGN
CHOICE). -/
def Obligations.OperandWritesOutsideCall : Prop :=
  ∀ (c : Config) (h : Block c) (v : c.Word) (m : BitVec 2), h.status ≠ .running →
    hostAct (.writeSrc v) h = .next { h with src := v } ∧ hostAct (.writeDst v) h = .next { h with dst := v } ∧
    hostAct (.writeMode m) h = .next { h with mode := m } ∧
    (c.harden = true → hostAct (.writeSrcLen v) h = .next { h with srcLen := v } ∧
      hostAct (.writeDstLen v) h = .next { h with dstLen := v }) ∧
    (c.harden = false → hostAct (.writeSrcLen v) h = .refused .registerAbsent ∧
      hostAct (.writeDstLen v) h = .refused .registerAbsent)

/-- 10_state.md R10 to R18: what the host reads. `STATUS`, `SRC`, `DST`, `MODE` always give what they hold, `RESULT` in `DONE`,
`WPOS` in `DONE` and `FAULT`; in a hardened instance `SRC_LEN` and `DST_LEN` always, `CAUSE` in `FAULT`. Such a read changes
nothing. The model's own part: an operand may be read during a call too (log 28, DEDUCED); a register that is not valid gives a
fresh free value, of which nothing is known, and only `draws` changes (log 8, DESIGN CHOICE); without `HARDEN` a read of
`SRC_LEN`, `DST_LEN` or `CAUSE` is refused as `registerAbsent` (log 21, DESIGN CHOICE). -/
def Obligations.HostReadsPublished : Prop :=
  ∀ (c : Config) (h : Block c),
    hostRead .status h = .ok (h.status.code, h) ∧
    hostRead .src h = .ok (h.src, h) ∧ hostRead .dst h = .ok (h.dst, h) ∧ hostRead .mode h = .ok (h.mode, h) ∧
    (h.status = .done → hostRead .result h = .ok (h.result, h)) ∧
    (h.status = .done ∨ h.status = .fault → hostRead .wpos h = .ok (h.wpos, h)) ∧
    (c.harden = true → hostRead .srcLen h = .ok (h.srcLen, h) ∧ hostRead .dstLen h = .ok (h.dstLen, h) ∧
      (h.status = .fault → hostRead .cause h = .ok (h.cause, h))) ∧
    (c.harden = false → hostRead .srcLen h = .error .registerAbsent ∧ hostRead .dstLen h = .error .registerAbsent ∧
      hostRead .cause h = .error .registerAbsent) ∧
    (h.status ≠ .done →
      hostRead .result h = .ok (Config.freeWord c.aw h.draws, { h with draws := h.draws + 1 })) ∧
    (h.status ≠ .done → h.status ≠ .fault →
      hostRead .wpos h = .ok (Config.freeWord c.aw h.draws, { h with draws := h.draws + 1 })) ∧
    (h.status ≠ .fault → c.harden = true →
      hostRead .cause h = .ok (Config.freeWord 2 h.draws, { h with draws := h.draws + 1 }))

/-- 70_reset_and_hazards.md R143: after a call, a host that writes `SRC +_AW RESULT` to `SRC` and issues START begins at the byte
just past the terminator. -/
def Obligations.ChainedCallStartsPastTerminator : Prop :=
  ∀ (c : Config) (h h1 h2 : Block c), h.status = .done → h.result = h.sp → (c.decoder h.mode).isSome = true →
    hostAct (.writeSrc (h.src + h.result)) h = .next h1 → hostAct .start h1 = .next h2 →
    h2.status = .running ∧ h2.srcAddr h2.sp = h.srcAddr h.sp ∧ h2.tagByte = h.byteAt (h.src + h.result)

/-- The model's choice (log 14): the host does not touch memory during a call; outside a call its store is a store. -/
def Obligations.HostMemoryMoves : Prop :=
  ∀ (c : Config) (h : Block c) (a : c.Word) (v : Byte),
    (h.status = .running → hostAct (.poke a v) h = .refused .hostDuringCall) ∧
    (h.status ≠ .running → ∃ h', hostAct (.poke a v) h = .next h' ∧ h'.byteAt a = v ∧
      (∀ a', a' ≠ a → h'.byteAt a' = h.byteAt a') ∧ h'.status = h.status ∧ h.SameOperands h')
end

