-- ==== Sys2Proof/Laws/State.lean ====
section
/-! SUPPORT. The small lemmas of the state's updates: for each operation that writes the block, what each field holds after it.
All are true by unfolding; later proofs rewrite with them and never unfold a record update. -/

namespace Sys2Proof.Machine

variable {c : Config}

@[simp] theorem onBlock_cfg (s : State) (f : Block s.cfg → Block s.cfg) : (s.onBlock f).cfg = s.cfg := rfl
@[simp] theorem onBlock_mk (h : Block c) (f : Block c → Block c) : State.onBlock ⟨c, h⟩ f = ⟨c, f h⟩ := rfl
@[simp] theorem srcRead_fst (off : c.Word) (h : Block c) : (srcRead off h).1 = h.byteAt (h.srcAddr off) := rfl
@[simp] theorem srcRead_snd (off : c.Word) (h : Block c) : (srcRead off h).2 = h.record (.srcRead off) := rfl
@[simp] theorem dstRead_fst (off : c.Word) (h : Block c) : (dstRead off h).1 = h.byteAt (h.dstAddr off) := rfl
@[simp] theorem dstRead_snd (off : c.Word) (h : Block c) : (dstRead off h).2 = h.record (.dstRead off) := rfl

/-! `setByte` -/
@[simp] theorem setByte_src (h : Block c) (a : c.Word) (v : Byte) : (h.setByte a v).src = h.src := rfl
@[simp] theorem setByte_dst (h : Block c) (a : c.Word) (v : Byte) : (h.setByte a v).dst = h.dst := rfl
@[simp] theorem setByte_mode (h : Block c) (a : c.Word) (v : Byte) : (h.setByte a v).mode = h.mode := rfl
@[simp] theorem setByte_status (h : Block c) (a : c.Word) (v : Byte) : (h.setByte a v).status = h.status := rfl
@[simp] theorem setByte_result (h : Block c) (a : c.Word) (v : Byte) : (h.setByte a v).result = h.result := rfl
@[simp] theorem setByte_wpos (h : Block c) (a : c.Word) (v : Byte) : (h.setByte a v).wpos = h.wpos := rfl
@[simp] theorem setByte_srcLen (h : Block c) (a : c.Word) (v : Byte) : (h.setByte a v).srcLen = h.srcLen := rfl
@[simp] theorem setByte_dstLen (h : Block c) (a : c.Word) (v : Byte) : (h.setByte a v).dstLen = h.dstLen := rfl
@[simp] theorem setByte_cause (h : Block c) (a : c.Word) (v : Byte) : (h.setByte a v).cause = h.cause := rfl
@[simp] theorem setByte_sp (h : Block c) (a : c.Word) (v : Byte) : (h.setByte a v).sp = h.sp := rfl
@[simp] theorem setByte_wp (h : Block c) (a : c.Word) (v : Byte) : (h.setByte a v).wp = h.wp := rfl
@[simp] theorem setByte_cmd (h : Block c) (a : c.Word) (v : Byte) : (h.setByte a v).cmd = h.cmd := rfl
@[simp] theorem setByte_n (h : Block c) (a : c.Word) (v : Byte) : (h.setByte a v).n = h.n := rfl
@[simp] theorem setByte_m (h : Block c) (a : c.Word) (v : Byte) : (h.setByte a v).m = h.m := rfl
@[simp] theorem setByte_dist (h : Block c) (a : c.Word) (v : Byte) : (h.setByte a v).dist = h.dist := rfl
@[simp] theorem setByte_fill (h : Block c) (a : c.Word) (v : Byte) : (h.setByte a v).fill = h.fill := rfl
@[simp] theorem setByte_k (h : Block c) (a : c.Word) (v : Byte) : (h.setByte a v).k = h.k := rfl
@[simp] theorem setByte_b (h : Block c) (a : c.Word) (v : Byte) : (h.setByte a v).b = h.b := rfl
@[simp] theorem setByte_i (h : Block c) (a : c.Word) (v : Byte) : (h.setByte a v).i = h.i := rfl
@[simp] theorem setByte_buf (h : Block c) (a : c.Word) (v : Byte) : (h.setByte a v).buf = h.buf := rfl
@[simp] theorem setByte_mem (h : Block c) (a : c.Word) (v : Byte) : (h.setByte a v).mem = Memory.store h.mem a.toNat v := rfl
@[simp] theorem setByte_trace (h : Block c) (a : c.Word) (v : Byte) : (h.setByte a v).trace = h.trace := rfl
@[simp] theorem setByte_draws (h : Block c) (a : c.Word) (v : Byte) : (h.setByte a v).draws = h.draws := rfl

/-! `record` -/
@[simp] theorem record_src (h : Block c) (e : Access c.aw) : (h.record e).src = h.src := rfl
@[simp] theorem record_dst (h : Block c) (e : Access c.aw) : (h.record e).dst = h.dst := rfl
@[simp] theorem record_mode (h : Block c) (e : Access c.aw) : (h.record e).mode = h.mode := rfl
@[simp] theorem record_status (h : Block c) (e : Access c.aw) : (h.record e).status = h.status := rfl
@[simp] theorem record_result (h : Block c) (e : Access c.aw) : (h.record e).result = h.result := rfl
@[simp] theorem record_wpos (h : Block c) (e : Access c.aw) : (h.record e).wpos = h.wpos := rfl
@[simp] theorem record_srcLen (h : Block c) (e : Access c.aw) : (h.record e).srcLen = h.srcLen := rfl
@[simp] theorem record_dstLen (h : Block c) (e : Access c.aw) : (h.record e).dstLen = h.dstLen := rfl
@[simp] theorem record_cause (h : Block c) (e : Access c.aw) : (h.record e).cause = h.cause := rfl
@[simp] theorem record_sp (h : Block c) (e : Access c.aw) : (h.record e).sp = h.sp := rfl
@[simp] theorem record_wp (h : Block c) (e : Access c.aw) : (h.record e).wp = h.wp := rfl
@[simp] theorem record_cmd (h : Block c) (e : Access c.aw) : (h.record e).cmd = h.cmd := rfl
@[simp] theorem record_n (h : Block c) (e : Access c.aw) : (h.record e).n = h.n := rfl
@[simp] theorem record_m (h : Block c) (e : Access c.aw) : (h.record e).m = h.m := rfl
@[simp] theorem record_dist (h : Block c) (e : Access c.aw) : (h.record e).dist = h.dist := rfl
@[simp] theorem record_fill (h : Block c) (e : Access c.aw) : (h.record e).fill = h.fill := rfl
@[simp] theorem record_k (h : Block c) (e : Access c.aw) : (h.record e).k = h.k := rfl
@[simp] theorem record_b (h : Block c) (e : Access c.aw) : (h.record e).b = h.b := rfl
@[simp] theorem record_i (h : Block c) (e : Access c.aw) : (h.record e).i = h.i := rfl
@[simp] theorem record_buf (h : Block c) (e : Access c.aw) : (h.record e).buf = h.buf := rfl
@[simp] theorem record_mem (h : Block c) (e : Access c.aw) : (h.record e).mem = h.mem := rfl
@[simp] theorem record_trace (h : Block c) (e : Access c.aw) : (h.record e).trace = h.trace ++ [e] := rfl
@[simp] theorem record_draws (h : Block c) (e : Access c.aw) : (h.record e).draws = h.draws := rfl

/-! `dstWrite` -/
@[simp] theorem dstWrite_src (h : Block c) (off : c.Word) (v : Byte) : (dstWrite off v h).src = h.src := rfl
@[simp] theorem dstWrite_dst (h : Block c) (off : c.Word) (v : Byte) : (dstWrite off v h).dst = h.dst := rfl
@[simp] theorem dstWrite_mode (h : Block c) (off : c.Word) (v : Byte) : (dstWrite off v h).mode = h.mode := rfl
@[simp] theorem dstWrite_status (h : Block c) (off : c.Word) (v : Byte) : (dstWrite off v h).status = h.status := rfl
@[simp] theorem dstWrite_result (h : Block c) (off : c.Word) (v : Byte) : (dstWrite off v h).result = h.result := rfl
@[simp] theorem dstWrite_wpos (h : Block c) (off : c.Word) (v : Byte) : (dstWrite off v h).wpos = h.wpos := rfl
@[simp] theorem dstWrite_srcLen (h : Block c) (off : c.Word) (v : Byte) : (dstWrite off v h).srcLen = h.srcLen := rfl
@[simp] theorem dstWrite_dstLen (h : Block c) (off : c.Word) (v : Byte) : (dstWrite off v h).dstLen = h.dstLen := rfl
@[simp] theorem dstWrite_cause (h : Block c) (off : c.Word) (v : Byte) : (dstWrite off v h).cause = h.cause := rfl
@[simp] theorem dstWrite_sp (h : Block c) (off : c.Word) (v : Byte) : (dstWrite off v h).sp = h.sp := rfl
@[simp] theorem dstWrite_wp (h : Block c) (off : c.Word) (v : Byte) : (dstWrite off v h).wp = h.wp := rfl
@[simp] theorem dstWrite_cmd (h : Block c) (off : c.Word) (v : Byte) : (dstWrite off v h).cmd = h.cmd := rfl
@[simp] theorem dstWrite_n (h : Block c) (off : c.Word) (v : Byte) : (dstWrite off v h).n = h.n := rfl
@[simp] theorem dstWrite_m (h : Block c) (off : c.Word) (v : Byte) : (dstWrite off v h).m = h.m := rfl
@[simp] theorem dstWrite_dist (h : Block c) (off : c.Word) (v : Byte) : (dstWrite off v h).dist = h.dist := rfl
@[simp] theorem dstWrite_fill (h : Block c) (off : c.Word) (v : Byte) : (dstWrite off v h).fill = h.fill := rfl
@[simp] theorem dstWrite_k (h : Block c) (off : c.Word) (v : Byte) : (dstWrite off v h).k = h.k := rfl
@[simp] theorem dstWrite_b (h : Block c) (off : c.Word) (v : Byte) : (dstWrite off v h).b = h.b := rfl
@[simp] theorem dstWrite_i (h : Block c) (off : c.Word) (v : Byte) : (dstWrite off v h).i = h.i := rfl
@[simp] theorem dstWrite_buf (h : Block c) (off : c.Word) (v : Byte) : (dstWrite off v h).buf = h.buf := rfl
@[simp] theorem dstWrite_mem (h : Block c) (off : c.Word) (v : Byte) : (dstWrite off v h).mem = Memory.store h.mem (h.dst + off).toNat v := rfl
@[simp] theorem dstWrite_trace (h : Block c) (off : c.Word) (v : Byte) : (dstWrite off v h).trace = h.trace ++ [.dstWrite off v] := rfl
@[simp] theorem dstWrite_draws (h : Block c) (off : c.Word) (v : Byte) : (dstWrite off v h).draws = h.draws := rfl

/-! `bufWrite` -/
@[simp] theorem bufWrite_src (h : Block c) (j v : Byte) : (bufWrite j v h).src = h.src := rfl
@[simp] theorem bufWrite_dst (h : Block c) (j v : Byte) : (bufWrite j v h).dst = h.dst := rfl
@[simp] theorem bufWrite_mode (h : Block c) (j v : Byte) : (bufWrite j v h).mode = h.mode := rfl
@[simp] theorem bufWrite_status (h : Block c) (j v : Byte) : (bufWrite j v h).status = h.status := rfl
@[simp] theorem bufWrite_result (h : Block c) (j v : Byte) : (bufWrite j v h).result = h.result := rfl
@[simp] theorem bufWrite_wpos (h : Block c) (j v : Byte) : (bufWrite j v h).wpos = h.wpos := rfl
@[simp] theorem bufWrite_srcLen (h : Block c) (j v : Byte) : (bufWrite j v h).srcLen = h.srcLen := rfl
@[simp] theorem bufWrite_dstLen (h : Block c) (j v : Byte) : (bufWrite j v h).dstLen = h.dstLen := rfl
@[simp] theorem bufWrite_cause (h : Block c) (j v : Byte) : (bufWrite j v h).cause = h.cause := rfl
@[simp] theorem bufWrite_sp (h : Block c) (j v : Byte) : (bufWrite j v h).sp = h.sp := rfl
@[simp] theorem bufWrite_wp (h : Block c) (j v : Byte) : (bufWrite j v h).wp = h.wp := rfl
@[simp] theorem bufWrite_cmd (h : Block c) (j v : Byte) : (bufWrite j v h).cmd = h.cmd := rfl
@[simp] theorem bufWrite_n (h : Block c) (j v : Byte) : (bufWrite j v h).n = h.n := rfl
@[simp] theorem bufWrite_m (h : Block c) (j v : Byte) : (bufWrite j v h).m = h.m := rfl
@[simp] theorem bufWrite_dist (h : Block c) (j v : Byte) : (bufWrite j v h).dist = h.dist := rfl
@[simp] theorem bufWrite_fill (h : Block c) (j v : Byte) : (bufWrite j v h).fill = h.fill := rfl
@[simp] theorem bufWrite_k (h : Block c) (j v : Byte) : (bufWrite j v h).k = h.k := rfl
@[simp] theorem bufWrite_b (h : Block c) (j v : Byte) : (bufWrite j v h).b = h.b := rfl
@[simp] theorem bufWrite_i (h : Block c) (j v : Byte) : (bufWrite j v h).i = h.i := rfl
@[simp] theorem bufWrite_buf (h : Block c) (j v : Byte) : (bufWrite j v h).buf = h.buf.set j.toNat (some v) j.isLt := rfl
@[simp] theorem bufWrite_mem (h : Block c) (j v : Byte) : (bufWrite j v h).mem = h.mem := rfl
@[simp] theorem bufWrite_trace (h : Block c) (j v : Byte) : (bufWrite j v h).trace = h.trace ++ [.bufWrite j v] := rfl
@[simp] theorem bufWrite_draws (h : Block c) (j v : Byte) : (bufWrite j v h).draws = h.draws := rfl

/-! `readDistance` -/
@[simp] theorem readDistance_src (h : Block c) : (readDistance h).src = h.src := rfl
@[simp] theorem readDistance_dst (h : Block c) : (readDistance h).dst = h.dst := rfl
@[simp] theorem readDistance_mode (h : Block c) : (readDistance h).mode = h.mode := rfl
@[simp] theorem readDistance_status (h : Block c) : (readDistance h).status = h.status := rfl
@[simp] theorem readDistance_result (h : Block c) : (readDistance h).result = h.result := rfl
@[simp] theorem readDistance_wpos (h : Block c) : (readDistance h).wpos = h.wpos := rfl
@[simp] theorem readDistance_srcLen (h : Block c) : (readDistance h).srcLen = h.srcLen := rfl
@[simp] theorem readDistance_dstLen (h : Block c) : (readDistance h).dstLen = h.dstLen := rfl
@[simp] theorem readDistance_cause (h : Block c) : (readDistance h).cause = h.cause := rfl
@[simp] theorem readDistance_sp (h : Block c) : (readDistance h).sp = h.sp := rfl
@[simp] theorem readDistance_wp (h : Block c) : (readDistance h).wp = h.wp := rfl
@[simp] theorem readDistance_cmd (h : Block c) : (readDistance h).cmd = h.cmd := rfl
@[simp] theorem readDistance_n (h : Block c) : (readDistance h).n = h.n := rfl
@[simp] theorem readDistance_m (h : Block c) : (readDistance h).m = h.m := rfl
@[simp] theorem readDistance_dist (h : Block c) : (readDistance h).dist = h.secondByte := rfl
@[simp] theorem readDistance_fill (h : Block c) : (readDistance h).fill = h.fill := rfl
@[simp] theorem readDistance_k (h : Block c) : (readDistance h).k = h.k := rfl
@[simp] theorem readDistance_b (h : Block c) : (readDistance h).b = h.b := rfl
@[simp] theorem readDistance_i (h : Block c) : (readDistance h).i = h.i := rfl
@[simp] theorem readDistance_buf (h : Block c) : (readDistance h).buf = h.buf := rfl
@[simp] theorem readDistance_mem (h : Block c) : (readDistance h).mem = h.mem := rfl
@[simp] theorem readDistance_trace (h : Block c) : (readDistance h).trace = h.trace ++ [.srcRead (h.sp + 1)] := rfl
@[simp] theorem readDistance_draws (h : Block c) : (readDistance h).draws = h.draws := rfl

/-! `readFill` -/
@[simp] theorem readFill_src (h : Block c) : (readFill h).src = h.src := rfl
@[simp] theorem readFill_dst (h : Block c) : (readFill h).dst = h.dst := rfl
@[simp] theorem readFill_mode (h : Block c) : (readFill h).mode = h.mode := rfl
@[simp] theorem readFill_status (h : Block c) : (readFill h).status = h.status := rfl
@[simp] theorem readFill_result (h : Block c) : (readFill h).result = h.result := rfl
@[simp] theorem readFill_wpos (h : Block c) : (readFill h).wpos = h.wpos := rfl
@[simp] theorem readFill_srcLen (h : Block c) : (readFill h).srcLen = h.srcLen := rfl
@[simp] theorem readFill_dstLen (h : Block c) : (readFill h).dstLen = h.dstLen := rfl
@[simp] theorem readFill_cause (h : Block c) : (readFill h).cause = h.cause := rfl
@[simp] theorem readFill_sp (h : Block c) : (readFill h).sp = h.sp := rfl
@[simp] theorem readFill_wp (h : Block c) : (readFill h).wp = h.wp := rfl
@[simp] theorem readFill_cmd (h : Block c) : (readFill h).cmd = h.cmd := rfl
@[simp] theorem readFill_n (h : Block c) : (readFill h).n = h.n := rfl
@[simp] theorem readFill_m (h : Block c) : (readFill h).m = h.m := rfl
@[simp] theorem readFill_dist (h : Block c) : (readFill h).dist = h.dist := rfl
@[simp] theorem readFill_fill (h : Block c) : (readFill h).fill = h.secondByte := rfl
@[simp] theorem readFill_k (h : Block c) : (readFill h).k = h.k := rfl
@[simp] theorem readFill_b (h : Block c) : (readFill h).b = h.b := rfl
@[simp] theorem readFill_i (h : Block c) : (readFill h).i = h.i := rfl
@[simp] theorem readFill_buf (h : Block c) : (readFill h).buf = h.buf := rfl
@[simp] theorem readFill_mem (h : Block c) : (readFill h).mem = h.mem := rfl
@[simp] theorem readFill_trace (h : Block c) : (readFill h).trace = h.trace ++ [.srcRead (h.sp + 1)] := rfl
@[simp] theorem readFill_draws (h : Block c) : (readFill h).draws = h.draws := rfl

/-! `fetchTag` -/
@[simp] theorem fetchTag_src (h : Block c) : (fetchTag h).src = h.src := rfl
@[simp] theorem fetchTag_dst (h : Block c) : (fetchTag h).dst = h.dst := rfl
@[simp] theorem fetchTag_mode (h : Block c) : (fetchTag h).mode = h.mode := rfl
@[simp] theorem fetchTag_status (h : Block c) : (fetchTag h).status = h.status := rfl
@[simp] theorem fetchTag_result (h : Block c) : (fetchTag h).result = h.result := rfl
@[simp] theorem fetchTag_wpos (h : Block c) : (fetchTag h).wpos = h.wpos := rfl
@[simp] theorem fetchTag_srcLen (h : Block c) : (fetchTag h).srcLen = h.srcLen := rfl
@[simp] theorem fetchTag_dstLen (h : Block c) : (fetchTag h).dstLen = h.dstLen := rfl
@[simp] theorem fetchTag_cause (h : Block c) : (fetchTag h).cause = h.cause := rfl
@[simp] theorem fetchTag_sp (h : Block c) : (fetchTag h).sp = h.sp := rfl
@[simp] theorem fetchTag_wp (h : Block c) : (fetchTag h).wp = h.wp := rfl
@[simp] theorem fetchTag_cmd (h : Block c) : (fetchTag h).cmd = h.tagByte := rfl
@[simp] theorem fetchTag_n (h : Block c) : (fetchTag h).n = h.n := rfl
@[simp] theorem fetchTag_m (h : Block c) : (fetchTag h).m = h.m := rfl
@[simp] theorem fetchTag_dist (h : Block c) : (fetchTag h).dist = h.dist := rfl
@[simp] theorem fetchTag_fill (h : Block c) : (fetchTag h).fill = h.fill := rfl
@[simp] theorem fetchTag_k (h : Block c) : (fetchTag h).k = h.k := rfl
@[simp] theorem fetchTag_b (h : Block c) : (fetchTag h).b = h.b := rfl
@[simp] theorem fetchTag_i (h : Block c) : (fetchTag h).i = h.i := rfl
@[simp] theorem fetchTag_buf (h : Block c) : (fetchTag h).buf = h.buf := rfl
@[simp] theorem fetchTag_mem (h : Block c) : (fetchTag h).mem = h.mem := rfl
@[simp] theorem fetchTag_trace (h : Block c) : (fetchTag h).trace = h.trace ++ [.srcRead h.sp] := rfl
@[simp] theorem fetchTag_draws (h : Block c) : (fetchTag h).draws = h.draws := rfl

/-! `advance` -/
@[simp] theorem advance_src (h : Block c) (len out : c.Word) : (advance len out h).src = h.src := rfl
@[simp] theorem advance_dst (h : Block c) (len out : c.Word) : (advance len out h).dst = h.dst := rfl
@[simp] theorem advance_mode (h : Block c) (len out : c.Word) : (advance len out h).mode = h.mode := rfl
@[simp] theorem advance_status (h : Block c) (len out : c.Word) : (advance len out h).status = h.status := rfl
@[simp] theorem advance_result (h : Block c) (len out : c.Word) : (advance len out h).result = h.result := rfl
@[simp] theorem advance_wpos (h : Block c) (len out : c.Word) : (advance len out h).wpos = h.wpos := rfl
@[simp] theorem advance_srcLen (h : Block c) (len out : c.Word) : (advance len out h).srcLen = h.srcLen := rfl
@[simp] theorem advance_dstLen (h : Block c) (len out : c.Word) : (advance len out h).dstLen = h.dstLen := rfl
@[simp] theorem advance_cause (h : Block c) (len out : c.Word) : (advance len out h).cause = h.cause := rfl
@[simp] theorem advance_sp (h : Block c) (len out : c.Word) : (advance len out h).sp = h.sp + len := rfl
@[simp] theorem advance_wp (h : Block c) (len out : c.Word) : (advance len out h).wp = h.wp + out := rfl
@[simp] theorem advance_cmd (h : Block c) (len out : c.Word) : (advance len out h).cmd = h.cmd := rfl
@[simp] theorem advance_n (h : Block c) (len out : c.Word) : (advance len out h).n = h.n := rfl
@[simp] theorem advance_m (h : Block c) (len out : c.Word) : (advance len out h).m = h.m := rfl
@[simp] theorem advance_dist (h : Block c) (len out : c.Word) : (advance len out h).dist = h.dist := rfl
@[simp] theorem advance_fill (h : Block c) (len out : c.Word) : (advance len out h).fill = h.fill := rfl
@[simp] theorem advance_k (h : Block c) (len out : c.Word) : (advance len out h).k = h.k := rfl
@[simp] theorem advance_b (h : Block c) (len out : c.Word) : (advance len out h).b = h.b := rfl
@[simp] theorem advance_i (h : Block c) (len out : c.Word) : (advance len out h).i = h.i := rfl
@[simp] theorem advance_buf (h : Block c) (len out : c.Word) : (advance len out h).buf = h.buf := rfl
@[simp] theorem advance_mem (h : Block c) (len out : c.Word) : (advance len out h).mem = h.mem := rfl
@[simp] theorem advance_trace (h : Block c) (len out : c.Word) : (advance len out h).trace = h.trace := rfl
@[simp] theorem advance_draws (h : Block c) (len out : c.Word) : (advance len out h).draws = h.draws := rfl

/-! `finishCall` -/
@[simp] theorem finishCall_src (h : Block c) : (finishCall h).src = h.src := rfl
@[simp] theorem finishCall_dst (h : Block c) : (finishCall h).dst = h.dst := rfl
@[simp] theorem finishCall_mode (h : Block c) : (finishCall h).mode = h.mode := rfl
@[simp] theorem finishCall_status (h : Block c) : (finishCall h).status = .done := rfl
@[simp] theorem finishCall_result (h : Block c) : (finishCall h).result = h.sp + 1 := rfl
@[simp] theorem finishCall_wpos (h : Block c) : (finishCall h).wpos = h.wp := rfl
@[simp] theorem finishCall_srcLen (h : Block c) : (finishCall h).srcLen = h.srcLen := rfl
@[simp] theorem finishCall_dstLen (h : Block c) : (finishCall h).dstLen = h.dstLen := rfl
@[simp] theorem finishCall_cause (h : Block c) : (finishCall h).cause = h.cause := rfl
@[simp] theorem finishCall_sp (h : Block c) : (finishCall h).sp = h.sp + 1 := rfl
@[simp] theorem finishCall_wp (h : Block c) : (finishCall h).wp = h.wp := rfl
@[simp] theorem finishCall_cmd (h : Block c) : (finishCall h).cmd = h.cmd := rfl
@[simp] theorem finishCall_n (h : Block c) : (finishCall h).n = h.n := rfl
@[simp] theorem finishCall_m (h : Block c) : (finishCall h).m = h.m := rfl
@[simp] theorem finishCall_dist (h : Block c) : (finishCall h).dist = h.dist := rfl
@[simp] theorem finishCall_fill (h : Block c) : (finishCall h).fill = h.fill := rfl
@[simp] theorem finishCall_k (h : Block c) : (finishCall h).k = h.k := rfl
@[simp] theorem finishCall_b (h : Block c) : (finishCall h).b = h.b := rfl
@[simp] theorem finishCall_i (h : Block c) : (finishCall h).i = h.i := rfl
@[simp] theorem finishCall_buf (h : Block c) : (finishCall h).buf = h.buf := rfl
@[simp] theorem finishCall_mem (h : Block c) : (finishCall h).mem = h.mem := rfl
@[simp] theorem finishCall_trace (h : Block c) : (finishCall h).trace = h.trace := rfl
@[simp] theorem finishCall_draws (h : Block c) : (finishCall h).draws = h.draws := rfl

/-! `raiseMalformed` -/
@[simp] theorem raiseMalformed_src (h : Block c) (cause : Cause) : (raiseMalformed cause h).src = h.src := rfl
@[simp] theorem raiseMalformed_dst (h : Block c) (cause : Cause) : (raiseMalformed cause h).dst = h.dst := rfl
@[simp] theorem raiseMalformed_mode (h : Block c) (cause : Cause) : (raiseMalformed cause h).mode = h.mode := rfl
@[simp] theorem raiseMalformed_status (h : Block c) (cause : Cause) : (raiseMalformed cause h).status = .fault := rfl
@[simp] theorem raiseMalformed_result (h : Block c) (cause : Cause) : (raiseMalformed cause h).result = h.result := rfl
@[simp] theorem raiseMalformed_wpos (h : Block c) (cause : Cause) : (raiseMalformed cause h).wpos = h.wp := rfl
@[simp] theorem raiseMalformed_srcLen (h : Block c) (cause : Cause) : (raiseMalformed cause h).srcLen = h.srcLen := rfl
@[simp] theorem raiseMalformed_dstLen (h : Block c) (cause : Cause) : (raiseMalformed cause h).dstLen = h.dstLen := rfl
@[simp] theorem raiseMalformed_cause (h : Block c) (cause : Cause) : (raiseMalformed cause h).cause = cause.code := rfl
@[simp] theorem raiseMalformed_sp (h : Block c) (cause : Cause) : (raiseMalformed cause h).sp = h.sp := rfl
@[simp] theorem raiseMalformed_wp (h : Block c) (cause : Cause) : (raiseMalformed cause h).wp = h.wp := rfl
@[simp] theorem raiseMalformed_cmd (h : Block c) (cause : Cause) : (raiseMalformed cause h).cmd = h.cmd := rfl
@[simp] theorem raiseMalformed_n (h : Block c) (cause : Cause) : (raiseMalformed cause h).n = h.n := rfl
@[simp] theorem raiseMalformed_m (h : Block c) (cause : Cause) : (raiseMalformed cause h).m = h.m := rfl
@[simp] theorem raiseMalformed_dist (h : Block c) (cause : Cause) : (raiseMalformed cause h).dist = h.dist := rfl
@[simp] theorem raiseMalformed_fill (h : Block c) (cause : Cause) : (raiseMalformed cause h).fill = h.fill := rfl
@[simp] theorem raiseMalformed_k (h : Block c) (cause : Cause) : (raiseMalformed cause h).k = h.k := rfl
@[simp] theorem raiseMalformed_b (h : Block c) (cause : Cause) : (raiseMalformed cause h).b = h.b := rfl
@[simp] theorem raiseMalformed_i (h : Block c) (cause : Cause) : (raiseMalformed cause h).i = h.i := rfl
@[simp] theorem raiseMalformed_buf (h : Block c) (cause : Cause) : (raiseMalformed cause h).buf = h.buf := rfl
@[simp] theorem raiseMalformed_mem (h : Block c) (cause : Cause) : (raiseMalformed cause h).mem = h.mem := rfl
@[simp] theorem raiseMalformed_trace (h : Block c) (cause : Cause) : (raiseMalformed cause h).trace = h.trace := rfl
@[simp] theorem raiseMalformed_draws (h : Block c) (cause : Cause) : (raiseMalformed cause h).draws = h.draws := rfl

end Sys2Proof.Machine
end

