-- ==== Sys2Proof/Laws/Memory.lean ====
section
/-! SUPPORT. The laws of memory and of the shadow buffer: a read after a write, everything else unchanged, the canonical form
kept. -/

namespace Sys2Proof.Machine

variable {c : Config}

/-! ### The list of cells -/

@[simp] theorem lookup_store_same (m : Memory) (a : Nat) (v : Byte) : Memory.lookup (Memory.store m a v) a = some v := by
  induction m with
  | nil => simp [Memory.store, Memory.lookup]
  | cons cell rest ih =>
    obtain ⟨x, w⟩ := cell
    unfold Memory.store
    split_ifs with h1 h2
    · simp [Memory.lookup]
    · simp [Memory.lookup]
    · simp only [Memory.lookup, ih]
      rw [if_neg (Ne.symm h2)]

theorem lookup_store_other (m : Memory) {a a' : Nat} (v : Byte) (hne : a' ≠ a) :
    Memory.lookup (Memory.store m a v) a' = Memory.lookup m a' := by
  induction m with
  | nil => simp [Memory.store, Memory.lookup, Ne.symm hne]
  | cons cell rest ih =>
    obtain ⟨x, w⟩ := cell
    unfold Memory.store
    split_ifs with h1 h2
    · simp [Memory.lookup, Ne.symm hne]
    · subst h2; simp [Memory.lookup, Ne.symm hne]
    · simp [Memory.lookup, ih]

theorem store_risingAbove (m : Memory) (low a : Nat) (v : Byte) (hlow : low < a)
    (hm : Memory.risingAbove low m = true) : Memory.risingAbove low (Memory.store m a v) = true := by
  induction m generalizing low with
  | nil => simp [Memory.store, Memory.risingAbove, hlow]
  | cons cell rest ih =>
    obtain ⟨x, w⟩ := cell
    simp only [Memory.risingAbove, Bool.and_eq_true, decide_eq_true_eq] at hm
    unfold Memory.store
    split_ifs with h1 h2
    · simp [Memory.risingAbove, hlow, h1, hm.2]
    · subst h2; simp [Memory.risingAbove, hlow, hm.2]
    · simp only [Memory.risingAbove, Bool.and_eq_true, decide_eq_true_eq]
      exact ⟨hm.1, ih x (by omega) hm.2⟩

/-- A store keeps the canonical form. -/
theorem store_wf (m : Memory) (a : Nat) (v : Byte) (hm : Memory.wf m = true) : Memory.wf (Memory.store m a v) = true := by
  cases m with
  | nil => simp [Memory.store, Memory.wf, Memory.risingAbove]
  | cons cell rest =>
    obtain ⟨x, w⟩ := cell
    simp only [Memory.wf] at hm
    unfold Memory.store
    split_ifs with h1 h2
    · simp [Memory.wf, Memory.risingAbove, h1, hm]
    · subst h2; simpa [Memory.wf] using hm
    · exact store_risingAbove rest x a v (by omega) hm

theorem store_below (aw : Nat) (m : Memory) (a : Nat) (v : Byte) (ha : a < 2 ^ aw) (hm : Memory.below aw m = true) :
    Memory.below aw (Memory.store m a v) = true := by
  induction m with
  | nil => simpa [Memory.store, Memory.below] using ha
  | cons cell rest ih =>
    obtain ⟨x, w⟩ := cell
    simp only [Memory.below, List.all_cons, Bool.and_eq_true, decide_eq_true_eq] at hm ih ⊢
    unfold Memory.store
    split_ifs with h1 h2
    · simp [ha, hm.1]; simpa using hm.2
    · simp [ha]; simpa using hm.2
    · simp only [List.all_cons, Bool.and_eq_true, decide_eq_true_eq]
      exact ⟨hm.1, ih hm.2⟩

/-! ### The bytes of the block -/

/-- Two blocks with the same memory read alike. -/
theorem byteAt_congr {h h' : Block c} (hm : h'.mem = h.mem) (a : c.Word) : h'.byteAt a = h.byteAt a := by
  simp [Block.byteAt, hm]

@[simp] theorem byteAt_setByte_same (h : Block c) (a : c.Word) (v : Byte) : (h.setByte a v).byteAt a = v := by
  simp [Block.byteAt]

theorem byteAt_setByte_other (h : Block c) {a a' : c.Word} (v : Byte) (hne : a' ≠ a) :
    (h.setByte a v).byteAt a' = h.byteAt a' := by
  have : a'.toNat ≠ a.toNat := fun he => hne (BitVec.eq_of_toNat_eq he)
  simp [Block.byteAt, lookup_store_other _ _ this]

theorem byteAt_setByte (h : Block c) (a a' : c.Word) (v : Byte) :
    (h.setByte a v).byteAt a' = if a' = a then v else h.byteAt a' := by
  split_ifs with he
  · subst he; simp
  · exact byteAt_setByte_other h v he

@[simp] theorem byteAt_record (h : Block c) (e : Access c.aw) (a : c.Word) : (h.record e).byteAt a = h.byteAt a := rfl

/-- A destination write as a change of the bytes of memory. -/
theorem byteAt_dstWrite (h : Block c) (off a : c.Word) (v : Byte) :
    (dstWrite off v h).byteAt a = if a = h.dstAddr off then v else h.byteAt a := by
  simp [dstWrite, byteAt_setByte]

theorem setByte_memoryOk (h : Block c) (a : c.Word) (v : Byte) (hm : h.MemoryOk) : (h.setByte a v).MemoryOk :=
  ⟨store_wf _ _ _ hm.1, store_below _ _ _ _ a.isLt hm.2⟩

/-- A destination write keeps the canonical form. -/
theorem dstWrite_memoryOk (h : Block c) (off : c.Word) (v : Byte) (hm : h.MemoryOk) : (dstWrite off v h).MemoryOk :=
  setByte_memoryOk h _ v hm

/-- Placing stream bytes keeps it. -/
theorem pokeSource_memoryOk (bytes : List Byte) (h : Block c) (off : c.Word) (hm : h.MemoryOk) :
    (h.pokeSource off bytes).MemoryOk := by
  induction bytes generalizing h off with
  | nil => exact hm
  | cons v rest ih => exact ih _ _ (setByte_memoryOk h _ v hm)

/-- START does not touch memory (70_reset_and_hazards.md R141). -/
theorem enterCall_memoryOk (h : Block c) (hm : h.MemoryOk) : (enterCall h).MemoryOk := hm

/-- Hardware reset does not touch memory (70_reset_and_hazards.md R140). -/
theorem hardwareReset_memoryOk (h : Block c) (hm : h.MemoryOk) : (hardwareReset h).MemoryOk := hm

/-- The memory after reset has the canonical form. -/
theorem reset_memoryOk : State.reset.block.MemoryOk := ⟨rfl, rfl⟩

/-! ### The shadow buffer -/

@[simp] theorem entry_bufWrite_same (h : Block c) (j v : Byte) : (bufWrite j v h).entry j = some v := by
  simp [Block.entry]

theorem entry_bufWrite_other (h : Block c) {j j' : Byte} (v : Byte) (hne : j' ≠ j) :
    (bufWrite j v h).entry j' = h.entry j' := by
  have : j.toNat ≠ j'.toNat := fun he => hne (BitVec.eq_of_toNat_eq he.symm)
  simp [Block.entry, Vector.getElem_set_ne, this]

theorem entry_bufWrite (h : Block c) (j j' v : Byte) :
    (bufWrite j v h).entry j' = if j' = j then some v else h.entry j' := by
  split_ifs with he
  · subst he; simp
  · exact entry_bufWrite_other h v he

theorem entry_congr {h h' : Block c} (hb : h'.buf = h.buf) (j : Byte) : h'.entry j = h.entry j := by
  simp [Block.entry, hb]

end Sys2Proof.Machine
end

