-- ==== Sys2Proof/Laws/Words.lean ====
section
/-! SUPPORT. Offsets: small ones are distinct in every instance (`AW >= 9`, 00_scope.md R5), and the operand forms in terms of
them. -/

namespace Sys2Proof.Machine

variable {c : Config}

/-- R5: the address space has at least 512 locations. -/
theorem aw_room (c : Config) : 512 ≤ 2 ^ c.aw := by
  calc 512 = 2 ^ 9 := by norm_num
    _ ≤ 2 ^ c.aw := Nat.pow_le_pow_right (by norm_num) c.awMin

theorem ofNat_ne_of_lt {w j k : Nat} (hj : j < 2 ^ w) (hk : k < 2 ^ w) (hne : j ≠ k) :
    BitVec.ofNat w j ≠ BitVec.ofNat w k := by
  intro he
  have := congrArg BitVec.toNat he
  simp only [BitVec.toNat_ofNat, Nat.mod_eq_of_lt hj, Nat.mod_eq_of_lt hk] at this
  exact hne this

/-- Distinct small indexes give distinct offsets from one base. -/
theorem add_ofNat_ne {w : Nat} (x : BitVec w) {j k : Nat} (hj : j < 2 ^ w) (hk : k < 2 ^ w) (hne : j ≠ k) :
    x + BitVec.ofNat w j ≠ x + BitVec.ofNat w k := by
  intro he
  exact ofNat_ne_of_lt hj hk hne (by simpa using he)

theorem zext_eq_ofNat (c : Config) (v : Byte) : c.zext v = BitVec.ofNat c.aw v.toNat := by
  simp [Config.zext]

theorem zext_toNat (c : Config) (v : Byte) : (c.zext v).toNat = v.toNat := by
  have h1 := v.isLt
  have h2 := aw_room c
  rw [zext_eq_ofNat, BitVec.toNat_ofNat, Nat.mod_eq_of_lt (by omega)]

/-- The output address of byte `k`, unfolded to one sum. -/
theorem outAddr_eq (h : Block c) (k : Nat) : h.outAddr k = h.dst + h.wp + BitVec.ofNat c.aw k := by
  simp [Block.outAddr, Block.dstAddr, Block.outOff, BitVec.add_assoc]

theorem outAddr_ne (h : Block c) {j k : Nat} (hj : j < 512) (hk : k < 512) (hne : j ≠ k) : h.outAddr j ≠ h.outAddr k := by
  have := aw_room c
  rw [outAddr_eq, outAddr_eq]
  exact add_ofNat_ne _ (by omega) (by omega) hne

theorem shadow_ne (x : Byte) {j k : Nat} (hj : j < 256) (hk : k < 256) (hne : j ≠ k) :
    x + BitVec.ofNat 8 j ≠ x + BitVec.ofNat 8 k :=
  add_ofNat_ne x hj hk hne

theorem ofNat_succ' (w j : Nat) : BitVec.ofNat w (j + 1) = BitVec.ofNat w j + 1 := by
  simp [BitVec.ofNat_add]

end Sys2Proof.Machine
end

