-- ==== Sys2Proof/Laws/Loop.lean ====
section
/-! SUPPORT. The byte loop: one induction for all loops, and what the five loop bodies of the token rules do. -/

namespace Sys2Proof.Machine

variable {c : Config}

/-- What holds before the loop and is kept by each turn, and does not mention the loop index, holds after it. -/
theorem countUp_induct (P : Nat → Block c → Prop) (body : Nat → Block c → Block c) (count : Nat) (h : Block c)
    (index : ∀ j g x, P j g → P j { g with k := x }) (start : P 0 h)
    (turn : ∀ j < count, ∀ g, P j g → P (j + 1) (body j g)) :
    P count (countUp body count h) := by
  induction count with
  | zero => exact start
  | succ j ih => exact turn j (by omega) _ (index j _ _ (ih fun i hi => turn i (by omega)))

/-- The same for the whole loop, for what survives one more draw. -/
theorem forBytes_induct (P : Nat → Block c → Prop) (body : Nat → Block c → Block c) (count : Nat) (h : Block c)
    (index : ∀ j g x, P j g → P j { g with k := x }) (drawn : ∀ j g, P j g → P j { g with draws := g.draws + 1 })
    (start : P 0 h) (turn : ∀ j < count, ∀ g, P j g → P (j + 1) (body j g)) :
    P count (forBytes body count h) :=
  index _ _ _ (drawn _ _ (countUp_induct P body count h index start turn))

/-- A loop whose turns keep the canonical form of memory keeps it. -/
theorem forBytes_memoryOk (body : Nat → Block c → Block c) (count : Nat) (h : Block c)
    (turn : ∀ j g, Block.MemoryOk g → (body j g).MemoryOk) (hm : h.MemoryOk) : (forBytes body count h).MemoryOk :=
  forBytes_induct (fun _ g => g.MemoryOk) body count h (fun _ _ _ hg => hg) (fun _ _ hg => hg) hm
    (fun j _ g hg => turn j g hg)

/-- One more element of a forward copy. -/
theorem ForwardCopy.snoc {α β : Type} [DecidableEq α] {before mid : α → β} {source target : Nat → α} {count : Nat}
    (hcopy : ForwardCopy before mid source target count) (honly : OnlyChanges before mid target count)
    (hinj : ∀ j < count, target j ≠ target count) :
    ForwardCopy before (Function.update mid (target count) (mid (source count))) source target (count + 1) := by
  intro k hk
  have keep : ∀ j < count, Function.update mid (target count) (mid (source count)) (target j) = mid (target j) :=
    fun j hj => Function.update_of_ne (hinj j hj) _ _
  rcases Nat.lt_succ_iff_lt_or_eq.mp hk with hlt | rfl
  · rw [keep k hlt]
    refine ⟨fun j hj he => ?_, fun hne => (hcopy k hlt).2 hne⟩
    rw [keep j (by omega)]
    exact (hcopy k hlt).1 j hj he
  · rw [Function.update_self]
    refine ⟨fun j hj he => ?_, fun hne => ?_⟩
    · rw [keep j hj, he]
    · exact honly _ fun j hj he => hne j hj he.symm

/-- One more changed place. -/
theorem OnlyChanges.snoc {α β : Type} [DecidableEq α] {before mid : α → β} {target : Nat → α} {count : Nat}
    (honly : OnlyChanges before mid target count) (v : β) :
    OnlyChanges before (Function.update mid (target count) v) target (count + 1) := by
  intro a ha
  rw [Function.update_of_ne (ha count (by omega))]
  exact honly a fun k hk => ha k (by omega)

theorem ForwardCopy.zero {α β : Type} (f g : α → β) (source target : Nat → α) : ForwardCopy f g source target 0 :=
  fun _ hk => absurd hk (Nat.not_lt_zero _)

theorem OnlyChanges.refl {α β : Type} (f : α → β) (target : Nat → α) (count : Nat) : OnlyChanges f f target count :=
  fun _ _ => rfl

theorem OnlyChanges.congr {α β : Type} {f g : α → β} {target target' : Nat → α} {count : Nat}
    (honly : OnlyChanges f g target count) (he : ∀ k < count, target k = target' k) : OnlyChanges f g target' count :=
  fun a ha => honly a fun k hk => he k hk ▸ ha k hk

theorem ForwardCopy.congr {α β : Type} {f g : α → β} {source source' target target' : Nat → α} {count : Nat}
    (hcopy : ForwardCopy f g source target count) (hs : ∀ k < count, source k = source' k)
    (ht : ∀ k < count, target k = target' k) : ForwardCopy f g source' target' count := by
  intro k hk
  rw [← hs k hk, ← ht k hk]
  refine ⟨fun j hj he => ?_, fun hne => (hcopy k hk).2 fun j hj => ?_⟩
  · rw [← ht j (by omega)] at he ⊢; exact (hcopy k hk).1 j hj he
  · have := hne j hj; rwa [← ht j (by omega)] at this

/-- A destination write, as an update of the bytes of memory. -/
theorem byteAt_dstWrite_update (h : Block c) (off : c.Word) (v : Byte) :
    (dstWrite off v h).byteAt = Function.update h.byteAt (h.dstAddr off) v := by
  funext a
  rw [byteAt_dstWrite, Function.update_apply]

/-- A shadow write, as an update of the entries. -/
theorem entry_bufWrite_update (h : Block c) (j v : Byte) :
    (bufWrite j v h).entry = Function.update h.entry j (some v) := by
  funext a
  rw [entry_bufWrite, Function.update_apply]

end Sys2Proof.Machine
end

