-- ==== Sys2Proof/Laws/Bodies.lean ====
section
/-! SUPPORT. What each byte loop of the token rules does: one lemma per loop body, which the token lemmas cite. -/

namespace Sys2Proof.Machine

variable {c : Config}

/-- What no byte loop changes. -/
structure LoopFrame (h g : Block c) : Prop where
  operands : h.SameOperands g
  published : h.SamePublished g
  sp : g.sp = h.sp
  wp : g.wp = h.wp
  cmd : g.cmd = h.cmd
  n : g.n = h.n
  m : g.m = h.m
  dist : g.dist = h.dist
  fill : g.fill = h.fill

theorem LoopFrame.refl (h : Block c) : LoopFrame h h :=
  ⟨⟨rfl, rfl, rfl, rfl, rfl⟩, ⟨rfl, rfl, rfl, rfl⟩, rfl, rfl, rfl, rfl, rfl, rfl, rfl⟩

theorem LoopFrame.trans {h g f : Block c} (h1 : LoopFrame h g) (h2 : LoopFrame g f) : LoopFrame h f := by
  obtain ⟨⟨a1, a2, a3, a4, a5⟩, ⟨a6, a7, a8, a9⟩, b1, b2, b3, b4, b5, b6, b7⟩ := h1
  obtain ⟨⟨c1, c2, c3, c4, c5⟩, ⟨c6, c7, c8, c9⟩, d1, d2, d3, d4, d5, d6, d7⟩ := h2
  exact ⟨⟨c1.trans a1, c2.trans a2, c3.trans a3, c4.trans a4, c5.trans a5⟩,
    ⟨c6.trans a6, c7.trans a7, c8.trans a8, c9.trans a9⟩,
    d1.trans b1, d2.trans b2, d3.trans b3, d4.trans b4, d5.trans b5, d6.trans b6, d7.trans b7⟩

theorem Block.SameShadow.refl (h : Block c) : h.SameShadow h := ⟨rfl, rfl, rfl⟩

theorem Block.SameShadow.trans {h g f : Block c} (h1 : h.SameShadow g) (h2 : g.SameShadow f) : h.SameShadow f :=
  ⟨h2.b.trans h1.b, h2.i.trans h1.i, h2.buf.trans h1.buf⟩

theorem LoopFrame.index {h g : Block c} (hf : LoopFrame h g) (x : Byte) : LoopFrame h { g with k := x } :=
  hf.trans ⟨⟨rfl, rfl, rfl, rfl, rfl⟩, ⟨rfl, rfl, rfl, rfl⟩, rfl, rfl, rfl, rfl, rfl, rfl, rfl⟩

theorem LoopFrame.drawn {h g : Block c} (hf : LoopFrame h g) (d : Nat) : LoopFrame h { g with draws := d } :=
  hf.trans ⟨⟨rfl, rfl, rfl, rfl, rfl⟩, ⟨rfl, rfl, rfl, rfl⟩, rfl, rfl, rfl, rfl, rfl, rfl, rfl⟩

theorem LoopFrame.written {h g : Block c} (hf : LoopFrame h g) (off : c.Word) (v : Byte) :
    LoopFrame h (dstWrite off v g) :=
  hf.trans ⟨⟨rfl, rfl, rfl, rfl, rfl⟩, ⟨rfl, rfl, rfl, rfl⟩, rfl, rfl, rfl, rfl, rfl, rfl, rfl⟩

theorem LoopFrame.recorded {h g : Block c} (hf : LoopFrame h g) (e : Access c.aw) : LoopFrame h (g.record e) :=
  hf.trans ⟨⟨rfl, rfl, rfl, rfl, rfl⟩, ⟨rfl, rfl, rfl, rfl⟩, rfl, rfl, rfl, rfl, rfl, rfl, rfl⟩

theorem LoopFrame.mirrored {h g : Block c} (hf : LoopFrame h g) (j v : Byte) : LoopFrame h (bufWrite j v g) :=
  hf.trans ⟨⟨rfl, rfl, rfl, rfl, rfl⟩, ⟨rfl, rfl, rfl, rfl⟩, rfl, rfl, rfl, rfl, rfl, rfl, rfl⟩

theorem LoopFrame.cursor {h g : Block c} (hf : LoopFrame h g) (x y : Byte) : LoopFrame h { g with b := x, i := y } :=
  hf.trans ⟨⟨rfl, rfl, rfl, rfl, rfl⟩, ⟨rfl, rfl, rfl, rfl⟩, rfl, rfl, rfl, rfl, rfl, rfl, rfl⟩

/-- The target of byte `k` of a token's output part that starts `dbase` bytes after `wp`. -/
def Block.partAddr (h : Block c) (dbase : c.Word) (k : Nat) : c.Word := h.dstAddr (h.outOff dbase k)

theorem partAddr_ne (h : Block c) (dbase : c.Word) {j k : Nat} (hj : j < 512) (hk : k < 512) (hne : j ≠ k) :
    h.partAddr dbase j ≠ h.partAddr dbase k := by
  have := aw_room c
  simp only [Block.partAddr, Block.dstAddr, Block.outOff]
  intro he
  have he := BitVec.add_right_inj _ |>.mp he
  exact add_ofNat_ne _ (by omega) (by omega) hne he

theorem partAddr_zero (h : Block c) : h.partAddr 0 = h.outAddr := rfl

theorem LoopFrame.partAddr {h g : Block c} (hf : LoopFrame h g) (dbase : c.Word) (k : Nat) :
    g.partAddr dbase k = h.partAddr dbase k := by
  simp [Block.partAddr, Block.dstAddr, Block.outOff, hf.operands.dst, hf.wp]

theorem LoopFrame.outOff {h g : Block c} (hf : LoopFrame h g) (dbase : c.Word) (k : Nat) :
    g.outOff dbase k = h.outOff dbase k := by
  simp [Block.outOff, hf.wp]

theorem LoopFrame.payloadOff {h g : Block c} (hf : LoopFrame h g) (sbase : c.Word) (k : Nat) :
    g.payloadOff sbase k = h.payloadOff sbase k := by
  simp [Block.payloadOff, hf.sp]

theorem LoopFrame.srcAddr {h g : Block c} (hf : LoopFrame h g) (off : c.Word) : g.srcAddr off = h.srcAddr off := by
  simp [Block.srcAddr, hf.operands.src]

theorem LoopFrame.dstAddr {h g : Block c} (hf : LoopFrame h g) (off : c.Word) : g.dstAddr off = h.dstAddr off := by
  simp [Block.dstAddr, hf.operands.dst]

theorem LoopFrame.backOff {h g : Block c} (hf : LoopFrame h g) (k : Nat) : g.backOff k = h.backOff k := by
  simp [Block.backOff, hf.wp, hf.dist]

/-- The records of a loop whose turn `k` makes the accesses `f k v`, `v` the byte it leaves at `target k`, grow by one turn. -/
theorem trace_snoc {α : Type} {w : Nat} (f : Nat → α → List (Access w)) (old new : Nat → α) (count : Nat)
    (base trace : List (Access w)) (htrace : trace = base ++ (List.range count).flatMap fun k => f k (old k))
    (hkeep : ∀ k < count, new k = old k) :
    trace ++ f count (new count) = base ++ (List.range (count + 1)).flatMap fun k => f k (new k) := by
  have : (List.range count).flatMap (fun k => f k (new k)) = (List.range count).flatMap fun k => f k (old k) := by
    apply List.flatMap_congr
    intro k hk
    rw [hkeep k (List.mem_range.mp hk)]
  rw [List.range_succ, List.flatMap_append, this, htrace]
  simp

/-- A loop whose turn `j` moves the byte at `source j` to `target j`, with the accesses `f j`. -/
structure CopyLoop (h : Block c) (source target : Nat → c.Word) (f : Nat → Byte → List (Access c.aw)) (j : Nat)
    (g : Block c) : Prop where
  frame : LoopFrame h g
  shadow : h.SameShadow g
  copy : ForwardCopy h.byteAt g.byteAt source target j
  only : OnlyChanges h.byteAt g.byteAt target j
  trace : g.trace = h.trace ++ (List.range j).flatMap fun k => f k (g.byteAt (target k))

theorem CopyLoop.start (h : Block c) (source target : Nat → c.Word) (f : Nat → Byte → List (Access c.aw)) :
    CopyLoop h source target f 0 h :=
  ⟨LoopFrame.refl h, Block.SameShadow.refl h, ForwardCopy.zero _ _ _ _, OnlyChanges.refl _ _ _, by simp⟩

theorem CopyLoop.index {h g : Block c} {source target f j} (hl : CopyLoop h source target f j g) (x : Byte) :
    CopyLoop h source target f j { g with k := x } :=
  ⟨hl.frame.index x, hl.shadow.trans ⟨rfl, rfl, rfl⟩, hl.copy, hl.only, hl.trace⟩

theorem CopyLoop.drawn {h g : Block c} {source target f j} (hl : CopyLoop h source target f j g) (d : Nat) :
    CopyLoop h source target f j { g with draws := d } :=
  ⟨hl.frame.drawn d, hl.shadow.trans ⟨rfl, rfl, rfl⟩, hl.copy, hl.only, hl.trace⟩

/-- One turn: a read recorded as `e`, then the write. -/
theorem CopyLoop.turn {h g : Block c} {source target : Nat → c.Word} {f j} (hl : CopyLoop h source target f j g)
    (e : Access c.aw) (off : c.Word) (hoff : h.dstAddr off = target j) (hinj : ∀ k < j, target k ≠ target j)
    (hf : ∀ v, f j v = [e, .dstWrite off v]) :
    CopyLoop h source target f (j + 1) (dstWrite off (g.byteAt (source j)) (g.record e)) := by
  have hbytes : (dstWrite off (g.byteAt (source j)) (g.record e)).byteAt =
      Function.update g.byteAt (target j) (g.byteAt (source j)) := by
    rw [byteAt_dstWrite_update]
    have : (g.record e).dstAddr off = target j := by rw [← hoff]; exact hl.frame.dstAddr off
    rw [this]; rfl
  refine ⟨(hl.frame.recorded e).written _ _, hl.shadow.trans ⟨rfl, rfl, rfl⟩, ?_, ?_, ?_⟩
  · rw [hbytes]; exact hl.copy.snoc hl.only hinj
  · rw [hbytes]; exact hl.only.snoc _
  · rw [← trace_snoc f (fun k => g.byteAt (target k)) _ j h.trace g.trace hl.trace fun k hk => ?_]
    · rw [hbytes, Function.update_self, hf]; simp
    · rw [hbytes]; exact Function.update_of_ne (hinj k hk) _ _

/-- The copy of a literal: 40_lz_direct.md R81, 42_rle.md R102, R103. -/
theorem copyLiteral_loop (sbase dbase : c.Word) (count : Nat) (hcount : count < 512) (h : Block c) :
    CopyLoop h (fun k => h.srcAddr (h.payloadOff sbase k)) (h.partAddr dbase)
      (fun k v => [.srcRead (h.payloadOff sbase k), .dstWrite (h.outOff dbase k) v]) count
      (forBytes (copyLiteral sbase dbase) count h) := by
  refine forBytes_induct (CopyLoop h _ _ _) _ _ _ (fun j g x hl => hl.index x) (fun j g hl => hl.drawn _)
    (CopyLoop.start h _ _ _) fun j hj g hl => ?_
  have hbody : copyLiteral sbase dbase j g = dstWrite (h.outOff dbase j) (g.byteAt (h.srcAddr (h.payloadOff sbase j)))
      (g.record (.srcRead (h.payloadOff sbase j))) := by
    rw [← hl.frame.outOff dbase j, ← hl.frame.payloadOff sbase j, ← hl.frame.srcAddr]
    rfl
  rw [hbody]
  exact hl.turn _ _ rfl (fun k hk => partAddr_ne h dbase (by omega) (by omega) (by omega)) fun _ => rfl

/-- The copy of a match in mode `LZ_DIRECT`: 40_lz_direct.md R82. -/
theorem copyBack_loop (count : Nat) (hcount : count < 512) (h : Block c) :
    CopyLoop h (fun k => h.dstAddr (h.backOff k)) h.outAddr
      (fun k v => [.dstRead (h.backOff k), .dstWrite (h.outOff 0 k) v]) count (forBytes copyBack count h) := by
  refine forBytes_induct (CopyLoop h _ _ _) _ _ _ (fun j g x hl => hl.index x) (fun j g hl => hl.drawn _)
    (CopyLoop.start h _ _ _) fun j hj g hl => ?_
  have hbody : copyBack j g = dstWrite (h.outOff 0 j) (g.byteAt (h.dstAddr (h.backOff j)))
      (g.record (.dstRead (h.backOff j))) := by
    rw [← hl.frame.outOff 0 j, ← hl.frame.backOff j, ← hl.frame.dstAddr]
    rfl
  rw [hbody]
  exact hl.turn _ _ rfl (fun k hk => outAddr_ne h (by omega) (by omega) (by omega)) fun _ => rfl

/-- The fill of a run: 42_rle.md R101, R103. -/
structure FillLoop (h : Block c) (j : Nat) (g : Block c) : Prop where
  frame : LoopFrame h g
  shadow : h.SameShadow g
  filled : ∀ k < j, g.byteAt (h.outAddr k) = h.fill
  only : OnlyChanges h.byteAt g.byteAt h.outAddr j
  trace : g.trace = h.trace ++ (List.range j).map fun k => .dstWrite (h.outOff 0 k) h.fill

theorem writeFill_loop (count : Nat) (hcount : count < 512) (h : Block c) :
    FillLoop h count (forBytes writeFill count h) := by
  refine forBytes_induct (FillLoop h) _ _ _
    (fun j g x hl => ⟨hl.frame.index x, hl.shadow.trans ⟨rfl, rfl, rfl⟩, hl.filled, hl.only, hl.trace⟩)
    (fun j g hl => ⟨hl.frame.drawn _, hl.shadow.trans ⟨rfl, rfl, rfl⟩, hl.filled, hl.only, hl.trace⟩)
    ⟨LoopFrame.refl h, Block.SameShadow.refl h, fun k hk => absurd hk (Nat.not_lt_zero k), OnlyChanges.refl _ _ _, by simp⟩
    fun j hj g hl => ?_
  have hbody : writeFill j g = dstWrite (h.outOff 0 j) h.fill g := by
    simp only [writeFill, hl.frame.outOff, hl.frame.fill]
  have hbytes : (writeFill j g).byteAt = Function.update g.byteAt (h.outAddr j) h.fill := by
    rw [hbody, byteAt_dstWrite_update, hl.frame.dstAddr]; rfl
  have hinj : ∀ k < j, h.outAddr k ≠ h.outAddr j := fun k hk => outAddr_ne h (by omega) (by omega) (by omega)
  refine ⟨?_, ?_, fun k hk => ?_, ?_, ?_⟩
  · rw [hbody]; exact hl.frame.written _ _
  · rw [hbody]; exact hl.shadow.trans ⟨rfl, rfl, rfl⟩
  · rw [hbytes]
    rcases Nat.lt_succ_iff_lt_or_eq.mp hk with hlt | rfl
    · rw [Function.update_of_ne (hinj k hlt)]; exact hl.filled k hlt
    · exact Function.update_self ..
  · rw [hbytes]; exact hl.only.snoc _
  · rw [hbody, List.range_succ, List.map_append, ← List.append_assoc, ← hl.trace]; rfl

/-- The two shadow loops: the byte of turn `k` goes to `buf[b + k]` and to the destination. What the byte is stands in
`value j g`, which later turns do not disturb. -/
structure MirrorLoop (h : Block c) (j : Nat) (g : Block c) : Prop where
  frame : LoopFrame h g
  cursor : g.b = h.b + BitVec.ofNat 8 j
  mirrored : ∀ k < j, g.entry (h.b + BitVec.ofNat 8 k) = some (g.byteAt (h.outAddr k))
  onlyEntries : OnlyChanges h.entry g.entry (fun k => h.b + BitVec.ofNat 8 k) j
  onlyBytes : OnlyChanges h.byteAt g.byteAt h.outAddr j

theorem MirrorLoop.start (h : Block c) : MirrorLoop h 0 h :=
  ⟨LoopFrame.refl h, by simp, fun k hk => absurd hk (Nat.not_lt_zero k), OnlyChanges.refl _ _ _, OnlyChanges.refl _ _ _⟩

theorem MirrorLoop.index {h g : Block c} {j : Nat} (hl : MirrorLoop h j g) (x : Byte) :
    MirrorLoop h j { g with k := x } :=
  ⟨hl.frame.index x, hl.cursor, hl.mirrored, hl.onlyEntries, hl.onlyBytes⟩

theorem MirrorLoop.drawn {h g : Block c} {j : Nat} (hl : MirrorLoop h j g) (d : Nat) :
    MirrorLoop h j { g with draws := d } :=
  ⟨hl.frame.drawn d, hl.cursor, hl.mirrored, hl.onlyEntries, hl.onlyBytes⟩

/-- One turn seen from outside: the byte `v` goes to the entry at the cursor and to the next output byte, the cursor moves. -/
theorem MirrorLoop.turn {h g g' : Block c} {j : Nat} (hj : j < 256) (hl : MirrorLoop h j g) (v : Byte)
    (hframe : LoopFrame g g') (hb : g'.b = g.b + 1)
    (hentry : g'.entry = Function.update g.entry g.b (some v))
    (hbytes : g'.byteAt = Function.update g.byteAt (h.outAddr j) v) : MirrorLoop h (j + 1) g' := by
  have hne : ∀ k < j, h.outAddr k ≠ h.outAddr j := fun k hk => outAddr_ne h (by omega) (by omega) (by omega)
  have hne' : ∀ k < j, h.b + BitVec.ofNat 8 k ≠ h.b + BitVec.ofNat 8 j := fun k hk =>
    shadow_ne h.b (by omega) hj (by omega)
  rw [hl.cursor] at hentry hb
  refine ⟨hl.frame.trans hframe, by rw [hb, ofNat_succ']; ring, fun k hk => ?_, ?_, ?_⟩
  · rw [hentry, hbytes]
    rcases Nat.lt_succ_iff_lt_or_eq.mp hk with hlt | rfl
    · rw [Function.update_of_ne (hne k hlt), Function.update_of_ne (hne' k hlt)]; exact hl.mirrored k hlt
    · simp
  · rw [hentry]; exact hl.onlyEntries.snoc _
  · rw [hbytes]; exact hl.onlyBytes.snoc _

/-- The body of `LZS.LIT` in closed form. -/
theorem mirrorLiteral_turn (j : Nat) (g : Block c) :
    let v := g.byteAt (g.srcAddr (g.payloadOff 1 j))
    LoopFrame g (mirrorLiteral j g) ∧ (mirrorLiteral j g).b = g.b + 1 ∧ (mirrorLiteral j g).i = g.i ∧
    (mirrorLiteral j g).entry = Function.update g.entry g.b (some v) ∧
    (mirrorLiteral j g).byteAt = Function.update g.byteAt (g.outAddr j) v ∧
    (mirrorLiteral j g).draws = g.draws ∧
    (mirrorLiteral j g).trace = g.trace ++ [.srcRead (g.payloadOff 1 j), .bufWrite g.b v, .dstWrite (g.outOff 0 j) v] := by
  intro v
  have hbody : mirrorLiteral j g = dstWrite (g.outOff 0 j) v
      { bufWrite g.b v (g.record (.srcRead (g.payloadOff 1 j))) with b := g.b + 1 } := rfl
  rw [hbody]
  refine ⟨?_, rfl, rfl, ?_, ?_, rfl, ?_⟩
  · exact ((((LoopFrame.refl g).recorded _).mirrored _ _).cursor _ _).written _ _
  · exact entry_bufWrite_update (g.record (.srcRead (g.payloadOff 1 j))) g.b v
  · exact byteAt_dstWrite_update { bufWrite g.b v (g.record (.srcRead (g.payloadOff 1 j))) with b := g.b + 1 } _ v
  · simp

/-- What `bufRead` answers: the entry's byte, or the next free value (10_state.md R28). -/
def Block.entryByte (g : Block c) (j : Byte) : Byte := (g.entry j).getD (Config.freeByte g.draws)

/-- How many draws `bufRead` has made after it. -/
def Block.drawsAfter (g : Block c) (j : Byte) : Nat := if (g.entry j).isSome then g.draws else g.draws + 1

theorem bufRead_eq (j : Byte) (g : Block c) :
    bufRead j g = (g.entryByte j, { g.record (.bufRead j) with draws := g.drawsAfter j }) := by
  unfold bufRead Block.entryByte Block.drawsAfter
  cases g.entry j <;> rfl

/-- The body of `LZS.MATCH` in closed form. -/
theorem mirrorBack_turn (j : Nat) (g : Block c) :
    let v := g.entryByte g.i
    LoopFrame g (mirrorBack j g) ∧ (mirrorBack j g).b = g.b + 1 ∧ (mirrorBack j g).i = g.i + 1 ∧
    (mirrorBack j g).entry = Function.update g.entry g.b (some v) ∧
    (mirrorBack j g).byteAt = Function.update g.byteAt (g.outAddr j) v ∧
    (mirrorBack j g).draws = g.drawsAfter g.i ∧
    (mirrorBack j g).trace = g.trace ++ [.bufRead g.i, .bufWrite g.b v, .dstWrite (g.outOff 0 j) v] := by
  intro v
  have hbody : mirrorBack j g =
      { dstWrite (g.outOff 0 j) v (bufWrite g.b v { g.record (.bufRead g.i) with draws := g.drawsAfter g.i }) with
        i := g.i + 1, b := g.b + 1 } := by
    unfold mirrorBack
    rw [bufRead_eq]
    rfl
  rw [hbody]
  refine ⟨?_, rfl, rfl, ?_, ?_, rfl, ?_⟩
  · exact ((((LoopFrame.refl g).recorded _).drawn _).mirrored _ _ |>.written _ _).cursor _ _
  · exact entry_bufWrite_update { g.record (.bufRead g.i) with draws := g.drawsAfter g.i } g.b v
  · exact byteAt_dstWrite_update (bufWrite g.b v { g.record (.bufRead g.i) with draws := g.drawsAfter g.i }) _ v
  · simp

/-- The loop of `LZS.LIT`, 41_lz_shadow.md R92. -/
structure MirrorLiteralLoop (h : Block c) (j : Nat) (g : Block c) : Prop where
  mirror : MirrorLoop h j g
  i : g.i = h.i
  copy : ForwardCopy h.byteAt g.byteAt (fun k => h.srcAddr (h.payloadOff 1 k)) h.outAddr j
  trace : g.trace = h.trace ++ (List.range j).flatMap fun k =>
    [.srcRead (h.payloadOff 1 k), .bufWrite (h.b + BitVec.ofNat 8 k) (g.byteAt (h.outAddr k)),
      .dstWrite (h.outOff 0 k) (g.byteAt (h.outAddr k))]

theorem mirrorLiteral_loop (count : Nat) (hcount : count ≤ 256) (h : Block c) :
    MirrorLiteralLoop h count (forBytes mirrorLiteral count h) := by
  refine forBytes_induct (MirrorLiteralLoop h) _ _ _
    (fun j g x hl => ⟨hl.mirror.index x, hl.i, hl.copy, hl.trace⟩)
    (fun j g hl => ⟨hl.mirror.drawn _, hl.i, hl.copy, hl.trace⟩)
    ⟨MirrorLoop.start h, rfl, ForwardCopy.zero _ _ _ _, by simp⟩ fun j hj g hl => ?_
  obtain ⟨hf, hb, hi, hentry, hbytes, -, htrace⟩ := mirrorLiteral_turn j g
  have hfr := hl.mirror.frame
  have hout : g.outAddr j = h.outAddr j := hfr.partAddr 0 j
  have hsrc : g.srcAddr (g.payloadOff 1 j) = h.srcAddr (h.payloadOff 1 j) := by rw [hfr.payloadOff, hfr.srcAddr]
  rw [hout, hsrc] at hbytes
  rw [hsrc] at hentry htrace
  have hinj : ∀ k < j, h.outAddr k ≠ h.outAddr j := fun k hk => outAddr_ne h (by omega) (by omega) (by omega)
  refine ⟨hl.mirror.turn (by omega) _ hf hb hentry hbytes, hi.trans hl.i, ?_, ?_⟩
  · rw [hbytes]; exact hl.copy.snoc hl.mirror.onlyBytes hinj
  · rw [← trace_snoc (fun k v => [.srcRead (h.payloadOff 1 k), .bufWrite (h.b + BitVec.ofNat 8 k) v,
      .dstWrite (h.outOff 0 k) v]) (fun k => g.byteAt (h.outAddr k)) _ j h.trace g.trace hl.trace fun k hk => ?_]
    · rw [htrace, hbytes, Function.update_self, hl.mirror.cursor, hfr.payloadOff, hfr.outOff]
    · rw [hbytes]; exact Function.update_of_ne (hinj k hk) _ _

/-- The loop of `LZS.MATCH`, 41_lz_shadow.md R93. An unwritten entry gives a free value drawn in this loop. -/
structure MirrorBackLoop (h : Block c) (j : Nat) (g : Block c) : Prop where
  mirror : MirrorLoop h j g
  i : g.i = h.i + BitVec.ofNat 8 j
  draws : h.draws ≤ g.draws
  seen : ∀ k < j, ∀ i < k, h.b + BitVec.ofNat 8 i = h.i + BitVec.ofNat 8 k →
    g.entry (h.b + BitVec.ofNat 8 k) = g.entry (h.b + BitVec.ofNat 8 i)
  old : ∀ k < j, (∀ i < k, h.b + BitVec.ofNat 8 i ≠ h.i + BitVec.ofNat 8 k) →
    ∀ v, h.entry (h.i + BitVec.ofNat 8 k) = some v → g.entry (h.b + BitVec.ofNat 8 k) = some v
  free : ∀ k < j, (∀ i < k, h.b + BitVec.ofNat 8 i ≠ h.i + BitVec.ofNat 8 k) →
    h.entry (h.i + BitVec.ofNat 8 k) = none →
      ∃ d, h.draws ≤ d ∧ d < g.draws ∧ g.entry (h.b + BitVec.ofNat 8 k) = some (Config.freeByte d)
  trace : g.trace = h.trace ++ (List.range j).flatMap fun k =>
    [.bufRead (h.i + BitVec.ofNat 8 k), .bufWrite (h.b + BitVec.ofNat 8 k) (g.byteAt (h.outAddr k)),
      .dstWrite (h.outOff 0 k) (g.byteAt (h.outAddr k))]

theorem mirrorBack_loop (count : Nat) (hcount : count ≤ 256) (h : Block c) :
    MirrorBackLoop h count (forBytes mirrorBack count h) := by
  refine forBytes_induct (MirrorBackLoop h) _ _ _
    (fun j g x hl => ⟨hl.mirror.index x, hl.i, hl.draws, hl.seen, hl.old, hl.free, hl.trace⟩)
    (fun j g hl => ⟨hl.mirror.drawn _, hl.i, Nat.le_succ_of_le hl.draws, hl.seen, hl.old, fun k hk h1 h2 => ?_, hl.trace⟩)
    ⟨MirrorLoop.start h, by simp, le_refl _, fun k hk => absurd hk (Nat.not_lt_zero k),
      fun k hk => absurd hk (Nat.not_lt_zero k), fun k hk => absurd hk (Nat.not_lt_zero k), by simp⟩ fun j hj g hl => ?_
  · obtain ⟨d, h1, h2, h3⟩ := hl.free k hk h1 h2
    exact ⟨d, h1, Nat.lt_succ_of_lt h2, h3⟩
  obtain ⟨hf, hb, hi, hentry, hbytes, hdraws, htrace⟩ := mirrorBack_turn j g
  have hfr := hl.mirror.frame
  have hout : g.outAddr j = h.outAddr j := hfr.partAddr 0 j
  rw [hout] at hbytes
  have hinj : ∀ k < j, h.outAddr k ≠ h.outAddr j := fun k hk => outAddr_ne h (by omega) (by omega) (by omega)
  have hle : g.draws ≤ (mirrorBack j g).draws := by
    rw [hdraws]; unfold Block.drawsAfter; split_ifs <;> omega
  have hnew : (mirrorBack j g).entry (h.b + BitVec.ofNat 8 j) = some (g.entryByte g.i) := by
    rw [hentry, hl.mirror.cursor, Function.update_self]
  have hkept : ∀ k < j, (mirrorBack j g).entry (h.b + BitVec.ofNat 8 k) = g.entry (h.b + BitVec.ofNat 8 k) := by
    intro k hk
    rw [hentry, hl.mirror.cursor, Function.update_of_ne (shadow_ne h.b (by omega) (by omega) (by omega))]
  have hsource : (∀ i < j, h.b + BitVec.ofNat 8 i ≠ h.i + BitVec.ofNat 8 j) → g.entry g.i = h.entry (h.i + BitVec.ofNat 8 j) := by
    intro hne
    rw [hl.i]
    exact hl.mirror.onlyEntries _ fun k hk he => hne k hk he.symm
  refine ⟨hl.mirror.turn (by omega) _ hf hb hentry hbytes, ?_, hl.draws.trans hle, ?_, ?_, ?_, ?_⟩
  · rw [hi, hl.i, ofNat_succ']; ring
  · intro k hk i hik he
    rcases Nat.lt_succ_iff_lt_or_eq.mp hk with hlt | rfl
    · rw [hkept k hlt, hkept i (by omega)]; exact hl.seen k hlt i hik he
    · rw [hnew, hkept i hik]
      obtain ⟨v, hv⟩ : ∃ v, g.entry (h.b + BitVec.ofNat 8 i) = some v := ⟨_, hl.mirror.mirrored i hik⟩
      rw [hv, hl.i, ← he, Block.entryByte, hv]; rfl
  · intro k hk hne v hv
    rcases Nat.lt_succ_iff_lt_or_eq.mp hk with hlt | rfl
    · rw [hkept k hlt]; exact hl.old k hlt hne v hv
    · rw [hnew, Block.entryByte, hsource hne, hv]; rfl
  · intro k hk hne hv
    rcases Nat.lt_succ_iff_lt_or_eq.mp hk with hlt | rfl
    · obtain ⟨d, h1, h2, h3⟩ := hl.free k hlt hne hv
      exact ⟨d, h1, by omega, by rw [hkept k hlt, h3]⟩
    · refine ⟨g.draws, hl.draws, ?_, by rw [hnew, Block.entryByte, hsource hne, hv]; rfl⟩
      rw [hdraws, Block.drawsAfter, hsource hne, hv]; simp
  · rw [← trace_snoc (fun k v => [.bufRead (h.i + BitVec.ofNat 8 k), .bufWrite (h.b + BitVec.ofNat 8 k) v,
      .dstWrite (h.outOff 0 k) v]) (fun k => g.byteAt (h.outAddr k)) _ j h.trace g.trace hl.trace fun k hk => ?_]
    · rw [htrace, hbytes, Function.update_self, hl.mirror.cursor, hl.i, hfr.outOff]
    · rw [hbytes]; exact Function.update_of_ne (hinj k hk) _ _

/-! ### The canonical form of memory, turn by turn -/

theorem copyLiteral_memoryOk (sbase dbase : c.Word) (j : Nat) (g : Block c) (hg : g.MemoryOk) :
    (copyLiteral sbase dbase j g).MemoryOk := dstWrite_memoryOk _ _ _ hg

theorem copyBack_memoryOk (j : Nat) (g : Block c) (hg : g.MemoryOk) : (copyBack j g).MemoryOk :=
  dstWrite_memoryOk _ _ _ hg

theorem writeFill_memoryOk (j : Nat) (g : Block c) (hg : g.MemoryOk) : (writeFill j g).MemoryOk :=
  dstWrite_memoryOk _ _ _ hg

theorem mirrorLiteral_memoryOk (j : Nat) (g : Block c) (hg : g.MemoryOk) : (mirrorLiteral j g).MemoryOk :=
  dstWrite_memoryOk _ _ _ hg

theorem mirrorBack_memoryOk (j : Nat) (g : Block c) (hg : g.MemoryOk) : (mirrorBack j g).MemoryOk := by
  unfold mirrorBack
  rw [bufRead_eq]
  exact setByte_memoryOk _ _ _ hg

end Sys2Proof.Machine
end

