-- ==== Sys2Proof/Laws/PerInstr.lean ====
section
/-! SUPPORT. The statements made per instruction: one family, one lemma per constructor of `Instr`. -/

namespace Sys2Proof.Laws

/-- 30_encoding.md R69, "reserved for the terminator": the tag byte of a well-formed token is `0x00` exactly when the token is a
terminator. -/
def TagZero.Statement (i : Instr) : Prop :=
  i.wf = true → (encode i = 0x00#8 ↔ i.kind = .lzdEnd ∨ i.kind = .lzsEnd ∨ i.kind = .rleEnd)

/-- A count of at least 1 is not `0x00`. -/
theorem count_ne_zero {x : Byte} (h : 1 ≤ x.toNat) : x ≠ 0x00#8 := by rintro rfl; simp at h

theorem TagZero.lzdEnd : TagZero.Statement .lzdEnd := fun _ => by simp [encode, Instr.kind]

theorem TagZero.lzdLit (count : Byte) : TagZero.Statement (.lzdLit count) := fun h => by
  have : 1 ≤ count.toNat ∧ count.toNat ≤ 127 := by simpa [Instr.wf] using h
  simp [encode, Instr.kind, count_ne_zero this.1]

theorem TagZero.lzdMatch (length : Byte) : TagZero.Statement (.lzdMatch length) := fun _ => by
  simp [encode, Instr.kind]

theorem TagZero.lzsEnd : TagZero.Statement .lzsEnd := fun _ => by simp [encode, Instr.kind]

theorem TagZero.lzsLit (count : Byte) : TagZero.Statement (.lzsLit count) := fun h => by
  have : 1 ≤ count.toNat ∧ count.toNat ≤ 127 := by simpa [Instr.wf] using h
  simp [encode, Instr.kind, count_ne_zero this.1]

theorem TagZero.lzsMatch (length : Byte) : TagZero.Statement (.lzsMatch length) := fun _ => by
  simp [encode, Instr.kind]

theorem TagZero.rleEnd : TagZero.Statement .rleEnd := fun _ => by simp [encode, Instr.kind]

theorem TagZero.rleRun (run : Byte) : TagZero.Statement (.rleRun run) := by
  have : ∀ r : Byte, TagZero.Statement (.rleRun r) := by unfold TagZero.Statement; decide +kernel
  exact this run

theorem TagZero.rleLit (litlen : Byte) : TagZero.Statement (.rleLit litlen) := by
  have : ∀ r : Byte, TagZero.Statement (.rleLit r) := by unfold TagZero.Statement; decide +kernel
  exact this litlen

theorem TagZero.rleComb (run litlen : Byte) : TagZero.Statement (.rleComb run litlen) := fun _ => by
  simp [encode, Instr.kind]

end Sys2Proof.Laws
end

