-- ==== Sys2Proof/Laws/Tokens.lean ====
section
/-! SUPPORT. The checks of 60_exceptions.md R124 and the step, each with one lemma that says all it can do. -/

namespace Sys2Proof.Machine

variable {c : Config}

/-! ### The checks -/

theorem checkedToken_pass {L P : Nat} {rule : Block c → Block c} {h : Block c} (hp : h.PassesLengths L P) :
    checkedToken L P rule h = rule h := by
  have h1 : sourceCause L h = none := if_neg fun ⟨hh, hlt⟩ => by have := hp hh; omega
  have h2 : outputCause P h = none := if_neg fun ⟨hh, hlt⟩ => by have := hp hh; omega
  simp [checkedToken, h1, h2]

theorem checkedToken_stop {L P : Nat} {rule : Block c → Block c} {h : Block c} {cause : Cause} (hh : c.harden = true)
    (hf : h.lengthsFailure L P = some cause) : checkedToken L P rule h = raiseMalformed cause h := by
  unfold Block.lengthsFailure at hf
  split_ifs at hf with h1 h2
  · simp [checkedToken, sourceCause, hh, h1, ← Option.some.inj hf]
  · simp [checkedToken, sourceCause, outputCause, hh, h1, h2, ← Option.some.inj hf]

/-- A checked token runs its rule, its checks holding, or raises with `HARDEN`. -/
theorem checkedToken_cases (L P : Nat) (rule : Block c → Block c) (h : Block c) :
    (h.PassesLengths L P ∧ checkedToken L P rule h = rule h) ∨
    (c.harden = true ∧ ∃ cause, h.lengthsFailure L P = some cause ∧ checkedToken L P rule h = raiseMalformed cause h) := by
  by_cases hh : c.harden = true
  · rcases hc : h.lengthsFailure L P with _ | cause
    · have hp : h.PassesLengths L P := by
        intro _
        unfold Block.lengthsFailure at hc
        split_ifs at hc with h1 h2
        omega
      exact .inl ⟨hp, checkedToken_pass hp⟩
    · exact .inr ⟨hh, cause, rfl, checkedToken_stop hh hc⟩
  · have hp : h.PassesLengths L P := fun hh' => absurd hh' hh
    exact .inl ⟨hp, checkedToken_pass hp⟩

theorem checkedMatch_pass {P : Nat} {rule : Block c → Block c} {h : Block c} (hp : h.PassesMatch P) :
    checkedMatch P rule h = rule (readDistance h) := by
  have h1 : sourceCause 2 h = none := if_neg fun ⟨hh, hlt⟩ => by have := (hp hh).1; omega
  have h2 : distanceCause (readDistance h) = none := by
    unfold distanceCause
    rw [readDistance_wp, readDistance_dist, if_neg fun ⟨hh, he⟩ => (hp hh).2.1 he,
      if_neg fun ⟨hh, hlt⟩ => absurd (hp hh).2.2.1 (by omega)]
  have h3 : outputCause P (readDistance h) = none :=
    if_neg fun ⟨hh, hlt⟩ => by rw [readDistance_wp, readDistance_dstLen] at hlt; have := (hp hh).2.2.2; omega
  simp [checkedMatch, h1, h2, h3]

theorem checkedMatch_stop_source {P : Nat} {rule : Block c → Block c} {h : Block c} (hh : c.harden = true)
    (hlt : h.srcLen.toNat < h.sp.toNat + 2) : checkedMatch P rule h = raiseMalformed .srcOverrun h := by
  simp [checkedMatch, sourceCause, hh, hlt]

theorem checkedMatch_stop {P : Nat} {rule : Block c → Block c} {h : Block c} {cause : Cause} (hh : c.harden = true)
    (hle : h.sp.toNat + 2 ≤ h.srcLen.toNat) (hf : h.matchFailure P = some cause) :
    checkedMatch P rule h = raiseMalformed cause (readDistance h) := by
  have h0 : sourceCause 2 h = none := if_neg fun ⟨_, hlt⟩ => by omega
  unfold Block.matchFailure at hf
  split_ifs at hf with h1 h2 h3
  · simp [checkedMatch, h0, distanceCause, hh, h1, ← Option.some.inj hf]
  · have hd : distanceCause (readDistance h) = some .backrefUnderflow := by
      unfold distanceCause
      rw [readDistance_wp, readDistance_dist, if_neg fun ⟨_, he⟩ => h1 he, if_pos ⟨hh, h2⟩]
    simp [checkedMatch, h0, hd, ← Option.some.inj hf]
  · have hd : distanceCause (readDistance h) = none := by
      unfold distanceCause
      rw [readDistance_wp, readDistance_dist, if_neg fun ⟨_, he⟩ => h1 he, if_neg fun ⟨_, he⟩ => h2 he]
    simp [checkedMatch, h0, hd, outputCause, hh, h3, ← Option.some.inj hf]

/-- A checked match runs its rule after the distance byte was read, its checks holding, or raises with `HARDEN`, before or
after that read. -/
theorem checkedMatch_cases (P : Nat) (rule : Block c → Block c) (h : Block c) :
    (h.PassesMatch P ∧ checkedMatch P rule h = rule (readDistance h)) ∨
    (c.harden = true ∧ h.srcLen.toNat < h.sp.toNat + 2 ∧ checkedMatch P rule h = raiseMalformed .srcOverrun h) ∨
    (c.harden = true ∧ h.sp.toNat + 2 ≤ h.srcLen.toNat ∧ ∃ cause, h.matchFailure P = some cause ∧
      checkedMatch P rule h = raiseMalformed cause (readDistance h)) := by
  by_cases hh : c.harden = true
  · by_cases hlt : h.srcLen.toNat < h.sp.toNat + 2
    · exact .inr (.inl ⟨hh, hlt, checkedMatch_stop_source hh hlt⟩)
    · rcases hc : h.matchFailure P with _ | cause
      · have hp : h.PassesMatch P := by
          intro _
          unfold Block.matchFailure at hc
          split_ifs at hc with h1 h2 h3
          exact ⟨by omega, h1, by omega, by omega⟩
        exact .inl ⟨hp, checkedMatch_pass hp⟩
      · exact .inr (.inr ⟨hh, by omega, cause, rfl, checkedMatch_stop hh (by omega) hc⟩)
  · have hp : h.PassesMatch P := fun hh' => absurd hh' hh
    exact .inl ⟨hp, checkedMatch_pass hp⟩

/-! ### The step -/

/-- `exec` always answers a next state, of the same configuration. -/
theorem exec_next (i : Instr) (h : Block c) : ∃ h', exec i ⟨c, h⟩ = .next ⟨c, h'⟩ := by
  cases i <;> exact ⟨_, rfl⟩

theorem step_quiet {h : Block c} (hs : h.status ≠ .running) : step ⟨c, h⟩ = .next ⟨c, h⟩ := by
  have : fetch h = .quiet := by
    unfold fetch
    cases hst : h.status <;> simp_all
  simp [step, this]

theorem step_noDecoder {h : Block c} (hs : h.status = .running) (hd : c.decoder h.mode = none) :
    step ⟨c, h⟩ = .fault .noDecoder := by
  simp [step, fetch, hs, hd]

theorem step_overrun {h : Block c} {mode : Mode} (hs : h.status = .running) (hd : c.decoder h.mode = some mode)
    (hh : c.harden = true) (hlen : h.srcLen.toNat ≤ h.sp.toNat) :
    step ⟨c, h⟩ = .next ⟨c, raiseMalformed .srcOverrun h⟩ := by
  simp [step, fetch, hs, hd, fetchCause, hh, hlen]

theorem step_token {h : Block c} {mode : Mode} (hs : h.status = .running) (hd : c.decoder h.mode = some mode)
    (hlen : c.harden = true → h.sp.toNat < h.srcLen.toNat) :
    step ⟨c, h⟩ = exec (decodeTag mode h.tagByte) ⟨c, fetchTag h⟩ := by
  have : fetchCause h = none := if_neg fun ⟨hh, hle⟩ => by have := hlen hh; omega
  simp [step, fetch, hs, hd, this]

/-- All a step can do when it answers a next state. -/
theorem step_cases {h : Block c} {t : State} (hstep : step ⟨c, h⟩ = .next t) :
    (h.status ≠ .running ∧ t = ⟨c, h⟩) ∨
    (h.status = .running ∧ ∃ mode, c.decoder h.mode = some mode ∧
      ((c.harden = true ∧ h.srcLen.toNat ≤ h.sp.toNat ∧ t = ⟨c, raiseMalformed .srcOverrun h⟩) ∨
       ((c.harden = true → h.sp.toNat < h.srcLen.toNat) ∧
        exec (decodeTag mode h.tagByte) ⟨c, fetchTag h⟩ = .next t))) := by
  by_cases hs : h.status = .running
  · rcases hd : c.decoder h.mode with _ | mode
    · rw [step_noDecoder hs hd] at hstep; cases hstep
    · refine .inr ⟨hs, mode, rfl, ?_⟩
      by_cases hlen : c.harden = true ∧ h.srcLen.toNat ≤ h.sp.toNat
      · rw [step_overrun hs hd hlen.1 hlen.2] at hstep
        exact .inl ⟨hlen.1, hlen.2, (Host.Outcome.next.inj hstep).symm⟩
      · have hlen : c.harden = true → h.sp.toNat < h.srcLen.toNat := fun hh => by
          by_contra hlt
          exact hlen ⟨hh, by omega⟩
        exact .inr ⟨hlen, by rw [← step_token hs hd hlen]; exact hstep⟩
  · rw [step_quiet hs] at hstep
    exact .inl ⟨hs, (Host.Outcome.next.inj hstep).symm⟩

/-! ### Decoding -/

theorem decoder_code {v : BitVec 2} {mode : Mode} (hd : c.decoder v = some mode) : v = mode.code ∧ c.has mode = true := by
  unfold Config.decoder Mode.ofCode at hd
  split_ifs at hd with h0 h1 h2 <;> simp at hd <;> obtain ⟨hhas, rfl⟩ := hd <;> simp_all [Mode.code]

theorem decodeTag_mode (mode : Mode) (tag : Byte) : (decodeTag mode tag).mode = mode := by
  cases mode <;> simp only [decodeTag] <;> split_ifs <;> rfl

end Sys2Proof.Machine
end

