-- ==== Sys2Proof/Tests/Slice0.lean ====
section
/-! SUPPORT. The model's own tests. Expected values come from spec/: the worked examples of the token rules, 45_encoder_reference.md
R119, 95_test_vectors.md. The last part gives, for each statement with hypotheses, a concrete case that meets them. -/

-- One declaration after another: checked side by side, the tests below hold more waiting threads than the memory limit has stacks for.
set_option Elab.async false

namespace Sys2Proof.Tests

open Sys2Proof Sys2Proof.Machine

/-! ### WellFormed: one ill-formed term per check, and the boundary beside it -/

theorem test_wf_lzdLit : (Instr.lzdLit 0).wf = false ∧ (Instr.lzdLit 128).wf = false ∧ (Instr.lzdLit 127).wf = true := by decide
theorem test_wf_lzdMatch : (Instr.lzdMatch 128).wf = false ∧ (Instr.lzdMatch 0).wf = true := by decide
theorem test_wf_lzsLit : (Instr.lzsLit 0).wf = false ∧ (Instr.lzsLit 128).wf = false ∧ (Instr.lzsLit 1).wf = true := by decide
theorem test_wf_lzsMatch : (Instr.lzsMatch 128).wf = false ∧ (Instr.lzsMatch 127).wf = true := by decide
theorem test_wf_rleRun : (Instr.rleRun 1).wf = false ∧ (Instr.rleRun 65).wf = false ∧ (Instr.rleRun 64).wf = true := by decide
theorem test_wf_rleLit : (Instr.rleLit 0).wf = false ∧ (Instr.rleLit 65).wf = false ∧ (Instr.rleLit 1).wf = true := by decide
theorem test_wf_rleComb_run : (Instr.rleComb 0 1).wf = false ∧ (Instr.rleComb 9 1).wf = false ∧ (Instr.rleComb 8 1).wf = true := by
  decide
theorem test_wf_rleComb_litlen : (Instr.rleComb 1 0).wf = false ∧ (Instr.rleComb 1 17).wf = false ∧ (Instr.rleComb 1 16).wf = true := by
  decide

/-! ### Decode: tags written out from the layouts of 30_encoding.md R62 and R64 -/

/-- R62, layouts LZ-T, LZ-L (`0 ccccccc`), LZ-M (`1 lllllll`). -/
theorem test_decode_lzDirect :
    decodeTag .lzDirect 0b00000000#8 = .lzdEnd ∧ decodeTag .lzDirect 0b00000001#8 = .lzdLit 1 ∧
    decodeTag .lzDirect 0b01111111#8 = .lzdLit 127 ∧ decodeTag .lzDirect 0b10000000#8 = .lzdMatch 0 ∧
    decodeTag .lzDirect 0b11111111#8 = .lzdMatch 127 := by decide
/-- As above, in mode `LZ_SHADOW`. -/
theorem test_decode_lzShadow :
    decodeTag .lzShadow 0b00000000#8 = .lzsEnd ∧ decodeTag .lzShadow 0b00000010#8 = .lzsLit 2 ∧
    decodeTag .lzShadow 0b10000100#8 = .lzsMatch 4 := by decide
/-- R64 and the tag-to-count table of 95_test_vectors.md. -/
theorem test_decode_rle :
    decodeTag .rle 0x00#8 = .rleEnd ∧ decodeTag .rle 0x01#8 = .rleRun 2 ∧ decodeTag .rle 0x3F#8 = .rleRun 64 ∧
    decodeTag .rle 0x40#8 = .rleLit 1 ∧ decodeTag .rle 0x7F#8 = .rleLit 64 ∧ decodeTag .rle 0x80#8 = .rleComb 1 1 ∧
    decodeTag .rle 0x8F#8 = .rleComb 1 16 ∧ decodeTag .rle 0xF0#8 = .rleComb 8 1 ∧
    decodeTag .rle 0xFF#8 = .rleComb 8 16 := by decide
/-- 30_encoding.md R74: the byte column. -/
theorem test_encode :
    encode (.lzdLit 3) = 0x03#8 ∧ encode (.lzdMatch 6) = 0x86#8 ∧ encode (.rleRun 2) = 0x01#8 ∧
    encode (.rleLit 3) = 0x42#8 ∧ encode (.rleComb 3 4) = 0xA3#8 := by decide
/-- `MODE` 3 and an empty byte sequence are refused by name. -/
theorem test_decode_refusals :
    decode Config.default 3 [0x00#8] = .error .reservedMode ∧ decode Config.default 0 [] = .error .noTag ∧
    decode { Config.default with hasRle := false } 2 [0x00#8] = .error .absentMode := by decide
/-- Table words under `MODE = LZ_DIRECT` and, for the other rows, in their own mode. -/
theorem test_decodeTableWord :
    decodeTableWord 8 0x00 = some .lzdEnd ∧ decodeTableWord 8 0x7F = some (.lzdLit 127) ∧
    decodeTableWord 8 0x84 = some (.lzdMatch 4) ∧ decodeTableWordIn .rle 8 0xA3 = some (.rleComb 3 4) := by decide +kernel

/-! ### Small states -/

/-- Memory cells at consecutive addresses. -/
def cells (base : Nat) (bytes : List Byte) : Memory := bytes.mapIdx fun j v => (base + j, v)

/-- The default instance with the checks of 60_exceptions.md section 2. -/
def hard : Config := { Config.default with harden := true }

/-- A shadow buffer that mirrors `out`. -/
def mirrorOf (out : List Byte) : Vector (Option Byte) 256 := ⟨⟨(List.range 256).map fun j => out[j]?⟩, by simp⟩

/-- A call in progress: the stream at 0x2000, the output so far at 0x4000 (and mirrored), the next tag at offset `sp`. -/
def call (c : Config) (mode : Mode) (stream out : List Byte) (sp srcLen dstLen : Nat) : Block c :=
  { (State.resetOf c).block with
    src := BitVec.ofNat c.aw 0x2000, dst := BitVec.ofNat c.aw 0x4000, mode := mode.code, status := .running
    srcLen := BitVec.ofNat c.aw srcLen, dstLen := BitVec.ofNat c.aw dstLen
    sp := BitVec.ofNat c.aw sp, wp := BitVec.ofNat c.aw out.length
    b := BitVec.ofNat 8 out.length, buf := mirrorOf out
    mem := cells 0x2000 stream ++ cells 0x4000 out }

/-- `sp`, `wp` and the bytes at 0x4000 upward, while `RUNNING`. -/
def going : Host.Outcome State Fault Refusal → Option (Nat × Nat × List Byte)
  | .next s => if s.block.status = .running then
      some (s.block.sp.toNat, s.block.wp.toNat, (s.block.mem.filter fun x => 0x4000 ≤ x.1).map Prod.snd) else none
  | _ => none

/-- `RESULT` and `WPOS` in `DONE`. -/
def finished : Host.Outcome State Fault Refusal → Option (Nat × Nat)
  | .next s => if s.block.status = .done then some (s.block.result.toNat, s.block.wpos.toNat) else none
  | _ => none

/-- `CAUSE`, `WPOS`, `sp` and the bytes at 0x4000 upward, in `FAULT`. -/
def stopped : Host.Outcome State Fault Refusal → Option (Nat × Nat × Nat × List Byte)
  | .next s => if s.block.status = .fault then
      some (s.block.cause.toNat, s.block.wpos.toNat, s.block.sp.toNat,
        (s.block.mem.filter fun x => 0x4000 ≤ x.1).map Prod.snd) else none
  | _ => none

/-- `b`, `i` and the first `n` entries of the shadow buffer. -/
def shadow (n : Nat) : Host.Outcome State Fault Refusal → Option (Nat × Nat × List (Option Byte))
  | .next s => some (s.block.b.toNat, s.block.i.toNat, s.block.buf.toList.take n)
  | _ => none

/-- One step of such a call. -/
def stepOf {c : Config} (h : Block c) : Host.Outcome State Fault Refusal := step ⟨c, h⟩

/-! ### One step per token -/

/-- R80, example: stream `00`. -/
theorem test_lzdEnd : finished (stepOf (call Config.default .lzDirect [0x00] [] 0 0 0)) = some (1, 0) := by decide +kernel
/-- R81, example: `03 41 42 43`. -/
theorem test_lzdLit : going (stepOf (call Config.default .lzDirect [0x03, 0x41, 0x42, 0x43] [] 0 0 0)) =
    some (4, 3, [0x41, 0x42, 0x43]) := by decide +kernel
/-- R82, example: `wp = 2`, `AB CD`, token `86 02`. -/
theorem test_lzdMatch : going (stepOf (call Config.default .lzDirect [0x86, 0x02] [0xAB, 0xCD] 0 0 0)) =
    some (2, 8, [0xAB, 0xCD, 0xAB, 0xCD, 0xAB, 0xCD, 0xAB, 0xCD]) := by decide +kernel
/-- V-M1, second token: `dist = 3 > wp = 1` reads 0x3FFE and 0x3FFF. -/
theorem test_lzdMatch_below :
    going (stepOf { call Config.default .lzDirect [0x84, 0x03] [] 0 0 0 with
      wp := 1, mem := cells 0x2000 [0x84, 0x03] ++ cells 0x3FFE [0xE0, 0xE1, 0x05, 0xF1, 0xF2, 0xF3, 0xF4] }) =
    some (2, 5, [0x05, 0xE0, 0xE1, 0x05, 0xE0]) := by decide +kernel
/-- R91, example: stream `00`, `b = 0`. -/
theorem test_lzsEnd : finished (stepOf (call Config.default .lzShadow [0x00] [] 0 0 0)) = some (1, 0) := by decide +kernel
/-- R92, example: `02 AB CD`. -/
theorem test_lzsLit :
    going (stepOf (call Config.default .lzShadow [0x02, 0xAB, 0xCD] [] 0 0 0)) = some (3, 2, [0xAB, 0xCD]) ∧
    shadow 3 (stepOf (call Config.default .lzShadow [0x02, 0xAB, 0xCD] [] 0 0 0)) =
      some (2, 0, [some 0xAB, some 0xCD, none]) := by decide +kernel
/-- R93, example: `86 02` after `AB CD`: `b = 8`, `i = 6`. -/
theorem test_lzsMatch :
    going (stepOf (call Config.default .lzShadow [0x86, 0x02] [0xAB, 0xCD] 0 0 0)) =
      some (2, 8, [0xAB, 0xCD, 0xAB, 0xCD, 0xAB, 0xCD, 0xAB, 0xCD]) ∧
    shadow 9 (stepOf (call Config.default .lzShadow [0x86, 0x02] [0xAB, 0xCD] 0 0 0)) =
      some (8, 6, [some 0xAB, some 0xCD, some 0xAB, some 0xCD, some 0xAB, some 0xCD, some 0xAB, some 0xCD, none]) := by
  decide +kernel
/-- P2 part b, last match: `b = 3`, `dist = 5`, `i` starts at 254 and wraps. -/
theorem test_lzsMatch_wraps :
    shadow 10 (stepOf { call Config.default .lzShadow [0x86, 0x05] [0xC1, 0xC2, 0xC3] 0 0 0 with
      buf := ((mirrorOf [0xC1, 0xC2, 0xC3]).set 254 (some 0xB1)).set 255 (some 0xB2) }) =
    some (9, 4, [some 0xC1, some 0xC2, some 0xC3, some 0xB1, some 0xB2, some 0xC1, some 0xC2, some 0xC3, some 0xB1, none]) := by
  decide +kernel
/-- R100 and V-RLE1: stream `00`. -/
theorem test_rleEnd : finished (stepOf (call Config.default .rle [0x00] [] 0 0 0)) = some (1, 0) := by decide +kernel
/-- R101, example: `01 AA`. -/
theorem test_rleRun : going (stepOf (call Config.default .rle [0x01, 0xAA] [] 0 0 0)) = some (2, 2, [0xAA, 0xAA]) := by
  decide +kernel
/-- R102, example: `42 01 02 03`. -/
theorem test_rleLit : going (stepOf (call Config.default .rle [0x42, 0x01, 0x02, 0x03] [] 0 0 0)) =
    some (4, 3, [0x01, 0x02, 0x03]) := by decide +kernel
/-- R103, example: `A3 09 0A 0B 0C 0D`. -/
theorem test_rleComb : going (stepOf (call Config.default .rle [0xA3, 0x09, 0x0A, 0x0B, 0x0C, 0x0D] [] 0 0 0)) =
    some (6, 7, [0x09, 0x09, 0x09, 0x0A, 0x0B, 0x0C, 0x0D]) := by decide +kernel

/-! ### The hardened block, 95_test_vectors.md V-H -/

/-- V-H1 and V-H9: the last match passes at the exact lengths. -/
theorem test_hard_passes :
    going (stepOf (call hard .lzDirect [0x01, 0x05, 0x89, 0x01, 0x00] [0x05] 2 5 10)) =
      some (4, 10, List.replicate 10 0x05) ∧
    going (stepOf (call hard .lzDirect [0x01, 0xAA, 0x80, 0x01, 0x00] [0xAA] 2 5 1)) = some (4, 1, [0xAA]) := by decide +kernel
/-- V-H2 and V-H3: `DST_OVERFLOW` and `BACKREF_UNDERFLOW`. -/
theorem test_hard_match :
    stopped (stepOf (call hard .lzDirect [0x01, 0x05, 0x89, 0x01, 0x00] [0x05] 2 5 9)) = some (1, 1, 2, [0x05]) ∧
    stopped (stepOf (call hard .lzDirect [0x01, 0x05, 0x84, 0x02, 0x00] [0x05] 2 5 64)) = some (0, 1, 2, [0x05]) := by
  decide +kernel
/-- V-H4 and V-H8: `ZERO_DISTANCE`; the checks apply to a match of length 0. -/
theorem test_hard_match_corners :
    stopped (stepOf (call hard .lzShadow [0x01, 0x05, 0x84, 0x00, 0x00] [0x05] 2 5 64)) = some (3, 1, 2, [0x05]) ∧
    stopped (stepOf (call hard .lzDirect [0x01, 0xAA, 0x80, 0x05, 0x00] [0xAA] 2 5 1)) = some (0, 1, 2, [0xAA]) := by
  decide +kernel
/-- V-H5, V-H6, V-H7: the length checks, before the fetch and after it. -/
theorem test_hard_lengths :
    stopped (stepOf (call hard .lzDirect [0x03, 0x41, 0x42] [] 0 3 64)) = some (2, 0, 0, []) ∧
    stopped (stepOf (call hard .rle [0x01, 0xAA] [0xAA, 0xAA] 2 2 64)) = some (2, 2, 2, [0xAA, 0xAA]) ∧
    stopped (stepOf (call hard .rle [0xA3, 0x09, 0x0A, 0x0B, 0x0C, 0x0D, 0x00] [] 0 7 6)) = some (1, 0, 0, []) := by
  decide +kernel

/-! ### The word the host places, and the encoder -/

/-- A table word placed after reset runs as the first token. -/
theorem test_withFetchWord :
    finished (step (State.reset.withFetchWord 8 0x00)) = some (1, 0) ∧
    (going (step (State.reset.withFetchWord 8 0x03))).map (fun x => (x.1, x.2.1)) = some (4, 3) ∧
    (going (step (State.reset.withFetchWord 8 0x84))).map (fun x => (x.1, x.2.1)) = some (2, 4) := by decide +kernel
/-- 45_encoder_reference.md R119, rows 1 to 4, 6 and 7 (row 4 with `77`, as 95_test_vectors.md S4). -/
theorem test_compress :
    RefEncoder.compress [] = [0x00] ∧ RefEncoder.compress [0x41] = [0x01, 0x41, 0x00] ∧
    RefEncoder.compress (List.replicate 10 0x05) = [0x01, 0x05, 0x89, 0x01, 0x00] ∧
    RefEncoder.compress (List.replicate 50 0x77) = [0x01, 0x77, 0xB1, 0x01, 0x00] ∧
    RefEncoder.compress [0x61, 0x62, 0x63, 0x61, 0x62, 0x63, 0x61, 0x62, 0x63] = [0x03, 0x61, 0x62, 0x63, 0x86, 0x03, 0x00] ∧
    RefEncoder.compress [0x61, 0x62, 0x63, 0x58, 0x61, 0x62, 0x63] =
      [0x07, 0x61, 0x62, 0x63, 0x58, 0x61, 0x62, 0x63, 0x00] := by decide +kernel

/-! ### Cases that meet the hypotheses of the statements -/

/-- A literal of two bytes at the end of both lengths of a hardened instance. -/
def litCall (mode : Mode) : Block hard := call hard mode [0x02, 0xAB, 0xCD] [] 0 3 2
/-- A match of length 6 at distance 2 behind `AB CD`, at the end of both lengths of a hardened instance. -/
def matchCall (mode : Mode) : Block hard := call hard mode [0x86, 0x02] [0xAB, 0xCD] 0 2 8
/-- A match of length 4 at distance 0 behind `AB`, without the checks. -/
def zeroCall (mode : Mode) : Block Config.default := call Config.default mode [0x84, 0x00] [0xAB] 0 0 0

theorem witness_LzTagMap :
    (0x00#8).toNat = 0x00 ∧ (0x01 ≤ (0x01#8).toNat ∧ (0x01#8).toNat ≤ 0x7F) ∧ (0x01 ≤ (0x7F#8).toNat ∧ (0x7F#8).toNat ≤ 0x7F) ∧
    0x80 ≤ (0x80#8).toNat ∧ 0x80 ≤ (0xFF#8).toNat := by decide
theorem witness_RleTagMap :
    (0x00#8).toNat = 0x00 ∧ (0x01 ≤ (0x3F#8).toNat ∧ (0x3F#8).toNat ≤ 0x3F) ∧ (0x40 ≤ (0x40#8).toNat ∧ (0x40#8).toNat ≤ 0x7F) ∧
    (0x40 ≤ (0x7F#8).toNat ∧ (0x7F#8).toNat ≤ 0x7F) ∧ 0x80 ≤ (0x80#8).toNat := by decide
theorem witness_DecodeOfEncode : (Instr.rleComb 8 16).wf = true ∧ (Instr.rleRun 2).wf = true ∧ (Instr.lzdMatch 127).wf = true := by
  decide

theorem witness_StepRunsFetchedToken :
    (litCall .lzDirect).status = .running ∧ hard.decoder (litCall .lzDirect).mode = some .lzDirect ∧
    (hard.harden = true → (litCall .lzDirect).sp.toNat < (litCall .lzDirect).srcLen.toNat) := by decide +kernel
theorem witness_StepRunsDecodedBytes :
    (litCall .rle).status = .running ∧ (hard.harden = true → (litCall .rle).sp.toNat < (litCall .rle).srcLen.toNat) ∧
    decode hard (litCall .rle).mode ((litCall .rle).tagByte :: [0xAB#8]) = .ok (.rleRun 3, [0xAB#8]) := by decide +kernel
theorem witness_NoDecoderStops :
    { litCall .rle with mode := 3 }.status = .running ∧ hard.decoder { litCall .rle with mode := 3 }.mode = none := by
  decide +kernel
theorem witness_StatusMovesAsListed :
    (∃ t, step State.reset = .next t) ∧ State.reset.block.status ≠ .running ∧
    (∃ t, stepOf (litCall .rle) = .next t) ∧ (litCall .rle).status = .running ∧
    (∃ h', hostAct .reset (litCall .rle) = .next h') ∧ (∃ h', hostAct .start (litCall .rle) = .next h') ∧
    (∃ h', hostAct (.writeSrc 7) (litCall .rle) = .next h') ∧
    (∃ v h', hostRead .status (litCall .rle) = .ok (v, h')) ∧ (∃ v h', hostRead .result (litCall .rle) = .ok (v, h')) :=
  ⟨⟨_, rfl⟩, by decide, ⟨_, rfl⟩, rfl, ⟨_, rfl⟩, ⟨_, rfl⟩, ⟨_, rfl⟩, ⟨_, _, rfl⟩, ⟨_, _, rfl⟩⟩
theorem witness_CallEndsExactlyAtZeroTag :
    (zeroCall .rle).status = .running ∧ Config.default.harden = false ∧ (∃ t, stepOf (zeroCall .rle) = .next t) ∧
    (call Config.default .lzDirect [0x00] [] 0 0 0).tagByte = 0x00#8 := ⟨rfl, rfl, ⟨_, rfl⟩, by decide +kernel⟩

/-- `LzdLitCopies`, `LzsLitMirrors`: with the checks, at equality in both. -/
theorem witness_LitPasses : (litCall .lzDirect).PassesLengths (1 + (2#8).toNat) (2#8).toNat := by
  unfold Block.PassesLengths; decide +kernel
/-- `LzdMatchCopies`, `LzsMatchMirrors`, `MatchRepeatsPeriodically`: with the checks, at equality in the lengths and with the
distance equal to `wp`. -/
theorem witness_MatchPasses :
    (matchCall .lzDirect).PassesMatch (6#8).toNat ∧ 1 ≤ (matchCall .lzDirect).secondByte.toNat ∧
    ∃ h', exec (.lzdMatch 6) ⟨hard, matchCall .lzDirect⟩ = .next ⟨hard, h'⟩ := by
  unfold Block.PassesMatch; exact ⟨by decide +kernel, by decide +kernel, _, rfl⟩
/-- The clauses of `ForwardCopy` in `LzdMatchCopies`: byte 0 has a source no earlier byte hits, byte 2 reads byte 0. -/
theorem witness_ForwardCopy :
    (matchCall .lzDirect).outAddr 0 = (matchCall .lzDirect).backAddr (matchCall .lzDirect).secondByte 2 ∧
    (∀ j < 1, (matchCall .lzDirect).outAddr j ≠ (matchCall .lzDirect).backAddr (matchCall .lzDirect).secondByte 1) := by
  decide +kernel
/-- The clauses of `LzsMatchMirrors`: an entry this token wrote, a written entry, an unwritten entry. -/
theorem witness_LzsMatchMirrors :
    (matchCall .lzShadow).PassesMatch (6#8).toNat ∧
    (matchCall .lzShadow).b + BitVec.ofNat 8 0 = (matchCall .lzShadow).b - (matchCall .lzShadow).secondByte + BitVec.ofNat 8 2 ∧
    (∀ j < 1, (matchCall .lzShadow).b + BitVec.ofNat 8 j ≠
      (matchCall .lzShadow).b - (matchCall .lzShadow).secondByte + BitVec.ofNat 8 1) ∧
    (matchCall .lzShadow).entry ((matchCall .lzShadow).b - (matchCall .lzShadow).secondByte + BitVec.ofNat 8 1) = some 0xCD ∧
    (zeroCall .lzShadow).entry ((zeroCall .lzShadow).b - (zeroCall .lzShadow).secondByte + BitVec.ofNat 8 0) = none := by
  unfold Block.PassesMatch; decide +kernel
theorem witness_RleRunFills : (call hard .rle [0x01, 0xAA] [] 0 2 2).PassesLengths 2 (2#8).toNat := by
  unfold Block.PassesLengths; decide +kernel
theorem witness_RleLitCopies : (litCall .rle).PassesLengths (1 + (2#8).toNat) (2#8).toNat := by
  unfold Block.PassesLengths; decide +kernel
/-- With the checks at equality; and a literal byte whose source is a byte of the run (regions that overlap). -/
theorem witness_RleCombFillsThenCopies :
    (call hard .rle [0xA3, 0x09, 0x0A, 0x0B, 0x0C, 0x0D] [] 0 6 7).PassesLengths (2 + (4#8).toNat) ((3#8).toNat + (4#8).toNat) ∧
    { call hard .rle [0xA3] [] 0 6 7 with dst := 0x2000 }.outAddr 2 = { call hard .rle [0xA3] [] 0 6 7 with dst := 0x2000 }.payloadAddr 2 0 ∧
    (∀ j < 3, (call hard .rle [0xA3] [] 0 6 7).outAddr j ≠ (call hard .rle [0xA3] [] 0 6 7).payloadAddr 2 0) := by
  unfold Block.PassesLengths; decide +kernel
theorem witness_ZeroDistanceDirectKeepsMemory :
    Config.default.harden = false ∧ (zeroCall .lzDirect).secondByte = 0#8 := by decide +kernel
/-- `b = 1`, and the 256 entries of an earlier output of this call. -/
theorem witness_ZeroDistanceShadowRepeatsBuffer :
    Config.default.harden = false ∧ (zeroCall .lzShadow).secondByte = 0#8 ∧
    { zeroCall .lzShadow with buf := Vector.replicate 256 (some 0x55#8) }.entry ((zeroCall .lzShadow).b + BitVec.ofNat 8 0) =
      some 0x55 := by decide +kernel

theorem witness_CursorsAdvanceByToken :
    (litCall .lzDirect).status = .running ∧
    ∃ h', exec (.lzdLit 2) ⟨hard, litCall .lzDirect⟩ = .next ⟨hard, h'⟩ ∧ h'.status ≠ .fault := ⟨rfl, _, rfl, by decide +kernel⟩
/-- The three conditional clauses of `TokenFrame`. -/
theorem witness_TokenFrame :
    (∃ h', exec (.lzsLit 3) ⟨hard, litCall .lzShadow⟩ = .next ⟨hard, h'⟩ ∧ h'.status = .fault) ∧
    (litCall .lzShadow).status = .running ∧ (Instr.rleRun 2).mode ≠ .lzShadow := ⟨⟨_, rfl, by decide +kernel⟩, rfl, by decide⟩
theorem witness_AccessesPerToken :
    (matchCall .lzShadow).status = .running ∧ hard.decoder (matchCall .lzShadow).mode = some .lzShadow ∧
    decodeTag .lzShadow (matchCall .lzShadow).tagByte = .lzsMatch 6 ∧
    ∃ h', step ⟨hard, matchCall .lzShadow⟩ = .next ⟨hard, h'⟩ ∧ h'.status ≠ .fault :=
  ⟨rfl, by decide, by decide +kernel, _, rfl, by decide +kernel⟩
theorem witness_AccessKindsFollowMode :
    (∃ h', step ⟨hard, litCall .rle⟩ = .next ⟨hard, h'⟩) ∧ (litCall .rle).mode ≠ Mode.lzDirect.code ∧
    (litCall .rle).mode ≠ Mode.lzShadow.code := ⟨⟨_, rfl⟩, by decide, by decide⟩

/-- Both causes, each at the first value that fails. -/
theorem witness_LengthChecksRaise :
    hard.harden = true ∧ (litCall .rle).lengthsFailure (Instr.rleLit 3).length (Instr.rleLit 3).output = some .srcOverrun ∧
    (litCall .rle).lengthsFailure (Instr.rleRun 3).length (Instr.rleRun 3).output = some .dstOverflow := by decide +kernel
/-- The second clauses of the statements about `LZD.LIT`, `LZS.LIT`, `RLE.LIT`, `RLE.RUN` and `RLE.COMB`. -/
theorem witness_StopsOnLengths :
    hard.harden = true ∧
    (litCall .lzDirect).lengthsFailure (Instr.lzdLit 3).length (Instr.lzdLit 3).output = some .srcOverrun ∧
    (litCall .lzShadow).lengthsFailure (Instr.lzsLit 3).length (Instr.lzsLit 3).output = some .srcOverrun ∧
    (litCall .rle).lengthsFailure (Instr.rleComb 3 1).length (Instr.rleComb 3 1).output = some .dstOverflow := by decide +kernel
/-- The four causes, each at the first value that fails (also the second clauses of the statements about `LZD.MATCH` and
`LZS.MATCH`). -/
theorem witness_MatchChecksRaise :
    hard.harden = true ∧ ((call hard .lzDirect [0x84, 0x01] [0xAB] 0 1 9).srcLen.toNat < (call hard .lzDirect [0x84, 0x01] [0xAB] 0 1 9).sp.toNat + 2) ∧
    ((matchCall .lzShadow).sp.toNat + 2 ≤ (matchCall .lzShadow).srcLen.toNat ∧ (matchCall .lzShadow).matchFailure (7#8).toNat = some .dstOverflow) ∧
    (call hard .lzDirect [0x84, 0x00] [0xAB] 0 2 9).matchFailure 4 = some .zeroDistance ∧
    (call hard .lzDirect [0x84, 0x02] [0xAB] 0 2 9).matchFailure 4 = some .backrefUnderflow := by decide +kernel
theorem witness_FetchPastSourceRaises :
    hard.harden = true ∧ (call hard .rle [] [] 2 2 9).status = .running ∧ (hard.decoder (call hard .rle [] [] 2 2 9).mode).isSome = true ∧
    (call hard .rle [] [] 2 2 9).srcLen.toNat ≤ (call hard .rle [] [] 2 2 9).sp.toNat := by decide +kernel
theorem witness_NoFaultWithoutHarden :
    Config.default.harden = false ∧ (zeroCall .lzDirect).HasDecoder ∧ (zeroCall .lzDirect).status ≠ .fault :=
  ⟨rfl, fun _ => by decide, by decide⟩
theorem witness_HardenedAgreesWithOriginal :
    (matchCall .lzDirect).status ≠ .fault ∧
    ∃ h', step ⟨hard, matchCall .lzDirect⟩ = .next ⟨hard, h'⟩ ∧ h'.status ≠ .fault := ⟨by decide, _, rfl, by decide +kernel⟩
theorem witness_HardenedCallEnds :
    hard.harden = true ∧ (litCall .rle).status = .running ∧ (hard.decoder (litCall .rle).mode).isSome = true := by decide

/-! The invariants: a call that has just begun, and its first step. -/

/-- START in a hardened instance, on the stream `02 AB CD 86 02 00`. -/
def begun (mode : Mode) : Block hard := enterCall (call hard mode [0x02, 0xAB, 0xCD, 0x86, 0x02, 0x00] [] 0 6 8)

theorem witness_Moves (mode : Mode) : ∃ h', Moves ⟨hard, begun mode⟩ ⟨hard, h'⟩ ∧ step ⟨hard, begun mode⟩ = .next ⟨hard, h'⟩ := by
  cases mode <;> exact ⟨_, .engine rfl, rfl⟩
theorem witness_MovesKeepMemoryOk : (begun .rle).MemoryOk := ⟨by decide +kernel, by decide +kernel⟩
theorem witness_ExactAccess (mode : Mode) : (begun mode).ExactAccess :=
  ⟨fun _ => rfl, fun _ => rfl, fun _ => rfl, fun _ => rfl, (nomatch ·), (fun h => by rcases h with h | h <;> cases h)⟩
/-- The token after the first: the buffer holds `AB CD` behind the cursor. -/
theorem witness_MovesKeepMirror :
    (∃ h', Moves ⟨hard, { matchCall .lzShadow with trace := [.dstWrite 0 0xAB, .dstWrite 1 0xCD] }⟩ ⟨hard, h'⟩) ∧
    { matchCall .lzShadow with trace := [.dstWrite 0 0xAB, .dstWrite 1 0xCD] }.Mirrors := by
  refine ⟨⟨_, .engine rfl⟩, fun _ _ => ⟨rfl, fun j h1 h2 => ?_⟩⟩
  have : j = 1 ∨ j = 2 := by simp [output, dstWrites] at h2; omega
  rcases this with rfl | rfl <;> decide +kernel
theorem witness_StepsKeepOutput (mode : Mode) :
    (∃ t, step ⟨hard, begun mode⟩ = .next t) ∧ (begun mode).ExactAccess ∧ (begun mode).HoldsOutput :=
  ⟨by cases mode <;> exact ⟨_, rfl⟩, witness_ExactAccess mode,
    fun j h1 h2 => by simp [begun, enterCall, output, dstWrites] at h2; omega⟩
theorem witness_MovesKeepWithinLengths : (litCall .rle).WithinLengths ∧ ∃ h', Moves ⟨hard, litCall .rle⟩ ⟨hard, h'⟩ :=
  ⟨fun _ _ => by decide +kernel, _, .engine rfl⟩
theorem witness_MovesKeepLegalStatus :
    (litCall .rle).HasDecoder ∧ (litCall .rle).FaultNeedsHarden ∧ ∃ h', Moves ⟨hard, litCall .rle⟩ ⟨hard, h'⟩ :=
  ⟨fun _ => by decide, (nomatch ·), _, .host (.writeSrc 7) rfl⟩
/-- START after reset, in the default instance. -/
theorem witness_NoReachableStateStops :
    Reachable ⟨Config.default, enterCall (State.resetOf Config.default).block⟩ :=
  .move (.reset _) (.host .start rfl)

/-! The two LZ decoders: the same two calls, on a literal, a match and the terminator. -/

theorem witness_SameCall : (begun .lzDirect).SameCall (begun .lzShadow) where
  direct := rfl
  shadow := rfl
  src := rfl
  dst := rfl
  srcLen := rfl
  dstLen := rfl
  status := rfl
  sp := rfl
  wp := rfl
  mem := rfl
  reads := rfl
  writes := rfl
  result := (nomatch ·)
  wpos := fun h => by rcases h with h | h <;> cases h
  cause := (nomatch ·)
  notIdle := (nomatch ·)
  exact := witness_ExactAccess .lzDirect
  held := (witness_StepsKeepOutput .lzDirect).2.2
  mirror := fun _ _ => ⟨rfl, fun j h1 h2 => by simp [begun, enterCall, output, dstWrites] at h2; omega⟩

/-- Whether the token at hand is inside the contract, when there is one. -/
def fine : Host.Outcome State Fault Refusal → Bool
  | .next s => s.block.status != .running || s.block.tagByte &&& 0x80#8 == 0#8 ||
      (s.block.secondByte != 0#8 && decide (s.block.secondByte.toNat ≤ s.block.wp.toNat))
  | _ => true

/-- Whether the engine is at rest. -/
def atRest : Host.Outcome State Fault Refusal → Bool
  | .next s => s.block.status != .running
  | _ => true

/-- Whether a run has not stopped. -/
def hasNext : Host.Outcome State Fault Refusal → Bool
  | .next _ => true
  | _ => false

theorem run_atRest (n : Nat) (s : State) (h : s.block.status ≠ .running) : Sys2Proof.core.run n s = .next s := by
  induction n with
  | zero => rfl
  | succ n ih =>
    have hs : Sys2Proof.core.step s = .next s := step_quiet (c := s.cfg) (h := s.block) h
    simp only [Host.Core.run, hs, ih]

theorem run_add (m n : Nat) (s t : State) (h : Sys2Proof.core.run m s = .next t) :
    Sys2Proof.core.run (m + n) s = Sys2Proof.core.run n t := by
  induction m generalizing s with
  | zero => cases h; rw [Nat.zero_add]
  | succ m ih =>
    rw [Nat.succ_add]
    simp only [Host.Core.run] at h ⊢
    rcases hs : Sys2Proof.core.step s with s' | r | r
    · rw [hs] at h; exact ih s' h
    · rw [hs] at h; cases h
    · rw [hs] at h; cases h

/-- The stream `02 AB CD 86 02 00` is well-formed at every point of the call. -/
theorem witness_ShadowCallAgreesWithDirect (n : Nat) (g : Block hard)
    (hrun : Sys2Proof.core.run n ⟨hard, begun .lzDirect⟩ = .next (⟨hard, g⟩ : State)) (hg : g.status = .running) :
    g.TokenWellFormed := by
  have hfine : fine (Sys2Proof.core.run n ⟨hard, begun .lzDirect⟩) = true := by
    rcases Nat.lt_or_ge n 3 with hlt | hge
    · have : n = 0 ∨ n = 1 ∨ n = 2 := by omega
      rcases this with rfl | rfl | rfl <;> decide +kernel
    · obtain ⟨j, rfl⟩ := Nat.exists_eq_add_of_le hge
      have hrest : atRest (Sys2Proof.core.run 3 ⟨hard, begun .lzDirect⟩) = true := by decide +kernel
      rcases h3 : Sys2Proof.core.run 3 ⟨hard, begun .lzDirect⟩ with t | r | r
      · have ht : t.block.status ≠ .running := by simpa [h3, atRest] using hrest
        rw [run_add 3 j _ t h3, run_atRest j t ht]
        simp [fine, ht]
      · have : hasNext (Sys2Proof.core.run 3 ⟨hard, begun .lzDirect⟩) = true := by decide +kernel
        rw [h3] at this; cases this
      · have : hasNext (Sys2Proof.core.run 3 ⟨hard, begun .lzDirect⟩) = true := by decide +kernel
        rw [h3] at this; cases this
  rw [hrun] at hfine
  intro htag
  simpa [fine, hg, htag] using hfine

theorem witness_ShadowStepAgreesWithDirect :
    hard.hasLzDirect = true ∧ hard.hasLzShadow = true ∧ (begun .lzDirect).SameCall (begun .lzShadow) ∧
    ((begun .lzDirect).status = .running → (begun .lzDirect).TokenWellFormed) ∧ (matchCall .lzDirect).TokenWellFormed :=
  ⟨rfl, rfl, witness_SameCall, witness_ShadowCallAgreesWithDirect 0 _ rfl, fun _ => by decide +kernel⟩

/-- What `CanonicalFrom` shuts out (30_encoding.md R71): a distance past the output, and a match of length 3. -/
theorem test_canonical_refuses_far_match : ¬ CanonicalFrom 0 [0x84, 0x01, 0x00] := by
  intro h
  generalize hs : [0x84#8, 0x01#8, 0x00#8] = s at h
  cases h with
  | terminator => simp at hs
  | literal _ payload rest _ hle =>
    have := congrArg BitVec.toNat (List.cons.inj hs).1
    simp at this; omega
  | backReference => omega
theorem test_canonical_refuses_short_match : ¬ CanonicalFrom 9 [0x83, 0x01, 0x00] := by
  intro h
  generalize hs : [0x83#8, 0x01#8, 0x00#8] = s at h
  cases h with
  | terminator => simp at hs
  | literal _ payload rest _ hle =>
    have := congrArg BitVec.toNat (List.cons.inj hs).1
    simp at this; omega
  | backReference _ length distance rest hlo hhi =>
    have tag : ∀ n : Fin 128, 0x83#8 = 0x80#8 ||| BitVec.ofNat 8 n.val → n.val < 4 := by decide
    have := tag ⟨length, by omega⟩ (List.cons.inj hs).1
    simp at this; omega

/-- S6 of 95_test_vectors.md: ten fives, in a hardened instance with the exact lengths. -/
def fives (mode : Mode) : Block hard := call hard mode [0x01, 0x05, 0x89, 0x01, 0x00] [] 0 5 10
theorem witness_fives_stream : [0x01#8, 0x05, 0x89, 0x01, 0x00] = RefEncoder.compress (List.replicate 10 0x05#8) := by decide +kernel
/-- `DirectRoundTrip`, `ShadowRoundTrip`, `EncoderTokensAreWellFormed`. -/
theorem witness_BeginsOn (mode : Mode) : (fives mode).BeginsOn mode (List.replicate 10 0x05#8) [0x01#8, 0x05, 0x89, 0x01, 0x00] where
  running := rfl
  decoder := by cases mode <;> decide
  sp := rfl
  wp := rfl
  streamFits := by decide
  sourceFits := by decide
  lengths := fun _ => by cases mode <;> decide
  apart := by
    have : ∀ j < 5, ∀ k < 10, (fives mode).srcAddr (BitVec.ofNat hard.aw j) ≠ (fives mode).dstAddr (BitVec.ofNat hard.aw k) := by
      cases mode <;> decide +kernel
    exact fun j k hj hk => this j hj k hk
  held := by cases mode <;> decide +kernel
theorem witness_EncoderTokensAreWellFormed :
    Mode.lzShadow ≠ .rle ∧ Sys2Proof.core.run 0 ⟨hard, fives .lzShadow⟩ = .next (⟨hard, fives .lzShadow⟩ : State) ∧
    (fives .lzShadow).status = .running := ⟨by decide, rfl, rfl⟩

/-! The host's moves. -/

theorem witness_MovesKeepConfig : ∃ t, Moves ⟨hard, litCall .rle⟩ t := ⟨_, .engine rfl⟩
/-- The three clauses of `StartCommand`. -/
theorem witness_StartCommand :
    ({ litCall .rle with status := .done }.status ≠ .running ∧ (hard.decoder (litCall .rle).mode).isSome = true) ∧
    (litCall .rle).status = .running ∧ hard.decoder { litCall .rle with mode := 3 }.mode = none := by decide
theorem witness_OperandWritesIgnoredInCall : (litCall .rle).status = .running ∧ hard.harden = true := by decide
theorem witness_OperandWritesOutsideCall :
    (State.resetOf hard).block.status ≠ .running ∧ hard.harden = true ∧ State.reset.block.status ≠ .running ∧
    Config.default.harden = false := by decide
/-- Every clause: `DONE`, `FAULT`, neither; with `HARDEN` and without. -/
theorem witness_HostReadsPublished :
    { litCall .rle with status := .done }.status = .done ∧ { litCall .rle with status := .fault }.status = .fault ∧
    (litCall .rle).status ≠ .done ∧ (litCall .rle).status ≠ .fault ∧ hard.harden = true ∧ Config.default.harden = false := by decide
/-- A call on the stream `00` that has ended. -/
theorem witness_ChainedCallStartsPastTerminator :
    let h : Block hard := finishCall (call hard .rle [0x00, 0x01, 0xAA] [] 0 1 2)
    h.status = .done ∧ h.result = h.sp ∧ (hard.decoder h.mode).isSome = true ∧
    ∃ h1 h2, hostAct (.writeSrc (h.src + h.result)) h = .next h1 ∧ hostAct .start h1 = .next h2 :=
  ⟨rfl, rfl, by decide, _, _, rfl, rfl⟩
theorem witness_HostMemoryMoves : (litCall .rle).status = .running ∧ State.reset.block.status ≠ .running := by decide

end Sys2Proof.Tests
end

section
/-! SUPPORT. The host's side of the block: what each host move and each host read can do, and what a block at rest satisfies. -/

namespace Sys2Proof.Machine

variable {c : Config}

/-! ### The shadow buffer after START and reset -/

/-- Where the buffer is unwritten, every entry is (10_state.md R28). -/
theorem entry_of_unwrittenBuf {h : Block c} (hb : h.buf = unwrittenBuf) (j : Byte) : h.entry j = none := by
  simp [Block.entry, hb, unwrittenBuf]

/-! ### Host commands -/

theorem unlessRunning_running (f : Block c → Block c) {h : Block c} (hs : h.status = .running) :
    unlessRunning f h = h := by
  simp [unlessRunning, hs]

theorem unlessRunning_atRest (f : Block c → Block c) {h : Block c} (hs : h.status ≠ .running) :
    unlessRunning f h = f h := by
  unfold unlessRunning
  split
  · contradiction
  · rfl

/-- A write of a register other than `STATUS`, ignored in a call (10_state.md R33), keeps `STATUS`. -/
theorem unlessRunning_keeps (f : Block c → Block c) (h : Block c) (hf : (f h).status = h.status) :
    (unlessRunning f h).status = h.status ∧ (h.status = .running → unlessRunning f h = h) := by
  refine ⟨?_, unlessRunning_running f⟩
  by_cases hs : h.status = .running
  · rw [unlessRunning_running f hs]
  · rw [unlessRunning_atRest f hs, hf]

theorem acceptsStart_iff (h : Block c) :
    h.acceptsStart = true ↔ h.status ≠ .running ∧ (c.decoder h.mode).isSome = true := by
  simp [Block.acceptsStart]

theorem hostStart_accepted {h : Block c} (ha : h.acceptsStart = true) : hostStart h = enterCall h := if_pos ha

theorem hostStart_ignored {h : Block c} (ha : ¬ h.acceptsStart = true) : hostStart h = h := if_neg ha

theorem hostStart_status (h : Block c) :
    (hostStart h).status = if h.acceptsStart then .running else h.status := by
  unfold hostStart
  split <;> rfl

theorem enterCall_sameOperands (h : Block c) : h.SameOperands (enterCall h) := ⟨rfl, rfl, rfl, rfl, rfl⟩

/-- A host command that is neither reset nor START keeps `STATUS`, and does nothing at all during a call. -/
theorem hostAct_other {cmd : HostCmd c} {h h' : Block c} (hreset : cmd ≠ .reset) (hstart : cmd ≠ .start)
    (hact : hostAct cmd h = .next h') : h'.status = h.status ∧ (h.status = .running → h' = h) := by
  cases cmd with
  | writeSrc v | writeDst v | writeMode v =>
    cases hact
    apply unlessRunning_keeps
    rfl
  | writeSrcLen v | writeDstLen v =>
    simp only [hostAct] at hact
    split at hact <;> cases hact
    apply unlessRunning_keeps
    rfl
  | start => contradiction
  | reset => contradiction
  | poke a v =>
    simp only [hostAct] at hact
    split at hact <;> cases hact
    exact ⟨rfl, fun hs => by contradiction⟩

/-! ### Host reads -/

@[simp] theorem valid_result_iff (status : Status) : HostReg.valid status .result = true ↔ status = .done := by
  simp [HostReg.valid]

@[simp] theorem valid_wpos_iff (status : Status) :
    HostReg.valid status .wpos = true ↔ status = .done ∨ status = .fault := by
  simp [HostReg.valid]

@[simp] theorem valid_cause_iff (status : Status) : HostReg.valid status .cause = true ↔ status = .fault := by
  simp [HostReg.valid]

theorem hostRead_held {r : HostReg} {h : Block c} (hp : r.present c = true) (hv : r.valid h.status = true) :
    hostRead r h = .ok (r.held h, h) := by
  simp [hostRead, hp, hv]

theorem hostRead_free {r : HostReg} {h : Block c} (hp : r.present c = true) (hv : ¬ r.valid h.status = true) :
    hostRead r h = .ok (Config.freeWord (r.width c) h.draws, { h with draws := h.draws + 1 }) := by
  simp [hostRead, hp, hv]

theorem hostRead_absent {r : HostReg} {h : Block c} (hp : r.present c = false) :
    hostRead r h = .error .registerAbsent := by
  simp [hostRead, hp]

/-- A host read that answers a value changes at most the count of draws. -/
theorem hostRead_frame {r : HostReg} {h h' : Block c} {v : BitVec (r.width c)} (hread : hostRead r h = .ok (v, h')) :
    h' = { h with draws := h'.draws } := by
  unfold hostRead at hread
  split_ifs at hread <;> cases hread <;> rfl

/-! ### What holds of a block that is not in a call -/

theorem exactAccess_of_idle {h : Block c} (hs : h.status = .idle) : h.ExactAccess := by
  constructor <;> simp [hs]

theorem mirrors_of_atRest {h : Block c} (hs : h.status ≠ .running) : h.Mirrors := fun hr => absurd hr hs

theorem withinLengths_of_atRest {h : Block c} (hs : h.status ≠ .running) : h.WithinLengths := fun _ hr => absurd hr hs

theorem hasDecoder_of_atRest {h : Block c} (hs : h.status ≠ .running) : h.HasDecoder := fun hr => absurd hr hs

theorem faultNeedsHarden_of_noFault {h : Block c} (hs : h.status ≠ .fault) : h.FaultNeedsHarden := fun hf => absurd hf hs

/-- Before its first access a call has no output to hold. -/
theorem holdsOutput_of_noAccess {h : Block c} (ht : h.trace = []) : h.HoldsOutput := by
  intro j hj hle
  have hlen : (output h.trace).length = 0 := by rw [ht]; rfl
  omega

theorem resetOf_status (c : Config) : (State.resetOf c).block.status = .idle := rfl

/-- After reset, under any configuration, memory has the canonical form. -/
theorem resetOf_memoryOk (c : Config) : (State.resetOf c).block.MemoryOk := ⟨rfl, rfl⟩

end Sys2Proof.Machine
end

section
/-! SUPPORT. What a step does to the registers that steer a call: a terminator ends it, every other token stays in it or, with
`HARDEN`, raises. -/

namespace Sys2Proof

/-- The three terminators (30_encoding.md R66, R67). -/
def Instr.isEnd : Instr → Bool
  | .lzdEnd | .lzsEnd | .rleEnd => true
  | _ => false

/-- A tag byte decodes to a terminator exactly when it is `0x00`, in every mode (30_encoding.md R69). -/
theorem decodeTag_isEnd (mode : Mode) (tag : Byte) : (decodeTag mode tag).isEnd = true ↔ tag = 0x00#8 := by
  cases mode <;> simp only [decodeTag] <;> split_ifs with h0 <;> simp [h0, Instr.isEnd]

namespace Machine

variable {c : Config}

/-- The call goes on: neither the operands nor the registers that publish its end have changed. -/
structure Block.StaysInCall (h h' : Block c) : Prop where
  operands : h.SameOperands h'
  published : h.SamePublished h'

theorem Block.StaysInCall.trans {h g f : Block c} (h1 : h.StaysInCall g) (h2 : g.StaysInCall f) : h.StaysInCall f := by
  obtain ⟨⟨src, dst, mode, srcLen, dstLen⟩, ⟨status, result, wpos, cause⟩⟩ := h1
  exact ⟨⟨h2.operands.src.trans src, h2.operands.dst.trans dst, h2.operands.mode.trans mode,
      h2.operands.srcLen.trans srcLen, h2.operands.dstLen.trans dstLen⟩,
    ⟨h2.published.status.trans status, h2.published.result.trans result, h2.published.wpos.trans wpos,
      h2.published.cause.trans cause⟩⟩

theorem LoopFrame.staysInCall {h g : Block c} (hf : LoopFrame h g) : h.StaysInCall g := ⟨hf.operands, hf.published⟩

theorem staysInCall_fetchTag (h : Block c) : h.StaysInCall (fetchTag h) := ⟨⟨rfl, rfl, rfl, rfl, rfl⟩, ⟨rfl, rfl, rfl, rfl⟩⟩

theorem staysInCall_readDistance (h : Block c) : h.StaysInCall (readDistance h) :=
  ⟨⟨rfl, rfl, rfl, rfl, rfl⟩, ⟨rfl, rfl, rfl, rfl⟩⟩

theorem staysInCall_readFill (h : Block c) : h.StaysInCall (readFill h) := ⟨⟨rfl, rfl, rfl, rfl, rfl⟩, ⟨rfl, rfl, rfl, rfl⟩⟩

theorem staysInCall_advance (len out : c.Word) (h : Block c) : h.StaysInCall (advance len out h) :=
  ⟨⟨rfl, rfl, rfl, rfl, rfl⟩, ⟨rfl, rfl, rfl, rfl⟩⟩

/-- Setting the working registers of a token (10_state.md R22, R27). -/
theorem staysInCall_counts (h : Block c) (n m i : Byte) : h.StaysInCall { h with n := n, m := m, i := i } :=
  ⟨⟨rfl, rfl, rfl, rfl, rfl⟩, ⟨rfl, rfl, rfl, rfl⟩⟩

/-- What a token that is no terminator leads to: the call goes on, or with `HARDEN` the fault entry is taken, before or after the
distance byte is read (60_exceptions.md R124, R125). -/
def Block.StaysOrRaises (h h' : Block c) : Prop :=
  h.StaysInCall h' ∨
    (c.harden = true ∧ ∃ cause, h' = raiseMalformed cause h ∨ h' = raiseMalformed cause (readDistance h))

theorem checkedToken_staysOrRaises (L P : Nat) {rule : Block c → Block c} {h : Block c} (hrule : h.StaysInCall (rule h)) :
    h.StaysOrRaises (checkedToken L P rule h) := by
  obtain ⟨-, he⟩ | ⟨hh, cause, -, he⟩ := checkedToken_cases L P rule h
  · exact .inl (he ▸ hrule)
  · exact .inr ⟨hh, cause, .inl he⟩

theorem checkedMatch_staysOrRaises (P : Nat) {rule : Block c → Block c} {h : Block c}
    (hrule : ∀ g : Block c, g.StaysInCall (rule g)) : h.StaysOrRaises (checkedMatch P rule h) := by
  obtain ⟨-, he⟩ | ⟨hh, -, he⟩ | ⟨hh, -, cause, -, he⟩ := checkedMatch_cases P rule h
  · exact .inl (he ▸ (staysInCall_readDistance h).trans (hrule _))
  · exact .inr ⟨hh, .srcOverrun, .inl he⟩
  · exact .inr ⟨hh, cause, .inr he⟩

/-- The tail of every token but a terminator: registers set, one byte loop, the cursors advanced. -/
theorem staysInCall_loop_advance {h h1 g : Block c} (len out : c.Word) (hset : h.StaysInCall h1) (hloop : LoopFrame h1 g) :
    h.StaysInCall (advance len out g) :=
  hset.trans (hloop.staysInCall.trans (staysInCall_advance len out g))

theorem byte_lt_512 (x : Byte) : x.toNat < 512 := by have := x.isLt; omega

theorem exec_isEnd {i : Instr} (hi : i.isEnd = true) (h : Block c) : exec i ⟨c, h⟩ = .next ⟨c, finishCall h⟩ := by
  cases i with
  | lzdEnd | lzsEnd | rleEnd => rfl
  | _ => cases hi

/-- 30_encoding.md R68: every token but a terminator stays in the call or raises. -/
theorem exec_staysOrRaises {i : Instr} (hi : i.isEnd = false) (h : Block c) :
    ∃ h', exec i ⟨c, h⟩ = .next ⟨c, h'⟩ ∧ h.StaysOrRaises h' := by
  cases i with
  | lzdEnd | lzsEnd | rleEnd => cases hi
  | lzdLit count =>
    exact ⟨_, rfl, checkedToken_staysOrRaises _ _ (staysInCall_loop_advance _ _ (staysInCall_counts h count h.m h.i)
      (copyLiteral_loop 1 0 count.toNat (byte_lt_512 count) _).frame)⟩
  | lzdMatch length =>
    exact ⟨_, rfl, checkedMatch_staysOrRaises _ fun g => staysInCall_loop_advance _ _ (staysInCall_counts g length g.m g.i)
      (copyBack_loop length.toNat (byte_lt_512 length) _).frame⟩
  | lzsLit count =>
    exact ⟨_, rfl, checkedToken_staysOrRaises _ _ (staysInCall_loop_advance _ _ (staysInCall_counts h count h.m h.i)
      (mirrorLiteral_loop count.toNat count.isLt.le _).mirror.frame)⟩
  | lzsMatch length =>
    exact ⟨_, rfl, checkedMatch_staysOrRaises _ fun g =>
      staysInCall_loop_advance _ _ (staysInCall_counts g length g.m g.shadowStart)
        (mirrorBack_loop length.toNat length.isLt.le _).mirror.frame⟩
  | rleRun run =>
    exact ⟨_, rfl, checkedToken_staysOrRaises _ _ (staysInCall_loop_advance _ _
      ((staysInCall_counts h run h.m h.i).trans (staysInCall_readFill _))
      (writeFill_loop run.toNat (byte_lt_512 run) _).frame)⟩
  | rleLit litlen =>
    exact ⟨_, rfl, checkedToken_staysOrRaises _ _ (staysInCall_loop_advance _ _ (staysInCall_counts h litlen h.m h.i)
      (copyLiteral_loop 1 0 litlen.toNat (byte_lt_512 litlen) _).frame)⟩
  | rleComb run litlen =>
    exact ⟨_, rfl, checkedToken_staysOrRaises _ _ (staysInCall_loop_advance _ _
      ((staysInCall_counts h run litlen h.i).trans (staysInCall_readFill _))
      ((writeFill_loop run.toNat (byte_lt_512 run) _).frame.trans
        (copyLiteral_loop 2 _ _ (byte_lt_512 _) _).frame))⟩

theorem Block.StaysOrRaises.status {h h' : Block c} (hsr : h.StaysOrRaises h') :
    h.StaysInCall h' ∨ (h'.status = .fault ∧ c.harden = true) := by
  obtain hs | ⟨hh, cause, rfl | rfl⟩ := hsr
  · exact .inl hs
  · exact .inr ⟨rfl, hh⟩
  · exact .inr ⟨rfl, hh⟩

/-- All a step of a call can lead to (10_state.md R31): the call goes on, it ends on the tag `0x00`, or it faults with
`HARDEN`. -/
theorem step_running_cases {h : Block c} {t : State} (hs : h.status = .running) (hstep : step ⟨c, h⟩ = .next t) :
    ∃ h' : Block c, t = ⟨c, h'⟩ ∧
      ((h.StaysInCall h' ∧ h.tagByte ≠ 0x00#8) ∨ (h' = finishCall (fetchTag h) ∧ h.tagByte = 0x00#8) ∨
        (h'.status = .fault ∧ c.harden = true)) := by
  obtain ⟨hquiet, -⟩ | ⟨-, mode, -, ⟨hh, -, rfl⟩ | ⟨-, hexec⟩⟩ := step_cases hstep
  · contradiction
  · exact ⟨_, rfl, .inr (.inr ⟨rfl, hh⟩)⟩
  · cases hend : (decodeTag mode h.tagByte).isEnd with
    | true =>
      rw [exec_isEnd hend] at hexec
      exact ⟨_, (Host.Outcome.next.inj hexec).symm, .inr (.inl ⟨rfl, (decodeTag_isEnd mode _).mp hend⟩)⟩
    | false =>
      obtain ⟨h', hnext, hsr⟩ := exec_staysOrRaises hend (fetchTag h)
      have htag : h.tagByte ≠ 0x00#8 := fun h0 => by simp [(decodeTag_isEnd mode _).mpr h0] at hend
      rw [hnext] at hexec
      refine ⟨h', (Host.Outcome.next.inj hexec).symm, ?_⟩
      obtain hstay | hfault := hsr.status
      · exact .inl ⟨(staysInCall_fetchTag h).trans hstay, htag⟩
      · exact .inr (.inr hfault)

end Machine
end Sys2Proof
end

section
/-! SUPPORT. What every move keeps of `STATUS`: a call in progress has a decoder, and `FAULT` needs `HARDEN`. -/

namespace Sys2Proof.Machine

variable {c : Config}

/-- 10_state.md R14 and R15, both invariants of `STATUS`. -/
def Block.LegalStatus (h : Block c) : Prop := h.HasDecoder ∧ h.FaultNeedsHarden

/-- Outside a call only `FAULT` is to be accounted for. -/
theorem legalStatus_of_atRest {h : Block c} (hs : h.status ≠ .running) (hf : h.FaultNeedsHarden) : h.LegalStatus :=
  ⟨hasDecoder_of_atRest hs, hf⟩

theorem legalStatus_of_same {h h' : Block c} (hmode : h'.mode = h.mode) (hstatus : h'.status = h.status)
    (hl : h.LegalStatus) : h'.LegalStatus :=
  ⟨fun hr => hmode ▸ hl.1 (hstatus ▸ hr), fun hf => hl.2 (hstatus ▸ hf)⟩

theorem step_legalStatus {h : Block c} {t : State} (hstep : step ⟨c, h⟩ = .next t) (hl : h.LegalStatus) :
    t.block.LegalStatus := by
  by_cases hs : h.status = .running
  · obtain ⟨h', rfl, ⟨hstay, -⟩ | ⟨rfl, -⟩ | ⟨hfault, hh⟩⟩ := step_running_cases hs hstep
    · exact legalStatus_of_same hstay.operands.mode hstay.published.status hl
    · exact legalStatus_of_atRest (by simp) (faultNeedsHarden_of_noFault (by simp))
    · exact legalStatus_of_atRest (by simp [hfault]) fun _ => hh
  · rw [step_quiet hs] at hstep
    cases hstep
    exact hl

theorem hostStart_legalStatus {h : Block c} (hl : h.LegalStatus) : (hostStart h).LegalStatus := by
  by_cases ha : h.acceptsStart = true
  · rw [hostStart_accepted ha]
    exact ⟨fun _ => ((acceptsStart_iff h).mp ha).2, faultNeedsHarden_of_noFault (h := enterCall h) nofun⟩
  · rwa [hostStart_ignored ha]

theorem hostAct_legalStatus {cmd : HostCmd c} {h h' : Block c} (hact : hostAct cmd h = .next h') (hl : h.LegalStatus) :
    h'.LegalStatus := by
  by_cases hreset : cmd = .reset
  · subst hreset
    cases hact
    exact legalStatus_of_atRest (h := hardwareReset h) nofun (faultNeedsHarden_of_noFault nofun)
  by_cases hstart : cmd = .start
  · subst hstart
    cases hact
    exact hostStart_legalStatus hl
  obtain ⟨hstatus, hcall⟩ := hostAct_other hreset hstart hact
  by_cases hs : h.status = .running
  · rwa [hcall hs]
  · exact legalStatus_of_atRest (hstatus ▸ hs) fun hf => hl.2 (hstatus ▸ hf)

theorem hostRead_legalStatus {r : HostReg} {h h' : Block c} {v : BitVec (r.width c)} (hread : hostRead r h = .ok (v, h'))
    (hl : h.LegalStatus) : h'.LegalStatus := by
  rw [hostRead_frame hread]
  exact legalStatus_of_same rfl rfl hl

end Sys2Proof.Machine
end

section
/-! SUPPORT. The statements about the state and the host's moves (10_state.md), settled. -/

namespace Sys2Proof.Machine

/-- Settles O9: `step_cases` for the engine, one lemma per command and for reads for the host. -/
theorem statusMovesAsListed : Obligations.StatusMovesAsListed := by
  refine ⟨?_, ?_, fun c h h' r v hread => ?_⟩
  · rintro ⟨c, h⟩ t hstep
    refine ⟨fun hs => ?_, fun hs => ?_⟩
    · rw [step_quiet hs] at hstep
      exact (Host.Outcome.next.inj hstep).symm
    · obtain ⟨h', rfl, ⟨hstay, htag⟩ | ⟨rfl, htag⟩ | hfault⟩ := step_running_cases hs hstep
      · exact .inl ⟨hstay.published.status.trans hs, htag⟩
      · exact .inr (.inl ⟨rfl, htag⟩)
      · exact .inr (.inr hfault)
  · intro c h h' cmd hact
    refine ⟨?_, ?_, fun hreset hstart => (hostAct_other hreset hstart hact).1⟩
    · rintro rfl
      cases hact
      rfl
    · rintro rfl
      cases hact
      exact hostStart_status h
  · rw [hostRead_frame hread]
    exact ⟨rfl, rfl⟩

/-- Settles O39, for the engine, the host's commands and the host's reads. -/
theorem movesKeepLegalStatus : Obligations.MovesKeepLegalStatus := by
  intro s t hmove hd hf
  cases hmove with
  | engine hstep => exact step_legalStatus hstep ⟨hd, hf⟩
  | host cmd hact => exact hostAct_legalStatus hact ⟨hd, hf⟩
  | read r v hread => exact hostRead_legalStatus hread ⟨hd, hf⟩

/-- Settles O40: `STATUS` is `IDLE` and no access has been made, so every promise about a call holds. -/
theorem resetHasInvariants : Obligations.ResetHasInvariants := by
  intro c
  have hidle := resetOf_status c
  have hrest : (State.resetOf c).block.status ≠ .running := by simp [hidle]
  exact ⟨resetOf_memoryOk c, exactAccess_of_idle hidle, mirrors_of_atRest hrest, holdsOutput_of_noAccess rfl,
    withinLengths_of_atRest hrest, hasDecoder_of_atRest hrest, faultNeedsHarden_of_noFault (by simp [hidle])⟩

/-- Settles O50. -/
theorem resetStateAsStated : Obligations.ResetStateAsStated :=
  ⟨fun c => ⟨resetOf_status c, rfl, entry_of_unwrittenBuf rfl⟩, rfl, rfl, rfl, rfl, rfl⟩

/-- Settles O52: an accepted START is `enterCall`, any other START the identity. -/
theorem startCommand : Obligations.StartCommand := by
  refine fun c h => ⟨fun hs hd => ?_, fun hs => ?_, fun hd => ?_⟩
  · have haccept : hostStart h = enterCall h := hostStart_accepted ((acceptsStart_iff h).mpr ⟨hs, hd⟩)
    exact ⟨enterCall h, congrArg Host.Outcome.next haccept, rfl, rfl, rfl, entry_of_unwrittenBuf rfl, rfl,
      enterCall_sameOperands h, rfl⟩
  · have hignore : hostStart h = h := hostStart_ignored fun ha => ((acceptsStart_iff h).mp ha).1 hs
    exact congrArg Host.Outcome.next hignore
  · have hrefuse : hostStart h = h := hostStart_ignored fun ha => by simpa [hd] using ((acceptsStart_iff h).mp ha).2
    exact congrArg Host.Outcome.next hrefuse

/-- Settles O53. -/
theorem operandWritesIgnoredInCall : Obligations.OperandWritesIgnoredInCall := by
  intro c h v m hs
  simp [hostAct, unlessRunning_running _ hs]

/-- Settles O54. -/
theorem operandWritesOutsideCall : Obligations.OperandWritesOutsideCall := by
  intro c h v m hs
  simp +contextual [hostAct, unlessRunning_atRest _ hs]

/-- Settles O55: each clause is a register that is present and valid, present and not valid, or absent. -/
theorem hostReadsPublished : Obligations.HostReadsPublished := by
  intro c h
  refine ⟨hostRead_held rfl rfl, hostRead_held rfl rfl, hostRead_held rfl rfl, hostRead_held rfl rfl,
    fun hs => ?_, fun hs => ?_, fun hh => ⟨?_, ?_, fun hs => ?_⟩, fun hh => ⟨?_, ?_, ?_⟩, fun hs => ?_, fun hd hf => ?_,
    fun hs hh => ?_⟩
  · exact hostRead_held rfl ((valid_result_iff _).mpr hs)
  · exact hostRead_held rfl ((valid_wpos_iff _).mpr hs)
  · exact hostRead_held hh rfl
  · exact hostRead_held hh rfl
  · exact hostRead_held hh ((valid_cause_iff _).mpr hs)
  · exact hostRead_absent hh
  · exact hostRead_absent hh
  · exact hostRead_absent hh
  · exact hostRead_free rfl (by simpa using hs)
  · exact hostRead_free rfl (by simp [hd, hf])
  · exact hostRead_free hh (by simpa using hs)

end Sys2Proof.Machine
end

section
/-! SUPPORT. The work of one token (70_reset_and_hazards.md R161): which accesses it has made, one after another, and what they
leave unchanged. `TokenProgress` follows a token from its tag to its last access, `exec_result` says how each token ends. -/

namespace Sys2Proof.Machine

variable {c : Config}

/-! ### Records of accesses -/

@[simp] theorem srcReads_append {w : Nat} (s t : List (Access w)) : srcReads (s ++ t) = srcReads s ++ srcReads t :=
  List.filterMap_append
@[simp] theorem dstReads_append {w : Nat} (s t : List (Access w)) : dstReads (s ++ t) = dstReads s ++ dstReads t :=
  List.filterMap_append
@[simp] theorem dstWrites_append {w : Nat} (s t : List (Access w)) : dstWrites (s ++ t) = dstWrites s ++ dstWrites t :=
  List.filterMap_append
@[simp] theorem bufReads_append {w : Nat} (s t : List (Access w)) : bufReads (s ++ t) = bufReads s ++ bufReads t :=
  List.filterMap_append
@[simp] theorem bufWrites_append {w : Nat} (s t : List (Access w)) : bufWrites (s ++ t) = bufWrites s ++ bufWrites t :=
  List.filterMap_append

/-- The `count` offsets from `x` on, modulo `2 ^ w`. -/
def offsetsFrom {w : Nat} (x : BitVec w) (count : Nat) : List (BitVec w) :=
  (List.range count).map fun k => x + BitVec.ofNat w k

@[simp] theorem offsetsFrom_zero {w : Nat} (x : BitVec w) : offsetsFrom x 0 = [] := rfl

@[simp] theorem length_offsetsFrom {w : Nat} (x : BitVec w) (count : Nat) : (offsetsFrom x count).length = count := by
  simp [offsetsFrom]

theorem offsetsFrom_succ {w : Nat} (x : BitVec w) (count : Nat) :
    offsetsFrom x (count + 1) = offsetsFrom x count ++ [x + BitVec.ofNat w count] := by
  simp [offsetsFrom, List.range_succ]

theorem offsetsUpTo_add (w n m : Nat) :
    offsetsUpTo w (n + m) = offsetsUpTo w n ++ offsetsFrom (BitVec.ofNat w n) m := by
  simp [offsetsUpTo, offsetsFrom, List.range_add, BitVec.ofNat_add]

/-- How many accesses of each kind: one line of the table of 70_reset_and_hazards.md R161. -/
structure Work where
  sourceReads : Nat
  destWrites : Nat
  destReads : Nat
  shadowReads : Nat
  shadowWrites : Nat

/-- The fetch of the tag alone. -/
def Work.fetched : Work := ⟨1, 0, 0, 0, 0⟩

/-- The whole work of a token. -/
def Work.ofToken (i : Instr) : Work := ⟨i.length, i.output, dstReadCount i, bufReadCount i, bufWriteCount i⟩

/-- The work with one more access. -/
def Work.snoc {n : Nat} (w : Work) : Access n → Work
  | .srcRead _ => { w with sourceReads := w.sourceReads + 1 }
  | .dstRead _ => { w with destReads := w.destReads + 1 }
  | .dstWrite _ _ => { w with destWrites := w.destWrites + 1 }
  | .bufRead _ => { w with shadowReads := w.shadowReads + 1 }
  | .bufWrite _ _ => { w with shadowWrites := w.shadowWrites + 1 }

/-- After the work `w` of a token that began at the cursors of `h`, the access is at the next offset of its kind: the cursors
themselves move at the token's end only (10_state.md R19, R20). -/
def Work.Next (w : Work) (h : Block c) : Access c.aw → Prop
  | .srcRead off => off = h.sp + BitVec.ofNat c.aw w.sourceReads
  | .dstWrite off _ => off = h.wp + BitVec.ofNat c.aw w.destWrites
  | _ => True

/-- The accesses are the work `w` of a token that begins at the cursors of `h`: its source reads and destination writes stand at
consecutive offsets (20_memory.md R49, R50). -/
structure Work.Counts (w : Work) (h : Block c) (accesses : List (Access c.aw)) : Prop where
  sourceReads : srcReads accesses = offsetsFrom h.sp w.sourceReads
  destWrites : (dstWrites accesses).map Prod.fst = offsetsFrom h.wp w.destWrites
  destReads : (dstReads accesses).length = w.destReads
  shadowReads : (bufReads accesses).length = w.shadowReads
  shadowWrites : (bufWrites accesses).length = w.shadowWrites

theorem Work.counts_fetched (h : Block c) : Work.fetched.Counts h [.srcRead h.sp] := by
  constructor <;> simp [Work.fetched, offsetsFrom, srcReads, dstWrites, dstReads, bufReads, bufWrites]

theorem Work.Counts.snoc {w : Work} {h : Block c} {accesses : List (Access c.aw)} (hc : w.Counts h accesses)
    {e : Access c.aw} (hnext : w.Next h e) : (w.snoc e).Counts h (accesses ++ [e]) where
  sourceReads := by
    rw [srcReads_append, hc.sourceReads]
    cases e with
    | srcRead off => exact (congrArg (_ ++ [·]) hnext).trans (offsetsFrom_succ _ _).symm
    | _ => exact List.append_nil _
  destWrites := by
    rw [dstWrites_append, List.map_append, hc.destWrites]
    cases e with
    | dstWrite off v => exact (congrArg (_ ++ [·]) hnext).trans (offsetsFrom_succ _ _).symm
    | _ => exact List.append_nil _
  destReads := by
    rw [dstReads_append, List.length_append, hc.destReads]
    cases e <;> rfl
  shadowReads := by
    rw [bufReads_append, List.length_append, hc.shadowReads]
    cases e <;> rfl
  shadowWrites := by
    rw [bufWrites_append, List.length_append, hc.shadowWrites]
    cases e <;> rfl

/-! ### A token in progress -/

/-- What a token leaves alone until its end. -/
structure Block.WithinToken (h g : Block c) : Prop extends Block.StaysInCall h g where
  sp : g.sp = h.sp
  wp : g.wp = h.wp
  cmd : g.cmd = h.cmd

theorem Block.WithinToken.refl (h : Block c) : h.WithinToken h :=
  ⟨⟨⟨rfl, rfl, rfl, rfl, rfl⟩, ⟨rfl, rfl, rfl, rfl⟩⟩, rfl, rfl, rfl⟩

theorem Block.WithinToken.trans {h g f : Block c} (h1 : h.WithinToken g) (h2 : g.WithinToken f) : h.WithinToken f :=
  ⟨h1.toStaysInCall.trans h2.toStaysInCall, h2.sp.trans h1.sp, h2.wp.trans h1.wp, h2.cmd.trans h1.cmd⟩

/-- The token `i`, which began in `h` with its tag fetched, has done the work `w` and stands at `g`. -/
structure TokenProgress (h : Block c) (i : Instr) (w : Work) (g : Block c) : Prop where
  within : h.WithinToken g
  memory : h.MemoryOk → g.MemoryOk
  bytes : OnlyChanges h.byteAt g.byteAt h.outAddr w.destWrites
  shadow : i.mode ≠ .lzShadow → h.SameShadow g
  trace : ∃ accesses, g.trace = h.trace ++ accesses ∧ w.Counts h (.srcRead h.sp :: accesses)

theorem TokenProgress.start (h : Block c) (i : Instr) : TokenProgress h i .fetched h :=
  ⟨.refl h, id, OnlyChanges.refl _ _ _, fun _ => Block.SameShadow.refl h, [], by simp, Work.counts_fetched h⟩

section Progress

variable {h g f : Block c} {i : Instr} {w : Work}

/-- A change of working registers, memory and record as they were. -/
theorem TokenProgress.silent (hp : TokenProgress h i w g) (hf : g.WithinToken f) (hmem : f.mem = g.mem)
    (htrace : f.trace = g.trace) (hshadow : i.mode ≠ .lzShadow → g.SameShadow f) : TokenProgress h i w f where
  within := hp.within.trans hf
  memory hm := by simpa [Block.MemoryOk, hmem] using hp.memory hm
  bytes a ha := (byteAt_congr hmem a).trans (hp.bytes a ha)
  shadow hi := (hp.shadow hi).trans (hshadow hi)
  trace := htrace ▸ hp.trace

/-- Every token sets the working registers of 10_state.md R22 to R25. -/
theorem TokenProgress.registers (hp : TokenProgress h i w g) (n m dist fill k : Byte) (draws : Nat) :
    TokenProgress h i w { g with n := n, m := m, dist := dist, fill := fill, k := k, draws := draws } :=
  hp.silent ⟨⟨⟨rfl, rfl, rfl, rfl, rfl⟩, ⟨rfl, rfl, rfl, rfl⟩⟩, rfl, rfl, rfl⟩ rfl rfl fun _ => ⟨rfl, rfl, rfl⟩

/-- Only a token of mode `LZ_SHADOW` sets the registers of 10_state.md R26 to R28. -/
theorem TokenProgress.shadowRegisters (hp : TokenProgress h i w g) (hi : i.mode = .lzShadow) (b j : Byte)
    (buf : Vector (Option Byte) 256) : TokenProgress h i w { g with b := b, i := j, buf := buf } :=
  hp.silent ⟨⟨⟨rfl, rfl, rfl, rfl, rfl⟩, ⟨rfl, rfl, rfl, rfl⟩⟩, rfl, rfl, rfl⟩ rfl rfl fun hne => absurd hi hne

theorem TokenProgress.next {e : Access c.aw} (hp : TokenProgress h i w g) (hnext : w.Next g e) : w.Next h e := by
  cases e with
  | srcRead off => exact hnext.trans (by rw [hp.within.sp])
  | dstWrite off v => exact hnext.trans (by rw [hp.within.wp])
  | _ => trivial

theorem TokenProgress.grown {e : Access c.aw} (hp : TokenProgress h i w g) (hnext : w.Next g e) :
    ∃ accesses, g.trace ++ [e] = h.trace ++ accesses ∧ (w.snoc e).Counts h (.srcRead h.sp :: accesses) := by
  obtain ⟨accesses, htrace, hcounts⟩ := hp.trace
  exact ⟨accesses ++ [e], by rw [htrace, List.append_assoc], hcounts.snoc (hp.next hnext)⟩

theorem OnlyChanges.mono {α β : Type} {before after : α → β} {target : Nat → α} {n m : Nat}
    (honly : OnlyChanges before after target n) (hle : n ≤ m) : OnlyChanges before after target m :=
  fun a ha => honly a fun k hk => ha k (by omega)

theorem Work.destWrites_le_snoc {n : Nat} (w : Work) (e : Access n) : w.destWrites ≤ (w.snoc e).destWrites := by
  cases e <;> simp [Work.snoc]

/-- An access that changes no byte of memory. -/
theorem TokenProgress.record {e : Access c.aw} (hp : TokenProgress h i w g) (hnext : w.Next g e) :
    TokenProgress h i (w.snoc e) (g.record e) where
  within := hp.within.trans ⟨⟨⟨rfl, rfl, rfl, rfl, rfl⟩, ⟨rfl, rfl, rfl, rfl⟩⟩, rfl, rfl, rfl⟩
  memory := hp.memory
  bytes := hp.bytes.mono (w.destWrites_le_snoc e)
  shadow hi := (hp.shadow hi).trans ⟨rfl, rfl, rfl⟩
  trace := hp.grown hnext

/-- A write of the next output byte. -/
theorem TokenProgress.writeDst {off : c.Word} (hp : TokenProgress h i w g) (v : Byte)
    (hoff : off = g.wp + BitVec.ofNat c.aw w.destWrites) :
    TokenProgress h i { w with destWrites := w.destWrites + 1 } (dstWrite off v g) where
  within := hp.within.trans ⟨⟨⟨rfl, rfl, rfl, rfl, rfl⟩, ⟨rfl, rfl, rfl, rfl⟩⟩, rfl, rfl, rfl⟩
  memory hm := dstWrite_memoryOk g off v (hp.memory hm)
  bytes := by
    have haddr : g.dstAddr off = h.outAddr w.destWrites := by
      rw [outAddr_eq, hoff, Block.dstAddr, hp.within.operands.dst, hp.within.wp, BitVec.add_assoc]
    rw [byteAt_dstWrite_update, haddr]
    exact hp.bytes.snoc v
  shadow hi := (hp.shadow hi).trans ⟨rfl, rfl, rfl⟩
  trace := hp.grown (e := .dstWrite off v) hoff

theorem TokenProgress.writeBuf (hp : TokenProgress h i w g) (hi : i.mode = .lzShadow) (j v : Byte) :
    TokenProgress h i { w with shadowWrites := w.shadowWrites + 1 } (bufWrite j v g) :=
  (hp.shadowRegisters hi g.b g.i (g.buf.set j.toNat (some v) j.isLt)).record (e := .bufWrite j v) trivial

theorem TokenProgress.readBuf (hp : TokenProgress h i w g) (j : Byte) :
    TokenProgress h i { w with shadowReads := w.shadowReads + 1 } (bufRead j g).2 := by
  rw [bufRead_eq]
  exact (hp.record (e := .bufRead j) trivial).registers g.n g.m g.dist g.fill g.k _

/-! ### The byte loops -/

/-- A byte loop of a token: the work may depend on the number of turns taken, the loop index and the draw after the loop do not
touch it. -/
theorem TokenProgress.loop (work : Nat → Work) (body : Nat → Block c → Block c) (count : Nat)
    (hp : TokenProgress h i (work 0) g)
    (turn : ∀ j f, TokenProgress h i (work j) f → TokenProgress h i (work (j + 1)) (body j f)) :
    TokenProgress h i (work count) (forBytes body count g) :=
  forBytes_induct (fun j f => TokenProgress h i (work j) f) body count g
    (fun _ f x hf => hf.registers f.n f.m f.dist f.fill x f.draws)
    (fun _ f hf => hf.registers f.n f.m f.dist f.fill f.k (f.draws + 1)) hp fun j _ f hf => turn j f hf

/-- A payload part that begins where the work stands goes on there in turn `j`. -/
theorem next_payload {base : c.Word} {reads : Nat} (hbase : base = BitVec.ofNat c.aw reads) (f : Block c) (j : Nat) :
    f.payloadOff base j = f.sp + BitVec.ofNat c.aw (reads + j) := by
  rw [Block.payloadOff, hbase, BitVec.ofNat_add, BitVec.add_assoc]

/-- An output part that begins where the work stands goes on there in turn `j`. -/
theorem next_output {base : c.Word} {writes : Nat} (hbase : base = BitVec.ofNat c.aw writes) (f : Block c) (j : Nat) :
    f.outOff base j = f.wp + BitVec.ofNat c.aw (writes + j) := by
  rw [Block.outOff, hbase, BitVec.ofNat_add, BitVec.add_assoc]

/-- The output of a token begins at `wp` itself (10_state.md R20). -/
theorem next_output_zero {writes : Nat} (hw : writes = 0) (f : Block c) (j : Nat) :
    f.outOff 0 j = f.wp + BitVec.ofNat c.aw (writes + j) :=
  next_output (hw ▸ rfl) f j

theorem TokenProgress.copyLiterals {sbase dbase : c.Word} (hp : TokenProgress h i w g)
    (hs : sbase = BitVec.ofNat c.aw w.sourceReads) (hd : dbase = BitVec.ofNat c.aw w.destWrites) (count : Nat) :
    TokenProgress h i { w with sourceReads := w.sourceReads + count, destWrites := w.destWrites + count }
      (forBytes (copyLiteral sbase dbase) count g) :=
  hp.loop (fun j => { w with sourceReads := w.sourceReads + j, destWrites := w.destWrites + j }) _ count fun j f hf =>
    (hf.record (e := .srcRead (f.payloadOff sbase j)) (next_payload hs f j)).writeDst _ (next_output hd _ j)

theorem TokenProgress.fills (hp : TokenProgress h i w g) (hw : w.destWrites = 0) (count : Nat) :
    TokenProgress h i { w with destWrites := w.destWrites + count } (forBytes writeFill count g) :=
  hp.loop (fun j => { w with destWrites := w.destWrites + j }) _ count fun j f hf =>
    hf.writeDst _ (next_output_zero hw f j)

theorem TokenProgress.copyBacks (hp : TokenProgress h i w g) (hw : w.destWrites = 0) (count : Nat) :
    TokenProgress h i { w with destReads := w.destReads + count, destWrites := w.destWrites + count }
      (forBytes copyBack count g) :=
  hp.loop (fun j => { w with destReads := w.destReads + j, destWrites := w.destWrites + j }) _ count fun j f hf =>
    (hf.record (e := .dstRead (f.backOff j)) trivial).writeDst _ (next_output_zero hw _ j)

theorem TokenProgress.mirrorLiterals (hp : TokenProgress h i w g) (hi : i.mode = .lzShadow) (hs : w.sourceReads = 1)
    (hw : w.destWrites = 0) (count : Nat) :
    TokenProgress h i
      { w with
        sourceReads := w.sourceReads + count, destWrites := w.destWrites + count, shadowWrites := w.shadowWrites + count }
      (forBytes mirrorLiteral count g) :=
  hp.loop (fun j => { w with
      sourceReads := w.sourceReads + j, destWrites := w.destWrites + j, shadowWrites := w.shadowWrites + j }) _ count
    fun j f hf => by
    have hread := hf.record (e := .srcRead (f.payloadOff 1 j)) (next_payload (by rw [hs]; rfl) f j)
    have hmirror := hread.writeBuf hi f.b (f.byteAt (f.srcAddr (f.payloadOff 1 j)))
    exact (hmirror.shadowRegisters hi (f.b + 1) f.i _).writeDst _ (next_output_zero hw _ j)

theorem TokenProgress.mirrorBacks (hp : TokenProgress h i w g) (hi : i.mode = .lzShadow) (hw : w.destWrites = 0)
    (count : Nat) :
    TokenProgress h i
      { w with
        destWrites := w.destWrites + count, shadowReads := w.shadowReads + count, shadowWrites := w.shadowWrites + count }
      (forBytes mirrorBack count g) :=
  hp.loop (fun j => { w with
      destWrites := w.destWrites + j, shadowReads := w.shadowReads + j, shadowWrites := w.shadowWrites + j }) _ count
    fun j f hf => by
    have hmirror := (hf.readBuf f.i).writeBuf hi (bufRead f.i f).2.b (bufRead f.i f).1
    have hwrite := hmirror.writeDst (bufRead f.i f).1 (next_output_zero hw _ j)
    exact hwrite.shadowRegisters hi _ _ _

end Progress

/-! ### How a token ends -/

/-- All a token can do: a terminator ends the call; any other token does its whole work and moves the cursors by it, or with
`HARDEN` takes the fault entry, having read at most the distance byte (60_exceptions.md R124, R125). -/
inductive TokenResult (h : Block c) (i : Instr) : Block c → Prop where
  | ended (hi : i.isEnd = true) : TokenResult h i (finishCall h)
  | completed {g : Block c} {len out : c.Word} (hi : i.isEnd = false) (work : TokenProgress h i (.ofToken i) g)
      (hlen : len = BitVec.ofNat c.aw i.length) (hout : out = BitVec.ofNat c.aw i.output) :
      TokenResult h i (advance len out g)
  | stopped {g : Block c} {reads : Nat} (cause : Cause) (hh : c.harden = true)
      (work : TokenProgress h i { Work.fetched with sourceReads := reads } g) (hshadow : h.SameShadow g) :
      TokenResult h i (raiseMalformed cause g)

theorem TokenProgress.readDistance {h g : Block c} {i : Instr} (hp : TokenProgress h i .fetched g) :
    TokenProgress h i { Work.fetched with sourceReads := 2 } (readDistance g) :=
  (hp.record (e := .srcRead (g.sp + 1)) rfl).registers g.n g.m g.secondByte g.fill g.k g.draws

theorem TokenProgress.readFill {h g : Block c} {i : Instr} (hp : TokenProgress h i .fetched g) :
    TokenProgress h i { Work.fetched with sourceReads := 2 } (readFill g) :=
  (hp.record (e := .srcRead (g.sp + 1)) rfl).registers g.n g.m g.dist g.secondByte g.k g.draws

theorem checkedToken_result {L P : Nat} {rule : Block c → Block c} {h : Block c} {i : Instr}
    (hrule : TokenResult h i (rule h)) : TokenResult h i (checkedToken L P rule h) := by
  obtain ⟨-, he⟩ | ⟨hh, cause, -, he⟩ := checkedToken_cases L P rule h
  · exact he ▸ hrule
  · exact he ▸ .stopped cause hh (.start h i) (Block.SameShadow.refl h)

theorem checkedMatch_result {P : Nat} {rule : Block c → Block c} {h : Block c} {i : Instr}
    (hrule : TokenProgress h i { Work.fetched with sourceReads := 2 } (readDistance h) →
      TokenResult h i (rule (readDistance h))) : TokenResult h i (checkedMatch P rule h) := by
  have hread := (TokenProgress.start h i).readDistance
  obtain ⟨-, he⟩ | ⟨hh, -, he⟩ | ⟨hh, -, cause, -, he⟩ := checkedMatch_cases P rule h
  · exact he ▸ hrule hread
  · exact he ▸ .stopped _ hh (.start h i) (Block.SameShadow.refl h)
  · exact he ▸ .stopped cause hh hread ⟨rfl, rfl, rfl⟩

/-- The work done so far is all of the token's. -/
theorem TokenProgress.whole {h g : Block c} {i : Instr} {w : Work} (hp : TokenProgress h i w g)
    (hsource : w.sourceReads = i.length) (hout : w.destWrites = i.output) (hback : w.destReads = dstReadCount i)
    (hreads : w.shadowReads = bufReadCount i) (hwrites : w.shadowWrites = bufWriteCount i) :
    TokenProgress h i (.ofToken i) g := by
  rw [Work.ofToken, ← hsource, ← hout, ← hback, ← hreads, ← hwrites]
  exact hp

theorem ofNat_add_zext (c : Config) (len : Nat) (x : Byte) :
    BitVec.ofNat c.aw len + c.zext x = BitVec.ofNat c.aw (len + x.toNat) := by
  rw [zext_eq_ofNat, BitVec.ofNat_add]

/-- The rule shared by `LZD.LIT` (40_lz_direct.md R81) and `RLE.LIT` (42_rle.md R102). -/
theorem TokenProgress.literal (h : Block c) (i : Instr) (count : Byte) :
    TokenProgress h i ⟨1 + count.toNat, 0 + count.toNat, 0, 0, 0⟩
      (forBytes (copyLiteral 1 0) count.toNat { h with n := count }) :=
  ((TokenProgress.start h i).registers count h.m h.dist h.fill h.k h.draws).copyLiterals rfl rfl count.toNat

/-- The rule of `RLE.COMB` after its registers are set, 42_rle.md R103: neither loop changes `n` or `m`. -/
theorem combined_result (run litlen : Byte) {h g : Block c} (hn : g.n = run) (hm : g.m = litlen)
    (hp : TokenProgress h (.rleComb run litlen) { Work.fetched with sourceReads := 2 } g) :
    let h2 := forBytes writeFill g.n.toNat g
    let h3 := forBytes (copyLiteral 2 (c.zext h2.n)) h2.m.toNat h2
    TokenResult h (.rleComb run litlen) (advance (2 + c.zext h3.m) (c.zext h3.n + c.zext h3.m) h3) := by
  intro h2 h3
  have hfill : LoopFrame g h2 := (writeFill_loop _ (byte_lt_512 _) g).frame
  have hcopy : LoopFrame g h3 := hfill.trans (copyLiteral_loop _ _ _ (byte_lt_512 _) h2).frame
  have hbase : c.zext h2.n = BitVec.ofNat c.aw (0 + g.n.toNat) := by rw [hfill.n, zext_eq_ofNat, Nat.zero_add]
  have hloops := (hp.fills rfl g.n.toNat).copyLiterals (sbase := 2) rfl hbase h2.m.toNat
  refine .completed rfl (hloops.whole ?_ ?_ rfl rfl rfl) ?_ ?_
  · rw [hfill.m, hm]; rfl
  · rw [hfill.m, hm, hn]; exact congrArg (· + litlen.toNat) (Nat.zero_add _)
  · rw [hcopy.m, hm]; exact ofNat_add_zext c 2 litlen
  · rw [hcopy.n, hcopy.m, hn, hm, zext_eq_ofNat c run]; exact ofNat_add_zext c run.toNat litlen

/-- 30_encoding.md R68: `exec` gives every token one of these results. -/
theorem exec_result (i : Instr) (h : Block c) : ∃ h', exec i ⟨c, h⟩ = .next ⟨c, h'⟩ ∧ TokenResult h i h' := by
  cases i with
  | lzdEnd | lzsEnd | rleEnd => exact ⟨_, rfl, .ended rfl⟩
  | lzdLit count | rleLit count =>
    refine ⟨_, rfl, checkedToken_result (.completed rfl ?_ (ofNat_add_zext c 1 count) (zext_eq_ofNat c count))⟩
    exact (TokenProgress.literal h _ count).whole rfl (Nat.zero_add _) rfl rfl rfl
  | lzdMatch length =>
    refine ⟨_, rfl, checkedMatch_result fun hread => ?_⟩
    have hloop := (hread.registers length h.m h.secondByte h.fill h.k h.draws).copyBacks rfl length.toNat
    exact .completed rfl (hloop.whole rfl (Nat.zero_add _) (Nat.zero_add _) rfl rfl) rfl (zext_eq_ofNat c length)
  | lzsLit count =>
    have hset := (TokenProgress.start h (.lzsLit count)).registers count h.m h.dist h.fill h.k h.draws
    have hloop := (hset.mirrorLiterals rfl rfl rfl count.toNat).whole rfl (Nat.zero_add _) rfl rfl (Nat.zero_add _)
    exact ⟨_, rfl, checkedToken_result (.completed rfl hloop (ofNat_add_zext c 1 count) (zext_eq_ofNat c count))⟩
  | lzsMatch length =>
    refine ⟨_, rfl, checkedMatch_result fun hread => ?_⟩
    have hset := hread.registers length h.m h.secondByte h.fill h.k h.draws
    have hloop := (hset.shadowRegisters rfl h.b (readDistance h).shadowStart h.buf).mirrorBacks rfl rfl length.toNat
    exact .completed rfl (hloop.whole rfl (Nat.zero_add _) rfl (Nat.zero_add _) (Nat.zero_add _)) rfl
      (zext_eq_ofNat c length)
  | rleRun run =>
    have hset := ((TokenProgress.start h (.rleRun run)).registers run h.m h.dist h.fill h.k h.draws).readFill
    have hloop := (hset.fills rfl run.toNat).whole rfl (Nat.zero_add _) rfl rfl rfl
    exact ⟨_, rfl, checkedToken_result (.completed rfl hloop rfl (zext_eq_ofNat c run))⟩
  | rleComb run litlen =>
    have hset := ((TokenProgress.start h (.rleComb run litlen)).registers run litlen h.dist h.fill h.k h.draws).readFill
    exact ⟨_, rfl, checkedToken_result (combined_result run litlen rfl rfl hset)⟩

end Sys2Proof.Machine
end

section
/-! SUPPORT. What each result of a token means for its frame, for the kinds of its accesses, for memory and for the exactness of
its accesses; the same for the moves of the host. -/

namespace Sys2Proof.Machine

variable {c : Config}

/-! ### The frame of a token -/

/-- A stopped token has changed no byte. -/
theorem TokenProgress.byteAt_of_noWrites {h g : Block c} {i : Instr} {w : Work} (hp : TokenProgress h i w g)
    (hw : w.destWrites = 0) (a : c.Word) : g.byteAt a = h.byteAt a :=
  hp.bytes a fun k hk => by omega

section Result

variable {h h' : Block c} {i : Instr}

theorem TokenResult.sameOperands (hr : TokenResult h i h') : h.SameOperands h' := by
  cases hr with
  | ended hi => exact ⟨rfl, rfl, rfl, rfl, rfl⟩
  | completed hi work hlen hout => exact { work.within.operands with }
  | stopped cause hh work hshadow => exact { work.within.operands with }

theorem TokenResult.cmd (hr : TokenResult h i h') : h'.cmd = h.cmd := by
  cases hr with
  | ended hi => rfl
  | completed hi work hlen hout => exact work.within.cmd
  | stopped cause hh work hshadow => exact work.within.cmd

theorem TokenResult.onlyChanges (hr : TokenResult h i h') : OnlyChanges h.byteAt h'.byteAt h.outAddr i.output := by
  cases hr with
  | ended hi => exact OnlyChanges.refl _ _ _
  | completed hi work hlen hout => exact work.bytes
  | stopped cause hh work hshadow => exact fun a _ => work.byteAt_of_noWrites rfl a

theorem TokenResult.sameShadow (hr : TokenResult h i h') (hi : i.mode ≠ .lzShadow) : h.SameShadow h' := by
  cases hr with
  | ended _ => exact ⟨rfl, rfl, rfl⟩
  | completed _ work hlen hout => exact { work.shadow hi with }
  | stopped cause hh work hshadow => exact { hshadow with }

/-- 60_exceptions.md R125: a token that takes the fault entry has no effect on memory or on the shadow buffer. -/
theorem TokenResult.faulted (hr : TokenResult h i h') (hs : h.status = .running) (hf : h'.status = .fault) :
    (∀ a, h'.byteAt a = h.byteAt a) ∧ h.SameShadow h' := by
  cases hr with
  | ended hi => cases hf
  | completed hi work hlen hout =>
    have : h.status = .fault := work.within.published.status.symm.trans hf
    rw [hs] at this
    cases this
  | stopped cause hh work hshadow => exact ⟨work.byteAt_of_noWrites rfl, { hshadow with }⟩

theorem TokenResult.memoryOk (hr : TokenResult h i h') (hm : h.MemoryOk) : h'.MemoryOk := by
  cases hr with
  | ended hi => exact hm
  | completed hi work hlen hout => exact work.memory hm
  | stopped cause hh work hshadow => exact work.memory hm

/-! ### The kinds of access by mode -/

theorem dstReadCount_eq_zero (hi : i.mode ≠ .lzDirect) : dstReadCount i = 0 := by
  cases i with
  | lzdMatch length => exact absurd rfl hi
  | _ => rfl

theorem bufReadCount_eq_zero (hi : i.mode ≠ .lzShadow) : bufReadCount i = 0 := by
  cases i with
  | lzsMatch length => exact absurd rfl hi
  | _ => rfl

theorem bufWriteCount_eq_zero (hi : i.mode ≠ .lzShadow) : bufWriteCount i = 0 := by
  cases i with
  | lzsLit count | lzsMatch length => exact absurd rfl hi
  | _ => rfl

/-- 20_memory.md R47 of a token's accesses. -/
theorem TokenResult.accessKinds (hr : TokenResult h i h') :
    ∃ accesses, h'.trace = h.trace ++ accesses ∧ (i.mode ≠ .lzDirect → dstReads accesses = []) ∧
      (i.mode ≠ .lzShadow → bufReads accesses = [] ∧ bufWrites accesses = []) := by
  cases hr with
  | ended hi => exact ⟨[], (List.append_nil _).symm, fun _ => rfl, fun _ => ⟨rfl, rfl⟩⟩
  | completed hi work hlen hout =>
    obtain ⟨accesses, htrace, hcounts⟩ := work.trace
    exact ⟨accesses, htrace,
      fun hm => List.eq_nil_of_length_eq_zero (hcounts.destReads.trans (dstReadCount_eq_zero hm)),
      fun hm => ⟨List.eq_nil_of_length_eq_zero (hcounts.shadowReads.trans (bufReadCount_eq_zero hm)),
        List.eq_nil_of_length_eq_zero (hcounts.shadowWrites.trans (bufWriteCount_eq_zero hm))⟩⟩
  | stopped cause hh work hshadow =>
    obtain ⟨accesses, htrace, hcounts⟩ := work.trace
    exact ⟨accesses, htrace, fun _ => List.eq_nil_of_length_eq_zero hcounts.destReads,
      fun _ => ⟨List.eq_nil_of_length_eq_zero hcounts.shadowReads, List.eq_nil_of_length_eq_zero hcounts.shadowWrites⟩⟩

end Result

/-! ### The exactness of accesses -/

/-- The offsets are 0, 1, 2, … in order and `x` is the next one, modulo `2 ^ w` (20_memory.md R49, R50). -/
def CountsTo {w : Nat} (offsets : List (BitVec w)) (x : BitVec w) : Prop :=
  offsets = offsetsUpTo w offsets.length ∧ x = BitVec.ofNat w offsets.length

theorem CountsTo.append {w : Nat} {offsets : List (BitVec w)} {x : BitVec w} (hc : CountsTo offsets x) (count : Nat) :
    CountsTo (offsets ++ offsetsFrom x count) (x + BitVec.ofNat w count) := by
  obtain ⟨hoffsets, rfl⟩ := hc
  constructor
  · rw [List.length_append, length_offsetsFrom, offsetsUpTo_add, ← hoffsets]
  · rw [List.length_append, length_offsetsFrom, BitVec.ofNat_add]

/-- A call that has read up to `x` and written up to `wp` keeps its promise if its registers publish them. -/
theorem exactAccess_of_counts {h : Block c} {x : c.Word} (hreads : CountsTo (srcReads h.trace) x)
    (hwrites : CountsTo ((dstWrites h.trace).map Prod.fst) h.wp)
    (hsp : h.status = .running ∨ h.status = .done → h.sp = x) (hresult : h.status = .done → h.result = h.sp)
    (hwpos : h.status = .done ∨ h.status = .fault → h.wpos = h.wp) : h.ExactAccess where
  reads _ := hreads.1
  writes _ := by simpa using hwrites.1
  sp hs := (hsp hs).trans hreads.2
  wp _ := by simpa using hwrites.2
  result := hresult
  wpos := hwpos

theorem Block.ExactAccess.counts {h : Block c} (hx : h.ExactAccess) (hs : h.status = .running) :
    CountsTo (srcReads h.trace) h.sp ∧ CountsTo ((dstWrites h.trace).map Prod.fst) h.wp := by
  have hne : h.status ≠ .idle := by simp [hs]
  exact ⟨⟨hx.reads hne, hx.sp (.inl hs)⟩, by simpa using hx.writes hne, by simpa using hx.wp hne⟩

/-- Only six registers matter. -/
theorem exactAccess_congr {h h' : Block c} (hx : h.ExactAccess) (hstatus : h'.status = h.status)
    (htrace : h'.trace = h.trace) (hsp : h'.sp = h.sp) (hwp : h'.wp = h.wp) (hresult : h'.result = h.result)
    (hwpos : h'.wpos = h.wpos) : h'.ExactAccess := by
  obtain ⟨reads, writes, sp, wp, result, wpos⟩ := hx
  constructor <;> simpa only [hstatus, htrace, hsp, hwp, hresult, hwpos]

/-- The accesses of a token, with those of the call before it. -/
theorem TokenProgress.counts {h g : Block c} {i : Instr} {w : Work} (hp : TokenProgress (fetchTag h) i w g)
    (hx : h.ExactAccess) (hs : h.status = .running) :
    CountsTo (srcReads g.trace) (h.sp + BitVec.ofNat c.aw w.sourceReads) ∧
      CountsTo ((dstWrites g.trace).map Prod.fst) (h.wp + BitVec.ofNat c.aw w.destWrites) := by
  obtain ⟨hreads, hwrites⟩ := hx.counts hs
  obtain ⟨accesses, htrace, hcounts⟩ := hp.trace
  have hall : g.trace = h.trace ++ (.srcRead h.sp :: accesses) := by
    rw [htrace, fetchTag_trace, List.append_assoc]; rfl
  rw [hall, srcReads_append, dstWrites_append, List.map_append]
  exact ⟨hcounts.sourceReads ▸ hreads.append _, hcounts.destWrites ▸ hwrites.append _⟩

theorem TokenResult.exactAccess {h h' : Block c} {i : Instr} (hr : TokenResult (fetchTag h) i h') (hx : h.ExactAccess)
    (hs : h.status = .running) : h'.ExactAccess := by
  cases hr with
  | ended hi =>
    obtain ⟨hreads, hwrites⟩ := (TokenProgress.start (fetchTag h) i).counts hx hs
    exact exactAccess_of_counts hreads (by simpa [Work.fetched] using hwrites) (fun _ => rfl) (fun _ => rfl) fun _ => rfl
  | @completed g len out hi work hlen hout =>
    obtain ⟨hreads, hwrites⟩ := work.counts hx hs
    have hrun : g.status = .running := work.within.published.status.trans hs
    refine exactAccess_of_counts hreads ?_ (fun _ => ?_) ?_ ?_
    · rw [advance_wp, hout, work.within.wp]; exact hwrites
    · rw [advance_sp, hlen, work.within.sp]; rfl
    · simp [hrun]
    · simp [hrun]
  | @stopped g reads cause hh work hshadow =>
    obtain ⟨hreads, hwrites⟩ := work.counts hx hs
    refine exactAccess_of_counts hreads ?_ ?_ ?_ fun _ => rfl
    · rw [raiseMalformed_wp, work.within.wp]; simpa [Work.fetched] using hwrites
    · simp
    · simp

theorem raiseMalformed_exactAccess {h : Block c} (cause : Cause) (hx : h.ExactAccess) (hs : h.status = .running) :
    (raiseMalformed cause h).ExactAccess := by
  obtain ⟨hreads, hwrites⟩ := hx.counts hs
  exact exactAccess_of_counts hreads hwrites (by simp) (by simp) fun _ => rfl

theorem enterCall_exactAccess (h : Block c) : (enterCall h).ExactAccess :=
  exactAccess_of_counts (x := 0) ⟨rfl, rfl⟩ ⟨rfl, rfl⟩ (fun _ => rfl) nofun (by rintro (hs | hs) <;> cases hs)

/-! ### The moves -/

/-- All a step can do when it answers a next state, with the token's result. -/
theorem step_result {h : Block c} {t : State} (hstep : step ⟨c, h⟩ = .next t) :
    ∃ h' : Block c, t = ⟨c, h'⟩ ∧
      ((h.status ≠ .running ∧ h' = h) ∨ (h.status = .running ∧ h' = raiseMalformed .srcOverrun h) ∨
        (h.status = .running ∧ ∃ i, h.mode = i.mode.code ∧ TokenResult (fetchTag h) i h')) := by
  obtain ⟨hs, rfl⟩ | ⟨hs, mode, hd, ⟨-, -, rfl⟩ | ⟨-, hexec⟩⟩ := step_cases hstep
  · exact ⟨h, rfl, .inl ⟨hs, rfl⟩⟩
  · exact ⟨_, rfl, .inr (.inl ⟨hs, rfl⟩)⟩
  · obtain ⟨h', hnext, hr⟩ := exec_result (decodeTag mode h.tagByte) (fetchTag h)
    rw [hnext] at hexec
    refine ⟨h', (Host.Outcome.next.inj hexec).symm, .inr (.inr ⟨hs, _, ?_, hr⟩)⟩
    rw [decodeTag_mode]
    exact (decoder_code hd).1

/-- All a host command can do: nothing, an accepted START, a reset, or outside a call a write of operand registers (10_state.md
R11 to R13, R18, R33) or a store to memory. -/
inductive HostEffect (h : Block c) : Block c → Prop where
  | nothing : HostEffect h h
  | started (ha : h.acceptsStart = true) : HostEffect h (enterCall h)
  | resetTaken : HostEffect h (hardwareReset h)
  | operands (hs : h.status ≠ .running) (src dst : c.Word) (mode : BitVec 2) (srcLen dstLen : c.Word) :
      HostEffect h { h with src := src, dst := dst, mode := mode, srcLen := srcLen, dstLen := dstLen }
  | stored (hs : h.status ≠ .running) (a : c.Word) (v : Byte) : HostEffect h (h.setByte a v)

theorem unlessRunning_effect {f : Block c → Block c} {h : Block c} (hf : h.status ≠ .running → HostEffect h (f h)) :
    HostEffect h (unlessRunning f h) := by
  by_cases hs : h.status = .running
  · rw [unlessRunning_running f hs]; exact .nothing
  · rw [unlessRunning_atRest f hs]; exact hf hs

theorem hostStart_effect (h : Block c) : HostEffect h (hostStart h) := by
  by_cases ha : h.acceptsStart = true
  · rw [hostStart_accepted ha]; exact .started ha
  · rw [hostStart_ignored ha]; exact .nothing

theorem hostAct_effect {cmd : HostCmd c} {h h' : Block c} (hact : hostAct cmd h = .next h') : HostEffect h h' := by
  cases cmd with
  | writeSrc v => cases hact; exact unlessRunning_effect fun hs => .operands hs v h.dst h.mode h.srcLen h.dstLen
  | writeDst v => cases hact; exact unlessRunning_effect fun hs => .operands hs h.src v h.mode h.srcLen h.dstLen
  | writeMode v => cases hact; exact unlessRunning_effect fun hs => .operands hs h.src h.dst v h.srcLen h.dstLen
  | writeSrcLen v =>
    simp only [hostAct] at hact
    split at hact <;> cases hact
    exact unlessRunning_effect fun hs => .operands hs h.src h.dst h.mode v h.dstLen
  | writeDstLen v =>
    simp only [hostAct] at hact
    split at hact <;> cases hact
    exact unlessRunning_effect fun hs => .operands hs h.src h.dst h.mode h.srcLen v
  | start => cases hact; exact hostStart_effect h
  | reset => cases hact; exact .resetTaken
  | poke a v =>
    simp only [hostAct] at hact
    split at hact <;> cases hact
    exact .stored ‹_› a v

theorem step_memoryOk {h : Block c} {t : State} (hstep : step ⟨c, h⟩ = .next t) (hm : h.MemoryOk) : t.block.MemoryOk := by
  obtain ⟨h', rfl, ⟨-, rfl⟩ | ⟨-, rfl⟩ | ⟨-, i, -, hr⟩⟩ := step_result hstep
  · exact hm
  · exact hm
  · exact hr.memoryOk hm

theorem HostEffect.memoryOk {h h' : Block c} (he : HostEffect h h') (hm : h.MemoryOk) : h'.MemoryOk := by
  cases he with
  | nothing => exact hm
  | started ha => exact enterCall_memoryOk h hm
  | resetTaken => exact hardwareReset_memoryOk h hm
  | operands hs src dst mode srcLen dstLen => exact hm
  | stored hs a v => exact setByte_memoryOk h a v hm

theorem step_exactAccess {h : Block c} {t : State} (hstep : step ⟨c, h⟩ = .next t) (hx : h.ExactAccess) :
    t.block.ExactAccess := by
  obtain ⟨h', rfl, ⟨-, rfl⟩ | ⟨hs, rfl⟩ | ⟨hs, i, -, hr⟩⟩ := step_result hstep
  · exact hx
  · exact raiseMalformed_exactAccess .srcOverrun hx hs
  · exact hr.exactAccess hx hs

theorem HostEffect.exactAccess {h h' : Block c} (he : HostEffect h h') (hx : h.ExactAccess) : h'.ExactAccess := by
  cases he with
  | nothing => exact hx
  | started ha => exact enterCall_exactAccess h
  | resetTaken => exact exactAccess_of_idle rfl
  | operands hs src dst mode srcLen dstLen => exact exactAccess_congr hx rfl rfl rfl rfl rfl rfl
  | stored hs a v => exact exactAccess_congr hx rfl rfl rfl rfl rfl rfl

/-- 20_memory.md R47 of a step: the tag fetch, then the token's accesses. -/
theorem step_accessKinds {h h' : Block c} (hstep : step ⟨c, h⟩ = .next ⟨c, h'⟩) :
    ∃ accesses, h'.trace = h.trace ++ accesses ∧ (h.mode ≠ Mode.lzDirect.code → dstReads accesses = []) ∧
      (h.mode ≠ Mode.lzShadow.code → bufReads accesses = [] ∧ bufWrites accesses = []) := by
  obtain ⟨_, ⟨⟩, ⟨-, rfl⟩ | ⟨-, rfl⟩ | ⟨-, i, hmode, hr⟩⟩ := step_result hstep
  · exact ⟨[], by simp, fun _ => rfl, fun _ => ⟨rfl, rfl⟩⟩
  · exact ⟨[], by simp, fun _ => rfl, fun _ => ⟨rfl, rfl⟩⟩
  · obtain ⟨accesses, htrace, hdst, hbuf⟩ := hr.accessKinds
    refine ⟨.srcRead h.sp :: accesses, by simp [htrace], fun hm => ?_, fun hm => ?_⟩
    · exact hdst fun hi => hm (by rw [hmode, hi])
    · exact hbuf fun hi => hm (by rw [hmode, hi])

end Sys2Proof.Machine
end

section
/-! SUPPORT. The statements about memory and accesses (20_memory.md), settled. -/

namespace Sys2Proof.Machine

/-- Settles O34: only a destination write and a host store change memory, and both keep its form. -/
theorem movesKeepMemoryOk : Obligations.MovesKeepMemoryOk := by
  intro s t hmove hm
  cases hmove with
  | engine hstep => exact step_memoryOk hstep hm
  | host cmd hact => exact (hostAct_effect hact).memoryOk hm
  | read r v hread => rw [hostRead_frame hread]; exact hm

/-- Settles O35: a step goes on counting from the cursors (`TokenProgress.counts`), START counts from 0. -/
theorem movesKeepExactAccess : Obligations.MovesKeepExactAccess := by
  intro s t hmove hx
  cases hmove with
  | engine hstep => exact step_exactAccess hstep hx
  | host cmd hact => exact (hostAct_effect hact).exactAccess hx
  | read r v hread => rw [hostRead_frame hread]; exact exactAccess_congr hx rfl rfl rfl rfl rfl rfl

/-- Settles O24, field by field from the token's result. -/
theorem tokenFrame : Obligations.TokenFrame := by
  intro c h i
  obtain ⟨h', hnext, hr⟩ := exec_result i h
  obtain ⟨accesses, htrace, -⟩ := hr.accessKinds
  exact ⟨h', hnext, hr.sameOperands, hr.cmd, hr.onlyChanges, fun hs hf => (hr.faulted hs hf).1, hr.sameShadow,
    fun hs hf => (hr.faulted hs hf).2, accesses, htrace⟩

/-- Settles O26: the token fetched belongs to the decoder `MODE` names. -/
theorem accessKindsFollowMode : Obligations.AccessKindsFollowMode := fun _ _ _ hstep => step_accessKinds hstep

end Sys2Proof.Machine
end

section
/-! SUPPORT. The tag byte by its value (30_encoding.md R62 to R67): what its bits and fields are as numbers, and the statements about
decoding, encoding and the opcode table that follow. -/

namespace Sys2Proof

/-! ### Bits and fields of a tag as numbers -/

theorem and_twoPow_eq (tag : Byte) (i : Nat) :
    tag &&& BitVec.twoPow 8 i = if tag.toNat / 2 ^ i % 2 = 1 then BitVec.twoPow 8 i else 0#8 := by
  have hbit : tag.getLsbD i = true ↔ tag.toNat / 2 ^ i % 2 = 1 := by
    rw [← BitVec.testBit_toNat, Nat.testBit_eq_decide_div_mod_eq, decide_eq_true_eq]
  simp only [BitVec.and_twoPow, hbit]

/-- `tag[7]`, the first test of both tag maps (30_encoding.md R66, R67). -/
theorem and_bit7_set {tag : Byte} (h : 128 ≤ tag.toNat) : tag &&& 0x80#8 = 0x80#8 :=
  (and_twoPow_eq tag 7).trans (if_pos (by omega))

theorem and_bit7_clear {tag : Byte} (h : tag.toNat ≤ 127) : tag &&& 0x80#8 = 0#8 :=
  (and_twoPow_eq tag 7).trans (if_neg (by omega))

/-- `tag[6]` where `tag[7]` is clear: the second test of the RLE tag map (30_encoding.md R67). -/
theorem and_bit6_set {tag : Byte} (h64 : 64 ≤ tag.toNat) (h127 : tag.toNat ≤ 127) : tag &&& 0x40#8 = 0x40#8 :=
  (and_twoPow_eq tag 6).trans (if_pos (by omega))

theorem and_bit6_clear {tag : Byte} (h : tag.toNat ≤ 63) : tag &&& 0x40#8 = 0#8 :=
  (and_twoPow_eq tag 6).trans (if_neg (by omega))

theorem and_bit6_cases (tag : Byte) : tag &&& 0x40#8 = 0x40#8 ∨ tag &&& 0x40#8 = 0#8 := by
  rw [show 0x40#8 = BitVec.twoPow 8 6 from rfl, and_twoPow_eq]
  exact ite_eq_or_eq _ _ _

theorem ne_zero_of_toNat {tag : Byte} (h1 : 1 ≤ tag.toNat) : tag ≠ 0#8 := by
  rintro rfl
  exact absurd h1 (by decide)

/-- A field at the bottom of a byte is a remainder. -/
theorem toNat_and_low (x : Byte) {n : Nat} (hn : n ≤ 8) : (x &&& BitVec.ofNat 8 (2 ^ n - 1)).toNat = x.toNat % 2 ^ n := by
  have hpow : 2 ^ n ≤ 2 ^ 8 := Nat.pow_le_pow_right (by decide) hn
  have hpos : 0 < 2 ^ n := Nat.two_pow_pos n
  rw [BitVec.toNat_and, BitVec.toNat_ofNat, Nat.mod_eq_of_lt (by omega), Nat.and_two_pow_sub_one_eq_mod]

theorem tagLow7_toNat (tag : Byte) : (tagLow7 tag).toNat = tag.toNat % 128 := toNat_and_low tag (n := 7) (by decide)

theorem tagLow6Biased_toNat (tag : Byte) : (tagLow6Biased tag).toNat = tag.toNat % 64 + 1 := by
  have hlow : (tag &&& 0x3F#8).toNat = tag.toNat % 64 := toNat_and_low tag (n := 6) (by decide)
  rw [tagLow6Biased, BitVec.toNat_add, hlow, BitVec.toNat_ofNat]
  omega

theorem tagRunBiased_toNat (tag : Byte) : (tagRunBiased tag).toNat = tag.toNat / 16 % 8 + 1 := by
  have hlow : ((tag >>> 4) &&& 0x7#8).toNat = (tag >>> 4).toNat % 8 := toNat_and_low (tag >>> 4) (n := 3) (by decide)
  rw [tagRunBiased, BitVec.toNat_add, hlow, BitVec.toNat_ushiftRight, Nat.shiftRight_eq_div_pow, BitVec.toNat_ofNat]
  omega

theorem tagLow4Biased_toNat (tag : Byte) : (tagLow4Biased tag).toNat = tag.toNat % 16 + 1 := by
  have hlow : (tag &&& 0x0F#8).toNat = tag.toNat % 16 := toNat_and_low tag (n := 4) (by decide)
  rw [tagLow4Biased, BitVec.toNat_add, hlow, BitVec.toNat_ofNat]
  omega

/-- A byte is the word of its number. -/
theorem eq_ofNat_of_toNat {x : Byte} {n : Nat} (h : x.toNat = n) : x = BitVec.ofNat 8 n :=
  (BitVec.toNat_eq_nat.mp h).2

theorem toNat_ofNat_byte {n : Nat} (h : n < 256) : (BitVec.ofNat 8 n).toNat = n := Nat.mod_eq_of_lt h

/-- Bits above a field add to it. -/
theorem toNat_or_above {x y : Byte} {n a : Nat} (hx : x.toNat = 2 ^ n * a) (hy : y.toNat < 2 ^ n) :
    (x ||| y).toNat = x.toNat + y.toNat := by
  rw [BitVec.toNat_or, hx, Nat.two_pow_add_eq_or_of_lt hy]

/-! ### The field ranges of 30_encoding.md R63 and R65 -/

theorem wf_lzdLit_iff (count : Byte) : (Instr.lzdLit count).wf = true ↔ 1 ≤ count.toNat ∧ count.toNat ≤ 127 := by
  simp [Instr.wf]

theorem wf_lzsLit_iff (count : Byte) : (Instr.lzsLit count).wf = true ↔ 1 ≤ count.toNat ∧ count.toNat ≤ 127 := by
  simp [Instr.wf]

theorem wf_lzdMatch_iff (length : Byte) : (Instr.lzdMatch length).wf = true ↔ length.toNat ≤ 127 := by simp [Instr.wf]

theorem wf_lzsMatch_iff (length : Byte) : (Instr.lzsMatch length).wf = true ↔ length.toNat ≤ 127 := by simp [Instr.wf]

theorem wf_rleRun_iff (run : Byte) : (Instr.rleRun run).wf = true ↔ 2 ≤ run.toNat ∧ run.toNat ≤ 64 := by simp [Instr.wf]

theorem wf_rleLit_iff (litlen : Byte) : (Instr.rleLit litlen).wf = true ↔ 1 ≤ litlen.toNat ∧ litlen.toNat ≤ 64 := by
  simp [Instr.wf]

theorem wf_rleComb_iff (run litlen : Byte) : (Instr.rleComb run litlen).wf = true ↔
    (1 ≤ run.toNat ∧ run.toNat ≤ 8) ∧ (1 ≤ litlen.toNat ∧ litlen.toNat ≤ 16) := by simp [Instr.wf]

/-! ### The tag byte of a token as a number -/

theorem lzMatchTag_toNat {length : Byte} (h : length.toNat ≤ 127) : (0x80#8 ||| length).toNat = 128 + length.toNat :=
  toNat_or_above (n := 7) (a := 1) rfl (by omega)

/-- The bias of 30_encoding.md R65 taken off. -/
theorem unbiased_toNat {count : Byte} (h : 1 ≤ count.toNat) : (count - 1#8).toNat = count.toNat - 1 :=
  BitVec.toNat_sub_of_le h

theorem encode_rleLit_toNat {litlen : Byte} (h1 : 1 ≤ litlen.toNat) (h64 : litlen.toNat ≤ 64) :
    (encode (.rleLit litlen)).toNat = 64 + (litlen.toNat - 1) := by
  have hlit := unbiased_toNat h1
  rw [encode, toNat_or_above (n := 6) (a := 1) rfl (by omega), hlit]
  rfl

theorem encode_rleComb_toNat {run litlen : Byte} (hr1 : 1 ≤ run.toNat) (hr8 : run.toNat ≤ 8) (hl1 : 1 ≤ litlen.toNat)
    (hl16 : litlen.toNat ≤ 16) :
    (encode (.rleComb run litlen)).toNat = 128 + 16 * (run.toNat - 1) + (litlen.toNat - 1) := by
  have hrun := unbiased_toNat hr1
  have hlit := unbiased_toNat hl1
  have hfield : ((run - 1#8) <<< 4).toNat = 16 * (run.toNat - 1) := by
    rw [BitVec.toNat_shiftLeft, hrun, Nat.shiftLeft_eq]
    omega
  have hhigh : (0x80#8 ||| ((run - 1#8) <<< 4)).toNat = 128 + 16 * (run.toNat - 1) := by
    rw [toNat_or_above (n := 7) (a := 1) rfl (by omega), hfield]
    rfl
  rw [encode, toNat_or_above (n := 4) (a := 8 + (run.toNat - 1)) (by omega) (by omega), hhigh, hlit]

/-! ### The rows of the tag maps -/

/-- 30_encoding.md R66, the literal row. -/
theorem decodeTag_lzLit {tag : Byte} (h1 : 1 ≤ tag.toNat) (h127 : tag.toNat ≤ 127) :
    decodeTag .lzDirect tag = .lzdLit tag ∧ decodeTag .lzShadow tag = .lzsLit tag := by
  have hlow : tagLow7 tag = tag := BitVec.eq_of_toNat_eq (by rw [tagLow7_toNat]; omega)
  simp [decodeTag, ne_zero_of_toNat h1, and_bit7_clear h127, hlow]

/-- 30_encoding.md R66, the match row. -/
theorem decodeTag_lzMatch {tag : Byte} (h128 : 128 ≤ tag.toNat) :
    decodeTag .lzDirect tag = .lzdMatch (BitVec.ofNat 8 (tag.toNat - 128)) ∧
      decodeTag .lzShadow tag = .lzsMatch (BitVec.ofNat 8 (tag.toNat - 128)) := by
  have hlow : tagLow7 tag = BitVec.ofNat 8 (tag.toNat - 128) := eq_ofNat_of_toNat (by rw [tagLow7_toNat]; omega)
  have hn0 : tag ≠ 0#8 := ne_zero_of_toNat (by omega)
  simp [decodeTag, hn0, and_bit7_set h128, hlow]

/-- 30_encoding.md R67, the row of the pure run. -/
theorem decodeTag_rleRun {tag : Byte} (h1 : 1 ≤ tag.toNat) (h63 : tag.toNat ≤ 63) :
    decodeTag .rle tag = .rleRun (BitVec.ofNat 8 (tag.toNat + 1)) := by
  have hlow : tagLow6Biased tag = BitVec.ofNat 8 (tag.toNat + 1) :=
    eq_ofNat_of_toNat (by rw [tagLow6Biased_toNat]; omega)
  have h7 : tag &&& 0x80#8 = 0#8 := and_bit7_clear (by omega)
  simp [decodeTag, ne_zero_of_toNat h1, h7, and_bit6_clear h63, hlow]

/-- 30_encoding.md R67, the row of the pure literal. -/
theorem decodeTag_rleLit {tag : Byte} (h64 : 64 ≤ tag.toNat) (h127 : tag.toNat ≤ 127) :
    decodeTag .rle tag = .rleLit (BitVec.ofNat 8 (tag.toNat - 64 + 1)) := by
  have hlow : tagLow6Biased tag = BitVec.ofNat 8 (tag.toNat - 64 + 1) :=
    eq_ofNat_of_toNat (by rw [tagLow6Biased_toNat]; omega)
  have hn0 : tag ≠ 0#8 := ne_zero_of_toNat (by omega)
  simp [decodeTag, hn0, and_bit7_clear h127, and_bit6_set h64 h127, hlow]

/-- 30_encoding.md R67, the row of the combined token. -/
theorem decodeTag_rleComb {tag : Byte} (h128 : 128 ≤ tag.toNat) :
    decodeTag .rle tag =
      .rleComb (BitVec.ofNat 8 ((tag.toNat - 128) / 16 + 1)) (BitVec.ofNat 8 (tag.toNat % 16 + 1)) := by
  have hlt := tag.isLt
  have hrun : tagRunBiased tag = BitVec.ofNat 8 ((tag.toNat - 128) / 16 + 1) :=
    eq_ofNat_of_toNat (by rw [tagRunBiased_toNat]; omega)
  have hn0 : tag ≠ 0#8 := ne_zero_of_toNat (by omega)
  simp [decodeTag, hn0, and_bit7_set h128, hrun, eq_ofNat_of_toNat (tagLow4Biased_toNat tag)]

/-- The tables of 30_encoding.md R66 and R67, row by row: the tag values of the row and the token they stand for. -/
inductive TagRow : Mode → Byte → Instr → Prop where
  | lzdEnd : TagRow .lzDirect 0#8 .lzdEnd
  | lzdLit {tag : Byte} : 1 ≤ tag.toNat → tag.toNat ≤ 127 → TagRow .lzDirect tag (.lzdLit tag)
  | lzdMatch {tag : Byte} : 128 ≤ tag.toNat → TagRow .lzDirect tag (.lzdMatch (BitVec.ofNat 8 (tag.toNat - 128)))
  | lzsEnd : TagRow .lzShadow 0#8 .lzsEnd
  | lzsLit {tag : Byte} : 1 ≤ tag.toNat → tag.toNat ≤ 127 → TagRow .lzShadow tag (.lzsLit tag)
  | lzsMatch {tag : Byte} : 128 ≤ tag.toNat → TagRow .lzShadow tag (.lzsMatch (BitVec.ofNat 8 (tag.toNat - 128)))
  | rleEnd : TagRow .rle 0#8 .rleEnd
  | rleRun {tag : Byte} : 1 ≤ tag.toNat → tag.toNat ≤ 63 → TagRow .rle tag (.rleRun (BitVec.ofNat 8 (tag.toNat + 1)))
  | rleLit {tag : Byte} : 64 ≤ tag.toNat → tag.toNat ≤ 127 →
      TagRow .rle tag (.rleLit (BitVec.ofNat 8 (tag.toNat - 64 + 1)))
  | rleComb {tag : Byte} : 128 ≤ tag.toNat →
      TagRow .rle tag (.rleComb (BitVec.ofNat 8 ((tag.toNat - 128) / 16 + 1)) (BitVec.ofNat 8 (tag.toNat % 16 + 1)))

/-- The decoder reads every tag of every mode by one of the rows. -/
theorem decodeTag_row (mode : Mode) (tag : Byte) : TagRow mode tag (decodeTag mode tag) := by
  have hrange : tag = 0#8 ∨ (1 ≤ tag.toNat ∧ tag.toNat ≤ 63) ∨ (64 ≤ tag.toNat ∧ tag.toNat ≤ 127) ∨ 128 ≤ tag.toNat := by
    rw [BitVec.toNat_eq, BitVec.toNat_ofNat]
    omega
  cases mode with
  | lzDirect =>
    obtain rfl | ⟨h1, h63⟩ | ⟨h64, h127⟩ | h128 := hrange
    · exact .lzdEnd
    · rw [(decodeTag_lzLit h1 (by omega)).1]; exact .lzdLit h1 (by omega)
    · rw [(decodeTag_lzLit (by omega) h127).1]; exact .lzdLit (by omega) h127
    · rw [(decodeTag_lzMatch h128).1]; exact .lzdMatch h128
  | lzShadow =>
    obtain rfl | ⟨h1, h63⟩ | ⟨h64, h127⟩ | h128 := hrange
    · exact .lzsEnd
    · rw [(decodeTag_lzLit h1 (by omega)).2]; exact .lzsLit h1 (by omega)
    · rw [(decodeTag_lzLit (by omega) h127).2]; exact .lzsLit (by omega) h127
    · rw [(decodeTag_lzMatch h128).2]; exact .lzsMatch h128
  | rle =>
    obtain rfl | ⟨h1, h63⟩ | ⟨h64, h127⟩ | h128 := hrange
    · exact .rleEnd
    · rw [decodeTag_rleRun h1 h63]; exact .rleRun h1 h63
    · rw [decodeTag_rleLit h64 h127]; exact .rleLit h64 h127
    · rw [decodeTag_rleComb h128]; exact .rleComb h128

/-- 30_encoding.md R63, R65: the fields of a decoded token lie in their ranges. -/
theorem TagRow.wf {mode : Mode} {tag : Byte} {i : Instr} (hrow : TagRow mode tag i) : i.wf = true := by
  have hlt := tag.isLt
  cases hrow with
  | lzdEnd | lzsEnd | rleEnd => rfl
  | lzdLit h1 h127 => exact (wf_lzdLit_iff _).mpr ⟨h1, h127⟩
  | lzsLit h1 h127 => exact (wf_lzsLit_iff _).mpr ⟨h1, h127⟩
  | lzdMatch h128 => rw [wf_lzdMatch_iff, toNat_ofNat_byte (by omega)]; omega
  | lzsMatch h128 => rw [wf_lzsMatch_iff, toNat_ofNat_byte (by omega)]; omega
  | rleRun h1 h63 => rw [wf_rleRun_iff, toNat_ofNat_byte (by omega)]; omega
  | rleLit h64 h127 => rw [wf_rleLit_iff, toNat_ofNat_byte (by omega)]; omega
  | rleComb h128 => rw [wf_rleComb_iff, toNat_ofNat_byte (by omega), toNat_ofNat_byte (by omega)]; omega

/-- The layouts of 30_encoding.md R62 and R64 give the tag back. -/
theorem TagRow.encode_eq {mode : Mode} {tag : Byte} {i : Instr} (hrow : TagRow mode tag i) : encode i = tag := by
  have hlt := tag.isLt
  apply BitVec.eq_of_toNat_eq
  cases hrow with
  | lzdEnd | lzsEnd | rleEnd | lzdLit | lzsLit => rfl
  | lzdMatch h128 | lzsMatch h128 =>
    have hfield := toNat_ofNat_byte (n := tag.toNat - 128) (by omega)
    exact (lzMatchTag_toNat (by omega)).trans (by omega)
  | rleRun h1 h63 =>
    have hfield := toNat_ofNat_byte (n := tag.toNat + 1) (by omega)
    exact (unbiased_toNat (by omega)).trans (by omega)
  | rleLit h64 h127 =>
    have hfield := toNat_ofNat_byte (n := tag.toNat - 64 + 1) (by omega)
    rw [encode_rleLit_toNat (by omega) (by omega)]
    omega
  | rleComb h128 =>
    have hrun := toNat_ofNat_byte (n := (tag.toNat - 128) / 16 + 1) (by omega)
    have hlit := toNat_ofNat_byte (n := tag.toNat % 16 + 1) (by omega)
    rw [encode_rleComb_toNat (by omega) (by omega) (by omega) (by omega)]
    omega

/-- The masks of spec/opcode_table.json that hold two bits. -/
theorem and_top2 (tag : Byte) : tag &&& 0xC0#8 = (tag &&& 0x80#8) ||| (tag &&& 0x40#8) :=
  BitVec.and_or_distrib_left (x := tag) (y := 0x80#8) (z := 0x40#8)

/-- The tag fits the row of its token in spec/opcode_table.json and no other: the row's mask keeps the bits that part the rows. -/
theorem TagRow.fits_only {mode : Mode} {tag : Byte} {i : Instr} (hrow : TagRow mode tag i) :
    (opcodeTable.filter fun r => r.fits mode tag).map Row.kind = [i.kind] := by
  have hall : tag &&& 0xFF#8 = tag := BitVec.and_allOnes (x := tag)
  cases hrow with
  | lzdEnd | lzsEnd | rleEnd => rfl
  | lzdLit h1 h127 | lzsLit h1 h127 =>
    simp [opcodeTable, Row.fits, Instr.kind, hall, ne_zero_of_toNat h1, and_bit7_clear h127]
  | lzdMatch h128 | lzsMatch h128 =>
    have hn0 : tag ≠ 0#8 := ne_zero_of_toNat (by omega)
    simp [opcodeTable, Row.fits, Instr.kind, hall, hn0, and_bit7_set h128]
  | rleRun h1 h63 =>
    have h7 : tag &&& 0x80#8 = 0#8 := and_bit7_clear (by omega)
    simp [opcodeTable, Row.fits, Instr.kind, hall, and_top2, ne_zero_of_toNat h1, h7, and_bit6_clear h63]
  | rleLit h64 h127 =>
    have hn0 : tag ≠ 0#8 := ne_zero_of_toNat (by omega)
    simp [opcodeTable, Row.fits, Instr.kind, hall, and_top2, hn0, and_bit7_clear h127, and_bit6_set h64 h127]
  | rleComb h128 =>
    have hn0 : tag ≠ 0#8 := ne_zero_of_toNat (by omega)
    obtain h6 | h6 := and_bit6_cases tag
    all_goals simp [opcodeTable, Row.fits, Instr.kind, hall, and_top2, hn0, and_bit7_set h128, h6]

end Sys2Proof

namespace Sys2Proof.Machine

/-! ### The statements about tags -/

/-- Settles O1. -/
theorem specWordsDecode : Obligations.SpecWordsDecode := by
  unfold Obligations.SpecWordsDecode
  decide

/-- Settles O2, row by row. -/
theorem lzTagMap : Obligations.LzTagMap := by
  intro tag
  refine ⟨fun h0 => ?_, decodeTag_lzLit, decodeTag_lzMatch⟩
  rw [eq_ofNat_of_toNat h0]
  exact ⟨rfl, rfl⟩

/-- Settles O3, row by row. -/
theorem rleTagMap : Obligations.RleTagMap := by
  intro tag
  refine ⟨fun h0 => ?_, decodeTag_rleRun, decodeTag_rleLit, decodeTag_rleComb⟩
  rw [eq_ofNat_of_toNat h0]
  rfl

/-- Settles O5: the tag's value lies in the range of the token's row, and the row gives the fields back. -/
theorem decodeOfEncode : Obligations.DecodeOfEncode := by
  intro i hwf
  cases i with
  | lzdEnd | lzsEnd | rleEnd => rfl
  | lzdLit count =>
    obtain ⟨h1, h127⟩ := (wf_lzdLit_iff count).mp hwf
    exact (decodeTag_lzLit h1 h127).1
  | lzsLit count =>
    obtain ⟨h1, h127⟩ := (wf_lzsLit_iff count).mp hwf
    exact (decodeTag_lzLit h1 h127).2
  | lzdMatch length =>
    have htag : (encode (.lzdMatch length)).toNat = 128 + length.toNat :=
      lzMatchTag_toNat ((wf_lzdMatch_iff length).mp hwf)
    refine (decodeTag_lzMatch (by omega)).1.trans ?_
    rw [htag, Nat.add_sub_cancel_left, ← eq_ofNat_of_toNat rfl]
  | lzsMatch length =>
    have htag : (encode (.lzsMatch length)).toNat = 128 + length.toNat :=
      lzMatchTag_toNat ((wf_lzsMatch_iff length).mp hwf)
    refine (decodeTag_lzMatch (by omega)).2.trans ?_
    rw [htag, Nat.add_sub_cancel_left, ← eq_ofNat_of_toNat rfl]
  | rleRun run =>
    obtain ⟨h2, h64⟩ := (wf_rleRun_iff run).mp hwf
    have htag : (encode (.rleRun run)).toNat = run.toNat - 1 := unbiased_toNat (by omega)
    refine (decodeTag_rleRun (by omega) (by omega)).trans ?_
    rw [htag, ← eq_ofNat_of_toNat (x := run) (by omega)]
  | rleLit litlen =>
    obtain ⟨h1, h64⟩ := (wf_rleLit_iff litlen).mp hwf
    have htag := encode_rleLit_toNat h1 h64
    refine (decodeTag_rleLit (by omega) (by omega)).trans ?_
    rw [htag, ← eq_ofNat_of_toNat (x := litlen) (by omega)]
  | rleComb run litlen =>
    obtain ⟨⟨hr1, hr8⟩, hl1, hl16⟩ := (wf_rleComb_iff run litlen).mp hwf
    have htag := encode_rleComb_toNat hr1 hr8 hl1 hl16
    refine (decodeTag_rleComb (by omega)).trans ?_
    rw [htag, ← eq_ofNat_of_toNat (x := run) (by omega), ← eq_ofNat_of_toNat (x := litlen) (by omega)]

/-- Settles O6. -/
theorem encodeOfDecode : Obligations.EncodeOfDecode := fun mode tag =>
  ⟨(decodeTag_row mode tag).encode_eq, decodeTag_mode mode tag, (decodeTag_row mode tag).wf⟩

/-- Settles O4. -/
theorem tableRowsPartitionTags : Obligations.TableRowsPartitionTags := fun mode tag => (decodeTag_row mode tag).fits_only

end Sys2Proof.Machine
end

section
/-! SUPPORT. The statements about the step and the cursors (30_encoding.md R61, R68, R76), settled. -/

namespace Sys2Proof.Machine

variable {c : Config}

/-- Bytes decode only by a decoder the block has, by its tag map. -/
theorem decode_cons_ok {v : BitVec 2} {tag : Byte} {bytes rest : List Byte} {i : Instr}
    (hdec : decode c v (tag :: bytes) = .ok (i, rest)) : ∃ mode, c.decoder v = some mode ∧ decodeTag mode tag = i := by
  simp only [decode] at hdec
  rcases hmode : Mode.ofCode v with _ | mode
  · simp [hmode] at hdec
  · by_cases hhas : c.has mode = true
    · simp only [hmode, hhas, if_true, Except.ok.injEq, Prod.mk.injEq] at hdec
      exact ⟨mode, by simp [Config.decoder, hmode, hhas], hdec.1⟩
    · simp [hmode, hhas] at hdec

/-- Every terminator is one byte long and writes nothing (30_encoding.md R61). -/
theorem isEnd_length_output {i : Instr} (hi : i.isEnd = true) : i.length = 1 ∧ i.output = 0 := by
  cases i with
  | lzdEnd | lzsEnd | rleEnd => exact ⟨rfl, rfl⟩
  | _ => cases hi

/-- A token of a call that does not fault moves the cursors by its own length and output. -/
theorem TokenResult.cursors {h h' : Block c} {i : Instr} (hr : TokenResult h i h') (hf : h'.status ≠ .fault) :
    h'.sp = h.sp + BitVec.ofNat c.aw i.length ∧ h'.wp = h.wp + BitVec.ofNat c.aw i.output := by
  cases hr with
  | ended hi =>
    obtain ⟨hlen, hout⟩ := isEnd_length_output hi
    rw [hlen, hout]
    exact ⟨rfl, (BitVec.add_zero _).symm⟩
  | completed hi work hlen hout => rw [advance_sp, advance_wp, hlen, hout, work.within.sp, work.within.wp]; exact ⟨rfl, rfl⟩
  | stopped cause hh work hshadow => exact absurd rfl hf

/-- Settles O7: after the fetch the block is `fetchTag h`. -/
theorem stepRunsFetchedToken : Obligations.StepRunsFetchedToken := fun _ _ _ hs hd hlen => step_token hs hd hlen

/-- Settles O8. -/
theorem stepRunsDecodedBytes : Obligations.StepRunsDecodedBytes := by
  intro c h i rest hs hlen hdec
  obtain ⟨mode, hd, rfl⟩ := decode_cons_ok hdec
  exact stepRunsFetchedToken c h mode hs hd hlen

/-- Settles O10. -/
theorem noDecoderStops : Obligations.NoDecoderStops := fun _ _ hs hd => step_noDecoder hs hd

/-- Settles O11: without `HARDEN` a step has no third way out of a token. -/
theorem callEndsExactlyAtZeroTag : Obligations.CallEndsExactlyAtZeroTag := by
  intro c h t hsoft hs hstep
  obtain ⟨h', rfl, ⟨hstay, htag⟩ | ⟨rfl, htag⟩ | ⟨-, hh⟩⟩ := step_running_cases hs hstep
  · have hrun : h'.status = .running := hstay.published.status.trans hs
    simp [hrun, htag]
  · simp [htag]
  · rw [hsoft] at hh
    cases hh

/-- Settles O23. -/
theorem cursorsAdvanceByToken : Obligations.CursorsAdvanceByToken := by
  intro c h h' i _ hexec hf
  obtain ⟨g, hnext, hr⟩ := exec_result i h
  rw [hexec] at hnext
  cases hnext
  exact hr.cursors hf

end Sys2Proof.Machine
end

section
/-! SUPPORT. The reference encoder (45_encoder_reference.md): its streams spell the source token by token, so they are canonical
(30_encoding.md R71). -/

namespace Sys2Proof.RefEncoder

open Sys2Proof.Machine

/-- From source position `pos` on, the stream spells `source`: a literal token holds the bytes that come next, a match repeats the
bytes `distance` before them, the terminator stands at the end (30_encoding.md R62, R71; 45_encoder_reference.md R112 to R116). -/
inductive Spells (source : List Byte) : Nat → List Byte → Prop where
  | terminator : Spells source source.length [0x00#8]
  | literal (pos count : Nat) (rest : List Byte) : 1 ≤ count → count ≤ 127 → pos + count ≤ source.length →
      Spells source (pos + count) rest →
      Spells source pos (BitVec.ofNat 8 count :: ((source.drop pos).take count ++ rest))
  | backReference (pos length distance : Nat) (rest : List Byte) : 4 ≤ length → length ≤ 127 →
      1 ≤ distance → distance ≤ 255 → distance ≤ pos → pos + length ≤ source.length →
      (∀ k < length, source[pos - distance + k]? = source[pos + k]?) →
      Spells source (pos + length) rest →
      Spells source pos ((0x80#8 ||| BitVec.ofNat 8 length) :: BitVec.ofNat 8 distance :: rest)

/-- The payload of a literal token that fits the source. -/
theorem length_payload {source : List Byte} {pos count : Nat} (hfit : pos + count ≤ source.length) :
    ((source.drop pos).take count).length = count := by
  rw [List.length_take, List.length_drop]
  omega

/-- Such a stream is canonical. -/
theorem Spells.canonical {source stream : List Byte} {pos : Nat} (hs : Spells source pos stream) :
    CanonicalFrom pos stream := by
  induction hs with
  | terminator => exact .terminator _
  | literal pos count rest h1 h127 hfit _ ih =>
    have hlen := length_payload hfit
    have hcan := CanonicalFrom.literal pos ((source.drop pos).take count) rest (by omega) (by omega) (by rwa [hlen])
    rwa [hlen] at hcan
  | backReference pos length distance rest h4 h127 h1 h255 hback _ _ _ ih =>
    exact .backReference pos length distance rest h4 h127 h1 h255 hback ih

/-! ### The match search, 45_encoder_reference.md R112 -/

theorem runLength_le (source : List Byte) (pos i j room : Nat) : runLength source pos i j room ≤ room := by
  induction room generalizing j with
  | zero => exact le_refl _
  | succ room ih =>
    unfold runLength
    split
    · split_ifs
      · exact Nat.succ_le_succ (ih (j + 1))
      · exact Nat.zero_le _
    · exact Nat.zero_le _

/-- The bytes counted are equal. -/
theorem runLength_equal (source : List Byte) (pos i j room : Nat) :
    ∀ k, j ≤ k → k < j + runLength source pos i j room → source[pos - i + k]? = source[pos + k]? := by
  induction room generalizing j with
  | zero =>
    intro k hj hk
    exact absurd hk (by simp only [runLength]; omega)
  | succ room ih =>
    intro k hj hk
    unfold runLength at hk
    split at hk
    next x y hx hy =>
      split_ifs at hk with hxy
      · obtain rfl | hlt := Nat.eq_or_lt_of_le hj
        · rw [hx, hy, hxy]
        · exact ih (j + 1) k hlt (by omega)
      · omega
    next => omega

theorem matchLength_le (source : List Byte) (pos i : Nat) :
    matchLength source pos i ≤ 127 ∧ matchLength source pos i ≤ source.length - pos := by
  have := runLength_le source pos i 0 (min 127 (source.length - pos))
  unfold matchLength
  omega

theorem matchLength_equal (source : List Byte) (pos i : Nat) :
    ∀ k < matchLength source pos i, source[pos - i + k]? = source[pos + k]? := fun k hk =>
  runLength_equal source pos i 0 _ k (Nat.zero_le k) (by rw [Nat.zero_add]; exact hk)

/-- The best match is no match, or the match length at a distance that was scanned. -/
theorem bestMatch_cases (source : List Byte) (pos n : Nat) :
    (bestMatch source pos n).1 = 0 ∨
      (1 ≤ (bestMatch source pos n).2 ∧ (bestMatch source pos n).2 ≤ n ∧
        (bestMatch source pos n).1 = matchLength source pos (bestMatch source pos n).2) := by
  induction n with
  | zero => exact .inl rfl
  | succ n ih =>
    unfold bestMatch
    dsimp only
    split_ifs with hlonger
    · exact .inr ⟨by simp, by simp, rfl⟩
    · obtain h0 | ⟨h1, hle, heq⟩ := ih
      · exact .inl h0
      · exact .inr ⟨h1, by omega, heq⟩

theorem bestMatch_le (source : List Byte) (pos n : Nat) : (bestMatch source pos n).1 ≤ source.length - pos := by
  obtain h0 | ⟨-, -, hlength⟩ := bestMatch_cases source pos n
  · omega
  · rw [hlength]
    exact (matchLength_le source pos _).2

/-! ### The encoder's loop, 45_encoder_reference.md R117 -/

/-- A flush of at most 127 pending bytes (R113, R115). -/
theorem spells_flush {source rest : List Byte} {pos pi : Nat} (hpi : pi ≤ pos) (h127 : pi ≤ 127) (hpos : pos ≤ source.length)
    (hrest : Spells source pos rest) : Spells source (pos - pi) (flush source pos pi ++ rest) := by
  unfold flush
  split_ifs with h0
  · exact .literal (pos - pi) pi rest h0 h127 (by omega) (by rwa [Nat.sub_add_cancel hpi])
  · rwa [show pi = 0 by omega]

/-- A match token at the best distance (R112, R114). -/
theorem spells_bestMatch {source rest : List Byte} {pos : Nat} (hpos : pos ≤ source.length)
    (h4 : 4 ≤ (bestMatch source pos (min pos 255)).1)
    (hrest : Spells source (pos + (bestMatch source pos (min pos 255)).1) rest) :
    Spells source pos ((0x80#8 ||| BitVec.ofNat 8 (bestMatch source pos (min pos 255)).1) ::
      BitVec.ofNat 8 (bestMatch source pos (min pos 255)).2 :: rest) := by
  obtain h0 | ⟨h1, hscan, hlength⟩ := bestMatch_cases source pos (min pos 255)
  · omega
  · obtain ⟨h127, hroom⟩ := matchLength_le source pos (bestMatch source pos (min pos 255)).2
    refine .backReference pos _ _ rest h4 (by omega) h1 (by omega) (by omega) (by omega) ?_ hrest
    rw [hlength]
    exact matchLength_equal source pos _

/-- With `pi` bytes pending before `pos`, the rest of the stream spells the source from the first of them on: fewer than 127 are
pending, and none at the end of the source. -/
theorem spells_encodeFrom (source : List Byte) (fuel pos pi : Nat) (hpos : pos ≤ source.length)
    (hfuel : source.length ≤ pos + fuel) (hpi : pi ≤ pos) (h127 : pi < 127) (hend : pos = source.length → pi = 0) :
    Spells source (pos - pi) (encodeFrom source fuel pos pi) := by
  induction fuel generalizing pos pi with
  | zero =>
    obtain rfl : pos = source.length := by omega
    rw [hend rfl]
    exact .terminator
  | succ fuel ih =>
    unfold encodeFrom
    dsimp only
    split_ifs with hlt h4 hfull
    · have hfit := bestMatch_le source pos (min pos 255)
      have hrest := ih (pos + (bestMatch source pos (min pos 255)).1) 0 (by omega) (by omega) (by omega) (by decide)
        fun _ => rfl
      simpa using spells_flush hpi (by omega) hpos (spells_bestMatch hpos h4 hrest)
    · have hrest := ih (pos + 1) 0 (by omega) (by omega) (by omega) (by decide) fun _ => rfl
      simpa using spells_flush (pi := pi + 1) (by omega) (by omega) (by omega) hrest
    · simpa using ih (pos + 1) (pi + 1) (by omega) (by omega) (by omega) (by omega) (by omega)
    · obtain rfl : pos = source.length := by omega
      rw [hend rfl]
      exact .terminator

/-- 45_encoder_reference.md R110: the encoder's stream spells the source. -/
theorem spells_compress (source : List Byte) : Spells source 0 (compress source) :=
  spells_encodeFrom source source.length 0 0 (Nat.zero_le _) (by omega) (le_refl _) (by decide) fun _ => rfl

end Sys2Proof.RefEncoder
end

section
/-! SUPPORT. A call in an LZ mode on a stream that spells its output: at every token boundary the stream still stands in memory and
the rest of it spells the rest of the output, so every token met is well-formed (30_encoding.md R72). -/

namespace Sys2Proof.RefEncoder

/-! ### The next token of a stream -/

/-- 30_encoding.md R61 of an LZ literal, by its tag. -/
theorem decodeTag_lzLit_size {mode : Mode} (hmode : mode ≠ .rle) {tag : Byte} (h1 : 1 ≤ tag.toNat) (h127 : tag.toNat ≤ 127) :
    (decodeTag mode tag).length = 1 + tag.toNat ∧ (decodeTag mode tag).output = tag.toNat := by
  obtain ⟨hdirect, hshadow⟩ := decodeTag_lzLit h1 h127
  cases mode with
  | lzDirect => rw [hdirect]; exact ⟨rfl, rfl⟩
  | lzShadow => rw [hshadow]; exact ⟨rfl, rfl⟩
  | rle => contradiction

/-- 30_encoding.md R61 of an LZ match, by its length field. -/
theorem decodeTag_lzMatch_size {mode : Mode} (hmode : mode ≠ .rle) {length : Nat} (h127 : length ≤ 127) :
    (decodeTag mode (0x80#8 ||| BitVec.ofNat 8 length)).length = 2 ∧
      (decodeTag mode (0x80#8 ||| BitVec.ofNat 8 length)).output = length := by
  have hfield : (BitVec.ofNat 8 length).toNat = length := toNat_ofNat_byte (by omega)
  have htag : (0x80#8 ||| BitVec.ofNat 8 length).toNat = 128 + length := (lzMatchTag_toNat (by omega)).trans (by rw [hfield])
  obtain ⟨hdirect, hshadow⟩ := decodeTag_lzMatch (tag := 0x80#8 ||| BitVec.ofNat 8 length) (by omega)
  rw [htag, Nat.add_sub_cancel_left] at hdirect hshadow
  cases mode with
  | lzDirect => rw [hdirect]; exact ⟨rfl, hfield⟩
  | lzShadow => rw [hshadow]; exact ⟨rfl, hfield⟩
  | rle => contradiction

/-- Its terminator is still to come. -/
theorem Spells.ne_nil {source stream : List Byte} {pos : Nat} (hs : Spells source pos stream) : stream ≠ [] := by
  cases hs <;> exact List.cons_ne_nil _ _

/-- The token an LZ decoder reads from a stream that spells the source takes the stream to its next token boundary. -/
theorem Spells.next {source rest : List Byte} {tag : Byte} {pos : Nat} {mode : Mode} (hmode : mode ≠ .rle)
    (hs : Spells source pos (tag :: rest)) (hi : (decodeTag mode tag).isEnd = false) :
    pos + (decodeTag mode tag).output ≤ source.length ∧ (decodeTag mode tag).length ≤ (tag :: rest).length ∧
      Spells source (pos + (decodeTag mode tag).output) ((tag :: rest).drop (decodeTag mode tag).length) := by
  cases hs with
  | terminator => rw [(decodeTag_isEnd mode 0#8).mpr rfl] at hi; cases hi
  | literal _ count rest h1 h127 hfit hrest =>
    have htag : (BitVec.ofNat 8 count).toNat = count := toNat_ofNat_byte (by omega)
    obtain ⟨hlen, hout⟩ := decodeTag_lzLit_size hmode (tag := BitVec.ofNat 8 count) (by omega) (by omega)
    have hpayload := length_payload hfit
    rw [hlen, hout, htag, Nat.add_comm 1 count, List.drop_succ_cons, List.drop_left' hpayload]
    exact ⟨hfit, by rw [List.length_cons, List.length_append, hpayload]; omega, hrest⟩
  | backReference _ length distance rest h4 h127 h1 h255 hback hfit hcopy hrest =>
    obtain ⟨hlen, hout⟩ := decodeTag_lzMatch_size hmode h127
    rw [hlen, hout]
    exact ⟨hfit, by simp, hrest⟩

/-- 30_encoding.md R72: the byte after a match tag is a distance inside the output. -/
theorem Spells.distance {source rest : List Byte} {tag : Byte} {pos : Nat} (hs : Spells source pos (tag :: rest))
    (h7 : tag &&& 0x80#8 ≠ 0#8) : ∃ d tail, rest = d :: tail ∧ d ≠ 0#8 ∧ d.toNat ≤ pos := by
  cases hs with
  | terminator => exact absurd rfl h7
  | literal _ count rest h1 h127 hfit hrest => exact absurd (and_bit7_clear (by rw [toNat_ofNat_byte] <;> omega)) h7
  | backReference _ length distance rest h4 h127 h1 h255 hback hfit hcopy hrest =>
    have hd : (BitVec.ofNat 8 distance).toNat = distance := toNat_ofNat_byte (by omega)
    exact ⟨_, rest, rfl, ne_zero_of_toNat (by omega), by omega⟩

end Sys2Proof.RefEncoder

namespace Sys2Proof.Machine

open Sys2Proof.RefEncoder

variable {c : Config}

/-! ### A call on such a stream -/

/-- `h` stands at a token boundary of a call in `mode` on `stream`, which stands at `SRC` apart from where the output `source` goes
(70_reset_and_hazards.md R157): what `sp` has not passed of the stream spells what `wp` has not passed of the output. -/
structure Block.ReadsOn (h : Block c) (mode : Mode) (source stream : List Byte) : Prop where
  decoder : c.decoder h.mode = some mode
  streamFits : stream.length < 2 ^ c.aw
  sourceFits : source.length < 2 ^ c.aw
  apart : ∀ j k, j < stream.length → k < source.length →
    h.srcAddr (BitVec.ofNat c.aw j) ≠ h.dstAddr (BitVec.ofNat c.aw k)
  held : ∀ j (hj : j < stream.length), h.byteAt (h.srcAddr (BitVec.ofNat c.aw j)) = stream[j]
  spells : Spells source h.wp.toNat (stream.drop h.sp.toNat)

theorem Block.BeginsOn.readsOn {h : Block c} {mode : Mode} {source stream : List Byte} (hb : h.BeginsOn mode source stream)
    (hs : Spells source 0 stream) : h.ReadsOn mode source stream where
  decoder := hb.decoder
  streamFits := hb.streamFits
  sourceFits := hb.sourceFits
  apart := hb.apart
  held := hb.held
  spells := by simpa [hb.sp, hb.wp] using hs

theorem add_ofNat_toNat {w : Nat} (x : BitVec w) (n : Nat) : x + BitVec.ofNat w n = BitVec.ofNat w (x.toNat + n) := by
  rw [BitVec.ofNat_add, BitVec.ofNat_toNat, BitVec.setWidth_eq]

theorem toNat_add_ofNat {w n : Nat} {x : BitVec w} (hfit : x.toNat + n < 2 ^ w) : (x + BitVec.ofNat w n).toNat = x.toNat + n := by
  rw [add_ofNat_toNat, BitVec.toNat_ofNat, Nat.mod_eq_of_lt hfit]

section Reads

variable {h h' : Block c} {mode : Mode} {source stream : List Byte}

/-- The byte `j` after the cursor is byte `j` of what remains of the stream. -/
theorem Block.ReadsOn.byteAt (hr : h.ReadsOn mode source stream) {j : Nat} {v : Byte}
    (hv : (stream.drop h.sp.toNat)[j]? = some v) : h.byteAt (h.srcAddr (h.sp + BitVec.ofNat c.aw j)) = v := by
  rw [List.getElem?_drop, List.getElem?_eq_some_iff] at hv
  obtain ⟨hj, rfl⟩ := hv
  rw [add_ofNat_toNat]
  exact hr.held _ hj

/-- At a boundary there is a next tag byte, the one the engine fetches. -/
theorem Block.ReadsOn.tagByte (hr : h.ReadsOn mode source stream) :
    ∃ rest, stream.drop h.sp.toNat = h.tagByte :: rest := by
  obtain ⟨tag, rest, hdrop⟩ := List.exists_cons_of_ne_nil hr.spells.ne_nil
  have htag := hr.byteAt (j := 0) (v := tag) (by rw [hdrop]; rfl)
  rw [BitVec.add_zero] at htag
  exact ⟨rest, by rw [hdrop, Block.tagByte, htag]⟩

/-- 30_encoding.md R72 at every boundary. -/
theorem Block.ReadsOn.tokenWellFormed (hr : h.ReadsOn mode source stream) : h.TokenWellFormed := by
  intro h7
  obtain ⟨rest, hdrop⟩ := hr.tagByte
  obtain ⟨d, tail, rfl, hd0, hdwp⟩ := (hdrop ▸ hr.spells).distance h7
  have hsecond : h.secondByte = d := hr.byteAt (j := 1) (by rw [hdrop]; rfl)
  rw [hsecond]
  exact ⟨hd0, hdwp⟩

/-- A token that is done takes the call to the next boundary: its output has not touched the stream. -/
theorem Block.ReadsOn.completed (hmode : mode ≠ .rle) (hr : h.ReadsOn mode source stream)
    (hres : TokenResult (fetchTag h) (decodeTag mode h.tagByte) h') (hi : (decodeTag mode h.tagByte).isEnd = false)
    (hf : h'.status ≠ .fault) : h'.ReadsOn mode source stream := by
  obtain ⟨rest, hdrop⟩ := hr.tagByte
  obtain ⟨hout, hlen, hspells⟩ := (hdrop ▸ hr.spells).next hmode hi
  obtain ⟨hsp, hwp⟩ := hres.cursors hf
  obtain ⟨hsrc, hdst, hm, -, -⟩ := hres.sameOperands
  have hstream : h.sp.toNat + (decodeTag mode h.tagByte).length ≤ stream.length := by
    have hrest := congrArg List.length hdrop
    rw [List.length_drop, List.length_cons] at hrest
    rw [List.length_cons] at hlen
    omega
  have hsp' : h'.sp.toNat = h.sp.toNat + (decodeTag mode h.tagByte).length :=
    hsp ▸ toNat_add_ofNat (hstream.trans_lt hr.streamFits)
  have hwp' : h'.wp.toNat = h.wp.toNat + (decodeTag mode h.tagByte).output :=
    hwp ▸ toNat_add_ofNat (hout.trans_lt hr.sourceFits)
  refine ⟨by rw [hm]; exact hr.decoder, hr.streamFits, hr.sourceFits, fun j k hj hk => ?_, fun j hj => ?_, ?_⟩
  · rw [Block.srcAddr, Block.dstAddr, hsrc, hdst]
    exact hr.apart j k hj hk
  · rw [Block.srcAddr, hsrc, ← hr.held j hj]
    refine hres.onlyChanges _ fun k hk => ?_
    have haddr : (fetchTag h).outAddr k = h.dstAddr (BitVec.ofNat c.aw (h.wp.toNat + k)) := by
      rw [outAddr_eq, BitVec.add_assoc, fetchTag_wp, add_ofNat_toNat]
      rfl
    rw [haddr]
    exact hr.apart j _ hj (by omega)
  · rw [hsp', hwp', ← List.drop_drop, hdrop]
    exact hspells

/-- A step of the call that leaves it running leaves it at a boundary. -/
theorem Block.ReadsOn.step (hmode : mode ≠ .rle) (hr : h.ReadsOn mode source stream) {t : State}
    (hstep : step ⟨c, h⟩ = .next t) :
    ∃ h' : Block c, t = ⟨c, h'⟩ ∧ (h'.status = .running → h'.ReadsOn mode source stream) := by
  obtain ⟨-, rfl⟩ | ⟨-, mode', hd, ⟨-, -, rfl⟩ | ⟨-, hexec⟩⟩ := step_cases hstep
  · exact ⟨h, rfl, fun _ => hr⟩
  · exact ⟨_, rfl, nofun⟩
  · obtain rfl : mode = mode' := Option.some.inj (hr.decoder.symm.trans hd)
    obtain ⟨h', hnext, hres⟩ := exec_result (decodeTag mode h.tagByte) (fetchTag h)
    rw [hnext] at hexec
    refine ⟨h', (Host.Outcome.next.inj hexec).symm, fun hrun => ?_⟩
    cases hend : (decodeTag mode h.tagByte).isEnd with
    | true =>
      rw [exec_isEnd hend] at hnext
      cases hnext
      cases hrun
    | false => exact hr.completed hmode hres hend (by simp [hrun])

end Reads

/-! ### The run -/

/-- What every step keeps holds after any number of steps. -/
theorem run_keeps {P : State → Prop} (keep : ∀ s t, P s → step s = .next t → P t) (n : Nat) {s t : State} (hs : P s)
    (hrun : Sys2Proof.core.run n s = .next t) : P t := by
  induction n generalizing s with
  | zero => exact Host.Outcome.next.inj hrun ▸ hs
  | succ n ih =>
    simp only [Host.Core.run] at hrun
    rcases hstep : Sys2Proof.core.step s with s' | r | r
    · rw [hstep] at hrun
      exact ih (keep s s' hs hstep) hrun
    · rw [hstep] at hrun
      cases hrun
    · rw [hstep] at hrun
      cases hrun

/-- A state in which the call, if it is still in progress, stands at a boundary of its stream. -/
def InCallOn (c : Config) (mode : Mode) (source stream : List Byte) (s : State) : Prop :=
  ∃ h : Block c, s = ⟨c, h⟩ ∧ (h.status = .running → h.ReadsOn mode source stream)

theorem step_inCallOn {mode : Mode} (hmode : mode ≠ .rle) {source stream : List Byte} (s t : State)
    (hs : InCallOn c mode source stream s) (hstep : step s = .next t) : InCallOn c mode source stream t := by
  obtain ⟨h, rfl, hreads⟩ := hs
  by_cases hrun : h.status = .running
  · exact (hreads hrun).step hmode hstep
  · rw [step_quiet hrun] at hstep
    exact ⟨h, (Host.Outcome.next.inj hstep).symm, hreads⟩

/-! ### The statements about the encoder's streams -/

/-- Settles O46: the encoder's stream spells the source. -/
theorem encoderStreamsAreCanonical : Obligations.EncoderStreamsAreCanonical := fun source => (spells_compress source).canonical

/-- Settles O47: every step keeps the call at a boundary of a stream that spells the source. -/
theorem encoderTokensAreWellFormed : Obligations.EncoderTokensAreWellFormed := by
  intro c h mode source hmode hb n g hrun hg
  have hstart : InCallOn c mode source (compress source) ⟨c, h⟩ := ⟨h, rfl, fun _ => hb.readsOn (spells_compress source)⟩
  obtain ⟨_, ⟨⟩, hreads⟩ := run_keeps (step_inCallOn hmode) n hstart hrun
  exact (hreads hg).tokenWellFormed

end Sys2Proof.Machine
end

section
/-! SUPPORT. The statements about the tokens of mode `LZ_DIRECT` (40_lz_direct.md R80 to R85), settled; what the overlap law
and the match at distance 0 take from `ForwardCopy`. -/

namespace Sys2Proof.Machine

variable {c : Config}

/-! ### Forward copies whose source lies behind their target -/

/-- 40_lz_direct.md R83: a copy from `d` places back, which meets its own elements from turn `d` on, repeats the first `d` source
elements. -/
theorem ForwardCopy.periodic {α β : Type} {before after : α → β} {source target : Nat → α} {count d : Nat}
    (hcopy : ForwardCopy before after source target count) (hd : 1 ≤ d)
    (hown : ∀ j, source (d + j) = target j) (hold : ∀ k < d, ∀ j < k, k < count → target j ≠ source k) :
    ∀ k < count, after (target k) = before (source (k % d)) := by
  intro k
  induction k using Nat.strong_induction_on with
  | _ k ih =>
    intro hk
    rcases Nat.lt_or_ge k d with hlt | hge
    · rw [Nat.mod_eq_of_lt hlt]
      exact (hcopy k hk).2 fun j hj => hold k hlt j hj hk
    · obtain ⟨j, rfl⟩ := Nat.exists_eq_add_of_le hge
      rw [(hcopy _ hk).1 j (by omega) (hown j).symm, ih j (by omega) (by omega), Nat.add_mod_left]

/-- 40_lz_direct.md R85: a copy of distinct places to themselves changes nothing. -/
theorem ForwardCopy.unchanged {α β : Type} {before after : α → β} {target : Nat → α} {count : Nat}
    (hcopy : ForwardCopy before after target target count) (honly : OnlyChanges before after target count)
    (hinj : ∀ k < count, ∀ j < k, target j ≠ target k) (a : α) : after a = before a := by
  by_cases ha : ∃ k < count, a = target k
  · obtain ⟨k, hk, rfl⟩ := ha
    exact (hcopy k hk).2 (hinj k hk)
  · exact honly a fun k hk he => ha ⟨k, hk, he⟩

/-! ### The addresses a match reads -/

/-- The source of a match passes the start of its output after `d` bytes. -/
theorem backAddr_add (h : Block c) (d : Byte) (j : Nat) : h.backAddr d (d.toNat + j) = h.outAddr j := by
  rw [outAddr_eq, Block.backAddr, Block.dstAddr, BitVec.ofNat_add, ← zext_eq_ofNat, ← BitVec.add_assoc (h.wp - c.zext d),
    BitVec.sub_add_cancel, BitVec.add_assoc]

theorem backAddr_ne (h : Block c) (d : Byte) {j k : Nat} (hj : j < 512) (hk : k < 512) (hne : j ≠ k) :
    h.backAddr d j ≠ h.backAddr d k := by
  have hroom := aw_room c
  exact fun he => add_ofNat_ne _ (by omega) (by omega) hne (BitVec.add_right_inj _ |>.mp he)

/-- Before it passes the start of the output, the source of a match lies outside the output: `AW >= 9` (00_scope.md R5). -/
theorem outAddr_ne_backAddr (h : Block c) (d : Byte) {j k : Nat} (hj : j < 256) (hk : k < d.toNat) :
    h.outAddr j ≠ h.backAddr d k := by
  have hlt := d.isLt
  rw [← backAddr_add h d j]
  exact backAddr_ne h d (by omega) (by omega) (by omega)

/-- A source of a match inside the output as an offset from `DST`. -/
theorem backAddr_eq_dstAddr (h : Block c) (d : Byte) (hd : d.toNat ≤ h.wp.toNat) (k : Nat) :
    h.backAddr d k = h.dstAddr (BitVec.ofNat c.aw (h.wp.toNat - d.toNat + k)) := by
  have hwp := h.wp.isLt
  have hbase : h.wp - c.zext d = BitVec.ofNat c.aw (h.wp.toNat - d.toNat) := by
    apply BitVec.eq_of_toNat_eq
    rw [BitVec.toNat_sub_of_le (by rwa [BitVec.le_def, zext_toNat]), zext_toNat, BitVec.toNat_ofNat,
      Nat.mod_eq_of_lt (by omega)]
  rw [Block.backAddr, hbase, BitVec.ofNat_add]

/-! ### The statements -/

/-- Two runs of a token that leave the same block have the same outcome. -/
theorem next_congr {g g' : Block c} (he : g = g') :
    (Host.Outcome.next ⟨c, g⟩ : Host.Outcome State Fault Refusal) = .next ⟨c, g'⟩ := he ▸ rfl

/-- Settles O12. -/
theorem terminatorEndsCall : Obligations.TerminatorEndsCall := by
  intro c h i hi
  have hend : i.isEnd = true := by obtain rfl | rfl | rfl := hi <;> rfl
  exact exec_isEnd hend h

/-- Settles O13: the loop's lemma with `n` set, then the cursors. -/
theorem lzdLitCopies : Obligations.LzdLitCopies := by
  refine fun c h count => ⟨fun hp => ?_, fun cause hh hf => next_congr (checkedToken_stop hh hf)⟩
  obtain ⟨frame, shadow, copy, only, trace⟩ := copyLiteral_loop 1 0 count.toNat (byte_lt_512 count) { h with n := count }
  refine ⟨_, next_congr (checkedToken_pass hp), frame.n, ?_, ?_, copy, only, trace,
    { frame.operands with }, { frame.published with }, { shadow with }, frame.cmd, frame.m, frame.dist, frame.fill⟩
  · exact (congrArg (· + (1 + c.zext count)) frame.sp).trans (BitVec.add_assoc _ _ _).symm
  · exact congrArg (· + c.zext count) frame.wp

/-- Settles O14: the loop's lemma with `dist` read and `n` set, then the cursors. -/
theorem lzdMatchCopies : Obligations.LzdMatchCopies := by
  refine fun c h length => ⟨fun hp => ?_,
    fun hh hlt => next_congr (checkedMatch_stop_source hh hlt),
    fun cause hh hle hf => next_congr (checkedMatch_stop hh hle hf)⟩
  obtain ⟨frame, shadow, copy, only, trace⟩ :=
    copyBack_loop length.toNat (byte_lt_512 length) { readDistance h with n := length }
  refine ⟨_, next_congr (checkedMatch_pass hp), frame.n, frame.dist, ?_, ?_, copy,
    only, ?_, { frame.operands with }, { frame.published with }, { shadow with }, frame.cmd, frame.m, frame.fill⟩
  · exact congrArg (· + 2) frame.sp
  · exact congrArg (· + c.zext length) frame.wp
  · exact trace.trans (List.append_assoc _ _ _)

/-- Settles O20: from turn `d` on the match reads its own output. -/
theorem matchRepeatsPeriodically : Obligations.MatchRepeatsPeriodically := by
  intro c h h' length hp hd hexec
  obtain ⟨g, hnext, -, -, -, -, copy, -⟩ := (lzdMatchCopies c h length).1 hp
  rw [hexec] at hnext
  cases hnext
  exact copy.periodic hd (backAddr_add h _) fun k hk j hj hlen =>
    outAddr_ne_backAddr h _ (by have := length.isLt; omega) hk

/-- Settles O21: at distance 0 the match copies its output onto itself. -/
theorem zeroDistanceDirectKeepsMemory : Obligations.ZeroDistanceDirectKeepsMemory := by
  intro c h length hsoft hzero
  have hp : h.PassesMatch length.toNat := fun hh => absurd hh (by simp [hsoft])
  obtain ⟨h', hnext, -, -, -, hwp, copy, only, -⟩ := (lzdMatchCopies c h length).1 hp
  have hback : ∀ k, h.backAddr h.secondByte k = h.outAddr k := fun k => by
    have hadd := backAddr_add h h.secondByte k
    rwa [hzero, BitVec.toNat_zero, Nat.zero_add, ← hzero] at hadd
  refine ⟨h', hnext, hwp, (copy.congr (fun k _ => hback k) fun _ _ => rfl).unchanged only fun k hk j hj => ?_⟩
  have hlt := length.isLt
  exact outAddr_ne h (by omega) (by omega) (by omega)

end Sys2Proof.Machine
end

section
/-! SUPPORT. A call in an LZ mode that delivers what its stream spells: the boundaries with the output so far in memory, and the
run to `DONE` from one of them once every token is known to write the bytes it stands for. -/

namespace Sys2Proof.RefEncoder

open Sys2Proof.Machine

theorem Spells.pos_le {source stream : List Byte} {pos : Nat} (hs : Spells source pos stream) : pos ≤ source.length := by
  cases hs <;> omega

/-- The next token lies inside the stream and its output inside the source. -/
theorem Spells.token_fits {source rest : List Byte} {tag : Byte} {pos : Nat} {mode : Mode} (hmode : mode ≠ .rle)
    (hs : Spells source pos (tag :: rest)) :
    pos + (decodeTag mode tag).output ≤ source.length ∧ (decodeTag mode tag).length ≤ (tag :: rest).length := by
  cases hi : (decodeTag mode tag).isEnd with
  | true =>
    obtain ⟨hlen, hout⟩ := isEnd_length_output hi
    rw [hlen, hout]
    exact ⟨hs.pos_le, by simp⟩
  | false =>
    obtain ⟨hout, hlen, -⟩ := hs.next hmode hi
    exact ⟨hout, hlen⟩

/-- A terminator is the last byte, and all output is before it (45_encoder_reference.md R116). -/
theorem Spells.terminated {source rest : List Byte} {pos : Nat} (hs : Spells source pos (0x00#8 :: rest)) :
    pos = source.length ∧ rest = [] := by
  generalize htag : (0x00#8 : Byte) = tag at hs
  cases hs with
  | terminator => exact ⟨rfl, rfl⟩
  | literal _ count rest h1 h127 hfit hrest =>
    exact absurd htag.symm (ne_zero_of_toNat (by rw [toNat_ofNat_byte] <;> omega))
  | backReference _ length distance rest h4 h127 h1 h255 hback hfit hcopy hrest =>
    refine absurd htag.symm (ne_zero_of_toNat ?_)
    rw [lzMatchTag_toNat] <;> rw [toNat_ofNat_byte] <;> omega

/-- A stretch of the source that repeats what stands `d` bytes before it repeats its last `d` bytes cyclically. -/
theorem repeats_periodic {source : List Byte} {pos d length : Nat} (h1 : 1 ≤ d) (hd : d ≤ pos)
    (hcopy : ∀ k < length, source[pos - d + k]? = source[pos + k]?) :
    ∀ k < length, source[pos - d + k % d]? = source[pos + k]? := by
  intro k
  induction k using Nat.strong_induction_on with
  | _ k ih =>
    intro hk
    rw [← hcopy k hk]
    rcases Nat.lt_or_ge k d with hlt | hge
    · rw [Nat.mod_eq_of_lt hlt]
    · obtain ⟨j, rfl⟩ := Nat.exists_eq_add_of_le hge
      rw [Nat.add_mod_left, ih j (by omega) (by omega), ← Nat.add_assoc, Nat.sub_add_cancel hd]

end Sys2Proof.RefEncoder

namespace Sys2Proof.Machine

open Sys2Proof.RefEncoder

variable {c : Config}

/-! ### A run that makes progress -/

/-- A call whose every step passes some stream bytes or arrives does arrive: `sp` cannot grow for ever. -/
theorem run_arrives {P Q : Block c → Prop}
    (turn : ∀ g, P g → ∃ g', step ⟨c, g⟩ = .next ⟨c, g'⟩ ∧ (Q g' ∨ (P g' ∧ g.sp.toNat < g'.sp.toNat))) {h : Block c}
    (hp : P h) : ∃ n h', Sys2Proof.core.run n ⟨c, h⟩ = .next (⟨c, h'⟩ : State) ∧ Q h' := by
  induction hroom : 2 ^ c.aw - h.sp.toNat using Nat.strong_induction_on generalizing h with
  | _ room ih =>
    obtain ⟨g, hstep, hq | ⟨hg, hlt⟩⟩ := turn h hp
    · exact ⟨1, g, by simp [Host.Core.run, Sys2Proof.core, hstep], hq⟩
    · have hbound := g.sp.isLt
      obtain ⟨n, h', hrun, hq⟩ := ih _ (by omega) hg rfl
      exact ⟨n + 1, h', by simpa [Host.Core.run, Sys2Proof.core, hstep] using hrun, hq⟩

/-! ### Token boundaries with the output so far -/

/-- The token that led from `h` to `h'` has written the bytes of `source` that come next. -/
def Block.Writes (h h' : Block c) (source : List Byte) (count : Nat) : Prop :=
  ∀ k < count, source[h.wp.toNat + k]? = some (h'.byteAt (h.outAddr k))

/-- The token at the boundary `h` runs and writes what it stands for. -/
def Block.TokenWrites (h : Block c) (mode : Mode) (source : List Byte) : Prop :=
  ∃ h' : Block c, exec (decodeTag mode h.tagByte) ⟨c, fetchTag h⟩ = .next ⟨c, h'⟩ ∧ h'.status = .running ∧
    h.Writes h' source (decodeTag mode h.tagByte).output

/-- `h` stands at a token boundary of a running call on `stream`, with the part of `source` before it at `DST`. -/
structure Block.Delivers (h : Block c) (mode : Mode) (source stream : List Byte) : Prop
    extends Block.ReadsOn h mode source stream where
  running : h.status = .running
  lengths : c.harden = true → stream.length ≤ h.srcLen.toNat ∧ source.length ≤ h.dstLen.toNat
  written : ∀ k < h.wp.toNat, source[k]? = some (h.byteAt (h.dstAddr (BitVec.ofNat c.aw k)))

/-- The call has ended as 40_lz_direct.md R84 says. -/
structure Block.Delivered (h : Block c) (source stream : List Byte) : Prop where
  done : h.status = .done
  result : h.result = BitVec.ofNat c.aw stream.length
  wpos : h.wpos = BitVec.ofNat c.aw source.length
  written : ∀ k (hk : k < source.length), h.byteAt (h.dstAddr (BitVec.ofNat c.aw k)) = source[k]

theorem Block.BeginsOn.delivers {h : Block c} {mode : Mode} {source stream : List Byte} (hb : h.BeginsOn mode source stream)
    (hs : Spells source 0 stream) : h.Delivers mode source stream where
  toReadsOn := hb.readsOn hs
  running := hb.running
  lengths := hb.lengths
  written k hk := by simp [hb.wp] at hk

/-- Output byte `k` of the token at hand as an offset from `DST`. -/
theorem outAddr_eq_dstAddr (h : Block c) (k : Nat) : h.outAddr k = h.dstAddr (BitVec.ofNat c.aw (h.wp.toNat + k)) := by
  rw [outAddr_eq, BitVec.add_assoc, add_ofNat_toNat]
  rfl

/-- Every token takes its tag byte at least (30_encoding.md R61). -/
theorem token_length_pos (i : Instr) : 1 ≤ i.length := by
  cases i <;> simp only [Instr.length] <;> omega

section Delivery

variable {h h' : Block c} {mode : Mode} {source stream : List Byte}

/-- The next token lies inside the stream and its output inside the source. -/
theorem Block.ReadsOn.token_fits (hmode : mode ≠ .rle) (hr : h.ReadsOn mode source stream) :
    h.sp.toNat + (decodeTag mode h.tagByte).length ≤ stream.length ∧
      h.wp.toNat + (decodeTag mode h.tagByte).output ≤ source.length := by
  obtain ⟨rest, hdrop⟩ := hr.tagByte
  obtain ⟨hout, hlen⟩ := (hdrop ▸ hr.spells).token_fits hmode
  have hrest := congrArg List.length hdrop
  rw [List.length_drop, List.length_cons] at hrest
  rw [List.length_cons] at hlen
  exact ⟨by omega, hout⟩

/-- No check of the hardened block stops the next token's lengths (60_exceptions.md R124). -/
theorem Block.Delivers.passesLengths (hmode : mode ≠ .rle) (hd : h.Delivers mode source stream) :
    (fetchTag h).PassesLengths (decodeTag mode h.tagByte).length (decodeTag mode h.tagByte).output := by
  intro hh
  obtain ⟨hsrc, hdst⟩ := hd.lengths hh
  obtain ⟨hlen, hout⟩ := hd.token_fits hmode
  exact ⟨hlen.trans hsrc, hout.trans hdst⟩

/-- Nor before the fetch: a step runs the next token. -/
theorem Block.Delivers.step (hmode : mode ≠ .rle) (hd : h.Delivers mode source stream) :
    step ⟨c, h⟩ = exec (decodeTag mode h.tagByte) ⟨c, fetchTag h⟩ := by
  refine step_token hd.running hd.decoder fun hh => ?_
  have hpass : h.sp.toNat + _ ≤ h.srcLen.toNat := (hd.passesLengths hmode hh).1
  have hpos := token_length_pos (decodeTag mode h.tagByte)
  omega

/-- A token that writes what it stands for leads to the next boundary. -/
theorem Block.Delivers.next (hmode : mode ≠ .rle) (hd : h.Delivers mode source stream)
    (hi : (decodeTag mode h.tagByte).isEnd = false) (hexec : exec (decodeTag mode h.tagByte) ⟨c, fetchTag h⟩ = .next ⟨c, h'⟩)
    (hrun : h'.status = .running) (hw : h.Writes h' source (decodeTag mode h.tagByte).output) :
    h'.Delivers mode source stream ∧ h.sp.toNat < h'.sp.toNat := by
  obtain ⟨g, hnext, hres⟩ := exec_result (decodeTag mode h.tagByte) (fetchTag h)
  obtain rfl : h' = g := by rw [hexec] at hnext; cases hnext; rfl
  have hf : h'.status ≠ .fault := by simp [hrun]
  obtain ⟨hlen, hout⟩ := hd.token_fits hmode
  obtain ⟨hsp, hwp⟩ := hres.cursors hf
  obtain ⟨-, hdst, -, hsrcLen, hdstLen⟩ := hres.sameOperands
  have hsp' : h'.sp.toNat = h.sp.toNat + _ := hsp ▸ toNat_add_ofNat (hlen.trans_lt hd.streamFits)
  have hwp' : h'.wp.toNat = h.wp.toNat + _ := hwp ▸ toNat_add_ofNat (hout.trans_lt hd.sourceFits)
  have hpos := token_length_pos (decodeTag mode h.tagByte)
  have hroom := hd.sourceFits
  refine ⟨⟨hd.completed hmode hres hi hf, hrun, fun hh => ?_, fun k hk => ?_⟩, by omega⟩
  · rw [hsrcLen, hdstLen]
    exact hd.lengths hh
  · have hbase : h'.dstAddr = h.dstAddr := funext fun _ => congrArg (· + _) hdst
    rw [hbase]
    rcases Nat.lt_or_ge k h.wp.toNat with hold | hnew
    · rw [hd.written k hold]
      refine congrArg some (hres.onlyChanges _ fun j hj => ?_).symm
      have haddr : (fetchTag h).outAddr j = h.dstAddr _ := outAddr_eq_dstAddr h j
      rw [haddr]
      exact add_ofNat_ne h.dst (by omega) (by omega) (by omega)
    · obtain ⟨j, rfl⟩ := Nat.exists_eq_add_of_le hnew
      rw [← outAddr_eq_dstAddr]
      exact hw j (by omega)

/-- The terminator ends the call with the whole source delivered. -/
theorem Block.Delivers.finish (hd : h.Delivers mode source stream) (hi : h.tagByte = 0x00#8) :
    (finishCall (fetchTag h)).Delivered source stream := by
  obtain ⟨rest, hdrop⟩ := hd.tagByte
  obtain ⟨hend, rfl⟩ := (hi ▸ hdrop ▸ hd.spells).terminated
  have hlast : stream.length = h.sp.toNat + 1 := by
    have hlen := congrArg List.length hdrop
    simp only [List.length_drop, List.length_cons, List.length_nil] at hlen
    omega
  refine ⟨rfl, ?_, ?_, fun k hk => ?_⟩
  · rw [hlast, ← add_ofNat_toNat]
    rfl
  · rw [← hend, BitVec.ofNat_toNat, BitVec.setWidth_eq]
    rfl
  · have hheld := hd.written k (by omega)
    obtain ⟨_, he⟩ := List.getElem?_eq_some_iff.mp hheld
    exact he.symm

/-- A call whose tokens all write what they stand for ends as 40_lz_direct.md R84 says. -/
theorem Block.Delivers.endsWith (hmode : mode ≠ .rle) (hd : h.Delivers mode source stream)
    (token : ∀ g : Block c, g.Delivers mode source stream → (decodeTag mode g.tagByte).isEnd = false →
      g.TokenWrites mode source) : h.EndsWith source stream := by
  have hrun := run_arrives (P := (Block.Delivers · mode source stream)) (Q := (Block.Delivered · source stream))
    (fun g hg => ?_) hd
  · obtain ⟨n, h', hrun, done, result, wpos, written⟩ := hrun
    exact ⟨n, h', hrun, done, result, wpos, written⟩
  rw [hg.step hmode]
  cases hi : (decodeTag mode g.tagByte).isEnd with
  | true => exact ⟨_, exec_isEnd hi _, .inl (hg.finish ((decodeTag_isEnd mode _).mp hi))⟩
  | false =>
    obtain ⟨g', hexec, hstatus, hw⟩ := token g hg hi
    exact ⟨g', hexec, .inr (hg.next hmode hi hexec hstatus hw)⟩

end Delivery

end Sys2Proof.Machine
end

section
/-! SUPPORT. The round trip in mode `LZ_DIRECT` (40_lz_direct.md R84): each token of a stream that spells its output writes the
bytes it stands for. -/

namespace Sys2Proof.Machine

open Sys2Proof.RefEncoder

variable {c : Config} {h : Block c} {mode : Mode} {source stream rest : List Byte}

/-- A literal payload byte is the source byte it stands for. -/
theorem Block.ReadsOn.payload (hr : h.ReadsOn mode source stream) {count k : Nat} (hfit : h.wp.toNat + count ≤ source.length)
    (hdrop : stream.drop h.sp.toNat = h.tagByte :: ((source.drop h.wp.toNat).take count ++ rest)) (hk : k < count) :
    source[h.wp.toNat + k]? = some (h.byteAt (h.payloadAddr 1 k)) := by
  have hbyte : (stream.drop h.sp.toNat)[1 + k]? = source[h.wp.toNat + k]? := by
    rw [hdrop, Nat.add_comm, List.getElem?_cons_succ, List.getElem?_append_left (by rw [length_payload hfit]; exact hk),
      List.getElem?_take_of_lt hk, List.getElem?_drop]
  have hsome := List.getElem?_eq_getElem (l := source) (i := h.wp.toNat + k) (by omega)
  have haddr : h.payloadAddr 1 k = h.srcAddr (h.sp + BitVec.ofNat c.aw (1 + k)) := by
    rw [Block.payloadAddr, Block.payloadOff, BitVec.ofNat_add, BitVec.add_assoc]
  rw [haddr, hr.byteAt (hbyte.trans hsome), hsome]

/-- The rest of the stream lies apart from the rest of the output (70_reset_and_hazards.md R157). -/
theorem Block.ReadsOn.outAddr_ne_payloadAddr (hr : h.ReadsOn mode source stream) {j k : Nat}
    (hj : h.wp.toNat + j < source.length) (hk : h.sp.toNat + (1 + k) < stream.length) :
    h.outAddr j ≠ h.payloadAddr 1 k := by
  rw [outAddr_eq_dstAddr, Block.payloadAddr, Block.payloadOff, BitVec.add_assoc, ← BitVec.ofNat_add, add_ofNat_toNat]
  exact (hr.apart _ _ hk hj).symm

/-- `LZD.LIT` on a literal token writes the bytes it holds. -/
theorem Block.Delivers.literal_writes (hd : h.Delivers .lzDirect source stream) {count : Nat} (h1 : 1 ≤ count)
    (h127 : count ≤ 127) (hfit : h.wp.toNat + count ≤ source.length) (htag : h.tagByte = BitVec.ofNat 8 count)
    (hdrop : stream.drop h.sp.toNat = h.tagByte :: ((source.drop h.wp.toNat).take count ++ rest)) :
    h.TokenWrites .lzDirect source := by
  have hcount : h.tagByte.toNat = count := by rw [htag, toNat_ofNat_byte (by omega)]
  have hpass := hd.passesLengths (by decide)
  obtain ⟨hlen, -⟩ := hd.token_fits (by decide)
  unfold Block.TokenWrites
  rw [(decodeTag_lzLit (tag := h.tagByte) (by omega) (by omega)).1] at hpass hlen ⊢
  obtain ⟨h', hexec, -, -, -, hcopy, -, -, -, hpub, -⟩ := (lzdLitCopies c (fetchTag h) h.tagByte).1 hpass
  refine ⟨h', hexec, hpub.status.trans hd.running, fun k (hk : k < h.tagByte.toNat) => ?_⟩
  replace hlen : h.sp.toNat + (1 + h.tagByte.toNat) ≤ stream.length := hlen
  rw [hd.payload hfit hdrop (by omega)]
  exact congrArg some ((hcopy k hk).2 fun j hj => hd.outAddr_ne_payloadAddr (by omega) (by omega)).symm

/-- `LZD.MATCH` on a match token writes the bytes it repeats, by the overlap law (40_lz_direct.md R83). -/
theorem Block.Delivers.match_writes (hd : h.Delivers .lzDirect source stream) {length distance : Nat} (h127 : length ≤ 127)
    (h1 : 1 ≤ distance) (h255 : distance ≤ 255) (hback : distance ≤ h.wp.toNat)
    (hcopy : ∀ k < length, source[h.wp.toNat - distance + k]? = source[h.wp.toNat + k]?)
    (htag : h.tagByte = 0x80#8 ||| BitVec.ofNat 8 length)
    (hdrop : stream.drop h.sp.toNat = h.tagByte :: BitVec.ofNat 8 distance :: rest) :
    h.TokenWrites .lzDirect source := by
  have hfield : (BitVec.ofNat 8 length).toNat = length := toNat_ofNat_byte (by omega)
  have hsecond : h.secondByte = BitVec.ofNat 8 distance := hd.byteAt (j := 1) (by rw [hdrop]; rfl)
  have hdist : h.secondByte.toNat = distance := by rw [hsecond, toNat_ofNat_byte (by omega)]
  have htagNat : h.tagByte.toNat = 128 + length := by rw [htag, lzMatchTag_toNat (by omega), hfield]
  have hpass := hd.passesLengths (by decide)
  unfold Block.TokenWrites
  rw [(decodeTag_lzMatch (tag := h.tagByte) (by omega)).1, htagNat, Nat.add_sub_cancel_left] at hpass ⊢
  have hmatch : (fetchTag h).PassesMatch (BitVec.ofNat 8 length).toNat := fun hh =>
    ⟨(hpass hh).1, ne_zero_of_toNat (hdist ▸ h1), hdist ▸ hback, (hpass hh).2⟩
  obtain ⟨h', hexec, -, -, -, -, -, -, -, -, hpub, -⟩ := (lzdMatchCopies c (fetchTag h) _).1 hmatch
  refine ⟨h', hexec, hpub.status.trans hd.running, fun k (hk : k < (BitVec.ofNat 8 length).toNat) => ?_⟩
  have hlaw : h'.byteAt (h.outAddr k) = h.byteAt (h.backAddr h.secondByte (k % h.secondByte.toNat)) :=
    matchRepeatsPeriodically c (fetchTag h) h' _ hmatch (hdist ▸ h1) hexec k hk
  have hmod : k % distance < distance := Nat.mod_lt _ h1
  rw [hlaw, hdist, backAddr_eq_dstAddr h _ (hdist ▸ hback), hdist, ← hd.written _ (by omega)]
  exact (repeats_periodic h1 hback hcopy k (by omega)).symm

/-- Every token of a stream that spells the source writes what it stands for. -/
theorem Block.Delivers.token_writes (hd : h.Delivers .lzDirect source stream)
    (hi : (decodeTag .lzDirect h.tagByte).isEnd = false) : h.TokenWrites .lzDirect source := by
  obtain ⟨rest, hdrop⟩ := hd.tagByte
  have hspells := hdrop ▸ hd.spells
  generalize htag : h.tagByte = tag at hspells
  generalize hpos : h.wp.toNat = pos at hspells
  cases hspells with
  | terminator => rw [(decodeTag_isEnd _ _).mpr htag] at hi; cases hi
  | literal _ count rest h1 h127 hfit hrest =>
    subst hpos
    exact hd.literal_writes h1 h127 hfit htag hdrop
  | backReference _ length distance rest h4 h127 h1 h255 hback hfit hcopy hrest =>
    subst hpos
    exact hd.match_writes h127 h1 h255 hback hcopy htag hdrop

/-- Settles O48: the encoder's stream spells the source, and every token writes what it stands for. -/
theorem directRoundTrip : Obligations.DirectRoundTrip := by
  rintro c h source _ rfl hb
  exact (hb.delivers (spells_compress source)).endsWith (by decide) fun _ hg hi => hg.token_writes hi

end Sys2Proof.Machine
end

section
/-! SUPPORT. The statements about the tokens of mode `LZ_SHADOW` (41_lz_shadow.md R92, R93, R96), settled. -/

namespace Sys2Proof.Machine

variable {c : Config}

/-- Settles O15: the loop's lemma with `n` set, then the cursors. -/
theorem lzsLitMirrors : Obligations.LzsLitMirrors := by
  refine fun c h count => ⟨fun hp => ?_, fun cause hh hf => next_congr (checkedToken_stop hh hf)⟩
  obtain ⟨⟨frame, cursor, mirrored, onlyEntries, onlyBytes⟩, i, copy, trace⟩ :=
    mirrorLiteral_loop count.toNat count.isLt.le { h with n := count }
  refine ⟨_, next_congr (checkedToken_pass hp), frame.n, ?_, ?_, ?_, copy, onlyBytes, mirrored, onlyEntries, trace,
    { frame.operands with }, { frame.published with }, frame.cmd, frame.m, frame.dist, frame.fill, i⟩
  · exact (congrArg (· + (1 + c.zext count)) frame.sp).trans (BitVec.add_assoc _ _ _).symm
  · exact congrArg (· + c.zext count) frame.wp
  · exact cursor.trans (by rw [BitVec.ofNat_toNat, BitVec.setWidth_eq])

/-- Settles O16: the loop's lemma with `dist` read, `n` and `i` set, then the cursors. -/
theorem lzsMatchMirrors : Obligations.LzsMatchMirrors := by
  refine fun c h length => ⟨fun hp => ?_,
    fun hh hlt => next_congr (checkedMatch_stop_source hh hlt),
    fun cause hh hle hf => next_congr (checkedMatch_stop hh hle hf)⟩
  have hcount : BitVec.ofNat 8 length.toNat = length := by rw [BitVec.ofNat_toNat, BitVec.setWidth_eq]
  obtain ⟨⟨frame, cursor, mirrored, onlyEntries, onlyBytes⟩, i, -, seen, old, free, trace⟩ :=
    mirrorBack_loop length.toNat length.isLt.le { readDistance h with n := length, i := (readDistance h).shadowStart }
  refine ⟨_, next_congr (checkedMatch_pass hp), frame.n, frame.dist, ?_, ?_, cursor.trans (by rw [hcount]; rfl),
    i.trans (by rw [hcount]; rfl), fun k hk => ⟨seen k hk, fun hne => ⟨old k hk hne, free k hk hne⟩, mirrored k hk⟩,
    onlyEntries, onlyBytes, ?_, { frame.operands with }, { frame.published with }, frame.cmd, frame.m, frame.fill⟩
  · exact congrArg (· + 2) frame.sp
  · exact congrArg (· + c.zext length) frame.wp
  · exact trace.trans (List.append_assoc _ _ _)

/-- Settles O22: at distance 0 every entry is its own source, which no earlier turn has touched. -/
theorem zeroDistanceShadowRepeatsBuffer : Obligations.ZeroDistanceShadowRepeatsBuffer := by
  intro c h length hsoft hzero
  have hp : h.PassesMatch length.toNat := fun hh => absurd hh (by simp [hsoft])
  obtain ⟨h', hnext, -, -, -, hwp, -, -, hentries, -⟩ := (lzsMatchMirrors c h length).1 hp
  refine ⟨h', hnext, hwp, fun k hk v hv => ?_⟩
  obtain ⟨-, hold, hmirror⟩ := hentries k hk
  rw [hzero, BitVec.sub_zero] at hold
  have hlt := length.isLt
  have hkept := (hold fun j hj => shadow_ne h.b (by omega) (by omega) (by omega)).1 v hv
  exact ⟨hkept, Option.some.inj (hmirror.symm.trans hkept)⟩

end Sys2Proof.Machine
end

section
/-! SUPPORT. The mirror invariant of mode `LZ_SHADOW` (41_lz_shadow.md R94): a token that mirrors its output at the cursor keeps
the last 256 output bytes in the buffer. -/

namespace Sys2Proof.Machine

variable {c : Config}

/-! ### The checks by their failures -/

theorem passesLengths_or_fails (h : Block c) (L P : Nat) :
    h.PassesLengths L P ∨ (c.harden = true ∧ ∃ cause, h.lengthsFailure L P = some cause) := by
  obtain ⟨hp, -⟩ | ⟨hh, cause, hf, -⟩ := checkedToken_cases L P id h
  · exact .inl hp
  · exact .inr ⟨hh, cause, hf⟩

theorem passesMatch_or_fails (h : Block c) (P : Nat) :
    h.PassesMatch P ∨ (c.harden = true ∧ h.srcLen.toNat < h.sp.toNat + 2) ∨
      (c.harden = true ∧ h.sp.toNat + 2 ≤ h.srcLen.toNat ∧ ∃ cause, h.matchFailure P = some cause) := by
  obtain ⟨hp, -⟩ | ⟨hh, hlt, -⟩ | ⟨hh, hle, cause, hf, -⟩ := checkedMatch_cases P id h
  · exact .inl hp
  · exact .inr (.inl ⟨hh, hlt⟩)
  · exact .inr (.inr ⟨hh, hle, cause, hf⟩)

/-! ### The output of a token -/

/-- A token has one outcome. -/
theorem exec_unique {h g g' : Block c} {i : Instr} (hexec : exec i ⟨c, h⟩ = .next ⟨c, g⟩)
    (hexec' : exec i ⟨c, h⟩ = .next ⟨c, g'⟩) : g = g' := by
  rw [hexec] at hexec'
  cases hexec'
  rfl

theorem exec_tokenResult {h h' : Block c} {i : Instr} (hexec : exec i ⟨c, h⟩ = .next ⟨c, h'⟩) : TokenResult h i h' := by
  obtain ⟨g, hnext, hr⟩ := exec_result i h
  exact exec_unique hexec hnext ▸ hr

/-- The bytes of the output addresses of the token at `h`, as `h'` holds them. -/
def Block.outBytes (h h' : Block c) (count : Nat) : List Byte := (List.range count).map fun k => h'.byteAt (h.outAddr k)

@[simp] theorem length_outBytes (h h' : Block c) (count : Nat) : (h.outBytes h' count).length = count := by
  simp [Block.outBytes]

theorem getElem?_outBytes (h h' : Block c) {count k : Nat} (hk : k < count) :
    (h.outBytes h' count)[k]? = some (h'.byteAt (h.outAddr k)) := by
  simp [Block.outBytes, hk]

@[simp] theorem output_append {w : Nat} (s t : List (Access w)) : output (s ++ t) = output s ++ output t := by
  simp [output]

/-- The output of a loop whose every turn writes one byte. -/
theorem output_flatMap_range {w : Nat} {f : Nat → List (Access w)} {byte : Nat → Byte} (hf : ∀ k, output (f k) = [byte k])
    (count : Nat) : output ((List.range count).flatMap f) = (List.range count).map byte := by
  induction count with
  | zero => rfl
  | succ count ih => simp [List.range_succ, ih, hf]

/-! ### The buffer beside the output -/

/-- The buffer holds the last bytes of `out`, at most 256, the newest just behind the cursor. -/
def Block.MirrorsLast (h : Block c) (out : List Byte) : Prop :=
  ∀ j, 1 ≤ j → j ≤ min out.length 256 → h.entry (h.b - BitVec.ofNat 8 j) = out[out.length - j]?

theorem mirrorsLast_nil (h : Block c) : h.MirrorsLast [] :=
  fun _ h1 hj => absurd (hj.trans (min_le_left _ _)) (Nat.not_le_of_lt h1)

theorem mirrors_iff (h : Block c) : h.Mirrors ↔ (h.status = .running → h.mode = Mode.lzShadow.code →
    h.b = BitVec.ofNat 8 (output h.trace).length ∧ h.MirrorsLast (output h.trace)) := Iff.rfl

/-- The token from `h` to `h'` has left its `count` output bytes in the entries at the cursor and moved the cursor past them. -/
structure Block.MirrorsOutput (h h' : Block c) (count : Nat) : Prop where
  cursor : h'.b = h.b + BitVec.ofNat 8 count
  mirrored : ∀ k < count, h'.entry (h.b + BitVec.ofNat 8 k) = some (h'.byteAt (h.outAddr k))
  others : OnlyChanges h.entry h'.entry (fun k => h.b + BitVec.ofNat 8 k) count

/-- Such a token keeps the mirror: the entries behind the new cursor are the new bytes, then those that were last before. -/
theorem Block.MirrorsOutput.mirrorsLast {h h' : Block c} {count : Nat} (hm : h.MirrorsOutput h' count) {out : List Byte}
    (hlast : h.MirrorsLast out) : h'.MirrorsLast (out ++ h.outBytes h' count) := by
  intro j h1 hj
  rw [List.length_append, length_outBytes] at hj ⊢
  rw [hm.cursor]
  rcases Nat.lt_or_ge count j with hlt | hge
  · obtain ⟨i, rfl⟩ := Nat.exists_eq_add_of_lt hlt
    have hentry : h.b + BitVec.ofNat 8 count - BitVec.ofNat 8 (count + i + 1) = h.b - BitVec.ofNat 8 (i + 1) := by
      rw [Nat.add_assoc, BitVec.ofNat_add (x := count)]; ring
    rw [hentry, hm.others _ fun k hk he => ?_, hlast (i + 1) (by omega) (by omega),
      List.getElem?_append_left (by omega), show out.length + count - (count + i + 1) = out.length - (i + 1) by omega]
    refine add_ofNat_ne (h.b - BitVec.ofNat 8 (i + 1)) (j := 0) (k := k + (i + 1)) (by omega) (by omega) (by omega) ?_
    have hsum : h.b - BitVec.ofNat 8 (i + 1) + BitVec.ofNat 8 (k + (i + 1)) = h.b + BitVec.ofNat 8 k := by
      rw [BitVec.ofNat_add (x := k)]; ring
    rw [BitVec.add_zero, hsum]
    exact he
  · obtain ⟨i, rfl⟩ := Nat.exists_eq_add_of_le' hge
    have hentry : h.b + BitVec.ofNat 8 (i + j) - BitVec.ofNat 8 j = h.b + BitVec.ofNat 8 i := by
      rw [BitVec.ofNat_add]; ring
    rw [hentry, hm.mirrored i (by omega), List.getElem?_append_right (by omega),
      show out.length + (i + j) - j - out.length = i by omega, getElem?_outBytes _ _ (by omega)]

/-! ### The tokens of mode `LZ_SHADOW` -/

/-- `LZS.LIT` mirrors what it writes. -/
theorem execLzsLit_mirrorsOutput {h h' : Block c} {count : Byte} (hp : h.PassesLengths (1 + count.toNat) count.toNat)
    (hexec : exec (.lzsLit count) ⟨c, h⟩ = .next ⟨c, h'⟩) :
    h.MirrorsOutput h' count.toNat ∧ output h'.trace = output h.trace ++ h.outBytes h' count.toNat := by
  obtain ⟨g, hnext, -, -, -, cursor, -, -, mirrored, others, trace, -⟩ := (lzsLitMirrors c h count).1 hp
  obtain rfl := exec_unique hexec hnext
  refine ⟨⟨cursor.trans (by rw [BitVec.ofNat_toNat, BitVec.setWidth_eq]), mirrored, others⟩, ?_⟩
  rw [trace, output_append, output_flatMap_range fun _ => rfl]
  rfl

/-- `LZS.MATCH` mirrors what it writes. -/
theorem execLzsMatch_mirrorsOutput {h h' : Block c} {length : Byte} (hp : h.PassesMatch length.toNat)
    (hexec : exec (.lzsMatch length) ⟨c, h⟩ = .next ⟨c, h'⟩) :
    h.MirrorsOutput h' length.toNat ∧ output h'.trace = output h.trace ++ h.outBytes h' length.toNat := by
  obtain ⟨g, hnext, -, -, -, -, cursor, -, entries, others, -, trace, -⟩ := (lzsMatchMirrors c h length).1 hp
  obtain rfl := exec_unique hexec hnext
  refine ⟨⟨cursor.trans (by rw [BitVec.ofNat_toNat, BitVec.setWidth_eq]), fun k hk => (entries k hk).2.2, others⟩, ?_⟩
  rw [trace, output_append, ← List.singleton_append, output_append, output_flatMap_range fun _ => rfl]
  rfl

/-- A token of mode `LZ_SHADOW` ends the call, in `DONE` or in `FAULT`, or mirrors its output. -/
theorem exec_lzs_mirrorsOutput {h h' : Block c} {i : Instr} (hi : i.mode = .lzShadow)
    (hexec : exec i ⟨c, h⟩ = .next ⟨c, h'⟩) :
    h'.status ≠ .running ∨ (h.MirrorsOutput h' i.output ∧ output h'.trace = output h.trace ++ h.outBytes h' i.output) := by
  cases i with
  | lzsEnd => cases hexec; exact .inl (by simp)
  | lzsLit count =>
    obtain hp | ⟨hh, cause, hf⟩ := passesLengths_or_fails h (1 + count.toNat) count.toNat
    · exact .inr (execLzsLit_mirrorsOutput hp hexec)
    · rw [(lzsLitMirrors c h count).2 cause hh hf] at hexec
      cases hexec
      exact .inl (by simp)
  | lzsMatch length =>
    obtain ⟨hsource, hrest⟩ := (lzsMatchMirrors c h length).2
    obtain hp | ⟨hh, hlt⟩ | ⟨hh, hle, cause, hf⟩ := passesMatch_or_fails h length.toNat
    · exact .inr (execLzsMatch_mirrorsOutput hp hexec)
    · rw [hsource hh hlt] at hexec
      cases hexec
      exact .inl (by simp)
    · rw [hrest cause hh hle hf] at hexec
      cases hexec
      exact .inl (by simp)
  | _ => cases hi

/-! ### The moves -/

/-- 10_state.md R13: a code names the decoder of its mode, where `MODE_SET` has it (00_scope.md R7). -/
theorem decoder_modeCode (c : Config) (mode : Mode) : c.decoder mode.code = if c.has mode then some mode else none := by
  cases mode <;> rfl

theorem step_mirrors {h : Block c} {t : State} (hstep : step ⟨c, h⟩ = .next t) (hm : h.Mirrors) : t.block.Mirrors := by
  obtain ⟨-, rfl⟩ | ⟨hs, mode, hd, ⟨-, -, rfl⟩ | ⟨-, hexec⟩⟩ := step_cases hstep
  · exact hm
  · exact mirrors_of_atRest (by simp)
  obtain ⟨h', hnext, hr⟩ := exec_result (decodeTag mode h.tagByte) (fetchTag h)
  obtain rfl : t = ⟨c, h'⟩ := by rw [hnext] at hexec; cases hexec; rfl
  refine (mirrors_iff h').mpr fun hrun hshadow => ?_
  have hcode : h.mode = Mode.lzShadow.code := hr.sameOperands.mode ▸ hshadow
  have hmode : mode = .lzShadow := by
    rw [hcode, decoder_modeCode] at hd
    exact (Option.some.inj (Option.ite_none_right_eq_some.mp hd).2).symm
  obtain hrest | ⟨hout, htrace⟩ := exec_lzs_mirrorsOutput ((decodeTag_mode mode h.tagByte).trans hmode) hnext
  · exact absurd hrun hrest
  · obtain ⟨hb, hlast⟩ := (mirrors_iff h).mp hm hs hcode
    have hbefore : output (fetchTag h).trace = output h.trace := by rw [fetchTag_trace, output_append]; exact List.append_nil _
    rw [htrace, hbefore]
    refine ⟨?_, hout.mirrorsLast (h := fetchTag h) hlast⟩
    rw [hout.cursor, List.length_append, length_outBytes, BitVec.ofNat_add, ← hb]
    rfl

theorem HostEffect.mirrors {h h' : Block c} (he : HostEffect h h') (hm : h.Mirrors) : h'.Mirrors := by
  cases he with
  | nothing => exact hm
  | started ha => exact fun _ _ => ⟨rfl, mirrorsLast_nil _⟩
  | resetTaken => exact mirrors_of_atRest nofun
  | operands hs src dst mode srcLen dstLen => exact mirrors_of_atRest hs
  | stored hs a v => exact mirrors_of_atRest hs

/-- Settles O36: a running call in `LZ_SHADOW` mirrors every token it completes, START begins with no output, and every other move
of the host leaves the engine at rest. -/
theorem movesKeepMirror : Obligations.MovesKeepMirror := by
  intro s t hmove hm
  cases hmove with
  | engine hstep => exact step_mirrors hstep hm
  | host cmd hact => exact (hostAct_effect hact).mirrors hm
  | read r v hread => rw [hostRead_frame hread]; exact hm

end Sys2Proof.Machine
end

section
/-! SUPPORT. Memory as a function of the record (20_memory.md R48): a step changes memory by the destination writes it records and
by nothing else, so that equal records leave equal memory and the destination holds the output (70_reset_and_hazards.md R142). -/

namespace Sys2Proof.Machine

variable {c : Config}

/-- Memory after destination writes at the offsets from `dst`, in their order. -/
def storeAll {w : Nat} (dst : BitVec w) (m : Memory) (writes : List (BitVec w × Byte)) : Memory :=
  writes.foldl (fun m e => Memory.store m (dst + e.1).toNat e.2) m

theorem storeAll_append {w : Nat} (dst : BitVec w) (m : Memory) (s t : List (BitVec w × Byte)) :
    storeAll dst m (s ++ t) = storeAll dst (storeAll dst m s) t := List.foldl_append

/-- From `h` to `g` memory has changed by the destination writes recorded in between. -/
structure Block.Replays (h g : Block c) : Prop where
  dst : g.dst = h.dst
  writes : ∃ accesses, g.trace = h.trace ++ accesses ∧ g.mem = storeAll h.dst h.mem (dstWrites accesses)

theorem Block.Replays.refl (h : Block c) : h.Replays h := ⟨rfl, [], (List.append_nil _).symm, rfl⟩

section Replays

variable {h g f : Block c}

theorem Block.Replays.trans (h1 : h.Replays g) (h2 : g.Replays f) : h.Replays f := by
  obtain ⟨hdst, s, hs, hmem⟩ := h1
  obtain ⟨gdst, t, ht, gmem⟩ := h2
  refine ⟨gdst.trans hdst, s ++ t, by rw [ht, hs, List.append_assoc], ?_⟩
  rw [gmem, hdst, hmem, dstWrites_append, storeAll_append]

/-- A change of other registers. -/
theorem Block.Replays.silent (hg : h.Replays g) (hdst : f.dst = g.dst) (htrace : f.trace = g.trace) (hmem : f.mem = g.mem) :
    h.Replays f :=
  hg.trans ⟨hdst, [], by rw [htrace, List.append_nil], hmem⟩

/-- The counts of a token (10_state.md R22). -/
theorem Block.Replays.counts (hg : h.Replays g) (n m : Byte) : h.Replays { g with n := n, m := m } := hg.silent rfl rfl rfl

/-- The shadow indexes (10_state.md R26, R27). -/
theorem Block.Replays.shadow (hg : h.Replays g) (b i : Byte) : h.Replays { g with b := b, i := i } := hg.silent rfl rfl rfl

/-- An access that writes nothing to the destination. -/
theorem Block.Replays.record (hg : h.Replays g) (e : Access c.aw) (he : dstWrites [e] = []) : h.Replays (g.record e) :=
  hg.trans ⟨rfl, [e], rfl, by rw [he]; rfl⟩

theorem Block.Replays.written (hg : h.Replays g) (off : c.Word) (v : Byte) : h.Replays (dstWrite off v g) :=
  hg.trans ⟨rfl, [.dstWrite off v], rfl, rfl⟩

theorem Block.Replays.mirrored (hg : h.Replays g) (j v : Byte) : h.Replays (bufWrite j v g) :=
  Block.Replays.record (g := { g with buf := g.buf.set j.toNat (some v) j.isLt }) (hg.silent rfl rfl rfl) _ rfl

/-- A byte loop whose turns do so. -/
theorem Block.Replays.loop {body : Nat → Block c → Block c} (hg : h.Replays g) (turn : ∀ j (f : Block c), f.Replays (body j f))
    (count : Nat) : h.Replays (forBytes body count g) :=
  forBytes_induct (fun _ f => h.Replays f) body count g (fun _ _ _ hf => hf.silent rfl rfl rfl)
    (fun _ _ hf => hf.silent rfl rfl rfl) hg fun j _ f hf => hf.trans (turn j f)

end Replays

/-! ### The loop bodies and the payload bytes -/

theorem copyLiteral_replays (sbase dbase : c.Word) (j : Nat) (g : Block c) : g.Replays (copyLiteral sbase dbase j g) :=
  ((Block.Replays.refl g).record (.srcRead _) rfl).written _ _

theorem copyBack_replays (j : Nat) (g : Block c) : g.Replays (copyBack j g) :=
  ((Block.Replays.refl g).record (.dstRead _) rfl).written _ _

theorem writeFill_replays (j : Nat) (g : Block c) : g.Replays (writeFill j g) := (Block.Replays.refl g).written _ _

theorem mirrorLiteral_replays (j : Nat) (g : Block c) : g.Replays (mirrorLiteral j g) := by
  have hread := (Block.Replays.refl g).record (.srcRead (g.payloadOff 1 j)) rfl
  have hmirror := hread.mirrored g.b (g.byteAt (g.srcAddr (g.payloadOff 1 j)))
  exact (hmirror.shadow (g.b + 1) g.i).written _ _

theorem mirrorBack_replays (j : Nat) (g : Block c) : g.Replays (mirrorBack j g) := by
  unfold mirrorBack
  rw [bufRead_eq]
  have hread : g.Replays { g.record (.bufRead g.i) with draws := g.drawsAfter g.i } :=
    ((Block.Replays.refl g).record (.bufRead g.i) rfl).silent rfl rfl rfl
  exact ((hread.mirrored g.b (g.entryByte g.i)).written (g.outOff 0 j) (g.entryByte g.i)).shadow (g.b + 1) (g.i + 1)

theorem readDistance_replays (g : Block c) : g.Replays (readDistance g) :=
  ((Block.Replays.refl g).record (.srcRead (g.sp + 1)) rfl).silent rfl rfl rfl

theorem readFill_replays (g : Block c) : g.Replays (readFill g) :=
  ((Block.Replays.refl g).record (.srcRead (g.sp + 1)) rfl).silent rfl rfl rfl

theorem fetchTag_replays (g : Block c) : g.Replays (fetchTag g) :=
  ((Block.Replays.refl g).record (.srcRead g.sp) rfl).silent rfl rfl rfl

theorem raiseMalformed_replays (cause : Cause) (g : Block c) : g.Replays (raiseMalformed cause g) :=
  (Block.Replays.refl g).silent rfl rfl rfl

/-! ### The tokens and the step -/

theorem checkedToken_replays (L P : Nat) {rule : Block c → Block c} {h : Block c} (hrule : h.Replays (rule h)) :
    h.Replays (checkedToken L P rule h) := by
  obtain ⟨-, he⟩ | ⟨-, cause, -, he⟩ := checkedToken_cases L P rule h
  · exact he ▸ hrule
  · exact he ▸ raiseMalformed_replays cause h

theorem checkedMatch_replays (P : Nat) {rule : Block c → Block c} {h : Block c} (hrule : ∀ g : Block c, g.Replays (rule g)) :
    h.Replays (checkedMatch P rule h) := by
  obtain ⟨-, he⟩ | ⟨-, -, he⟩ | ⟨-, -, cause, -, he⟩ := checkedMatch_cases P rule h
  · exact he ▸ (readDistance_replays h).trans (hrule _)
  · exact he ▸ raiseMalformed_replays _ h
  · exact he ▸ (readDistance_replays h).trans (raiseMalformed_replays cause _)

/-- A token set up as `g`, its one byte loop, the cursors advanced. -/
theorem Block.Replays.loop_advance {h g : Block c} {body : Nat → Block c → Block c} (hg : h.Replays g)
    (turn : ∀ j (f : Block c), f.Replays (body j f)) (count : Nat) (len out : c.Word) :
    h.Replays (advance len out (forBytes body count g)) :=
  (hg.loop turn count).silent rfl rfl rfl

theorem exec_replays {i : Instr} {h h' : Block c} (hexec : exec i ⟨c, h⟩ = .next ⟨c, h'⟩) : h.Replays h' := by
  have start := Block.Replays.refl h
  cases i with
  | lzdEnd | lzsEnd | rleEnd => cases hexec; exact start.silent rfl rfl rfl
  | lzdLit count | rleLit count =>
    cases hexec
    exact checkedToken_replays _ _ ((start.counts count h.m).loop_advance (copyLiteral_replays 1 0) _ _ _)
  | lzdMatch length =>
    cases hexec
    exact checkedMatch_replays _ fun g => ((Block.Replays.refl g).counts length g.m).loop_advance copyBack_replays _ _ _
  | lzsLit count =>
    cases hexec
    exact checkedToken_replays _ _ ((start.counts count h.m).loop_advance mirrorLiteral_replays _ _ _)
  | lzsMatch length =>
    cases hexec
    exact checkedMatch_replays _ fun g =>
      (((Block.Replays.refl g).counts length g.m).shadow g.b g.shadowStart).loop_advance mirrorBack_replays _ _ _
  | rleRun run =>
    cases hexec
    exact checkedToken_replays _ _
      (((start.counts run h.m).trans (readFill_replays _)).loop_advance writeFill_replays _ _ _)
  | rleComb run litlen =>
    cases hexec
    exact checkedToken_replays _ _ ((((start.counts run litlen).trans (readFill_replays _)).loop writeFill_replays _).loop_advance
      (copyLiteral_replays 2 _) _ _ _)

theorem step_replays {h h' : Block c} (hstep : step ⟨c, h⟩ = .next ⟨c, h'⟩) : h.Replays h' := by
  obtain ⟨-, he⟩ | ⟨-, mode, -, ⟨-, -, he⟩ | ⟨-, hexec⟩⟩ := step_cases hstep
  · cases he; exact .refl _
  · cases he; exact raiseMalformed_replays _ h
  · exact (fetchTag_replays h).trans (exec_replays hexec)

/-! ### The destination holds the output -/

/-- The destination holds the last bytes of `out`, as many as the address space has room for. -/
def Block.HoldsLast (h : Block c) (out : List Byte) : Prop :=
  ∀ j, 1 ≤ j → j ≤ min out.length (2 ^ c.aw) →
    some (h.byteAt (h.dstAddr (BitVec.ofNat c.aw (out.length - j)))) = out[out.length - j]?

theorem holdsOutput_iff (h : Block c) : h.HoldsOutput ↔ h.HoldsLast (output h.trace) := Iff.rfl

theorem Block.HoldsLast.snoc {h : Block c} {out : List Byte} (hh : h.HoldsLast out) (v : Byte) :
    (h.setByte (h.dstAddr (BitVec.ofNat c.aw out.length)) v).HoldsLast (out ++ [v]) := by
  intro j h1 hj
  rw [List.length_append, List.length_singleton] at hj ⊢
  obtain ⟨i, rfl⟩ := Nat.exists_eq_add_of_le' h1
  rw [Nat.add_sub_add_right]
  rcases Nat.eq_zero_or_pos i with rfl | hpos
  · rw [Nat.sub_zero, List.getElem?_concat_length]
    exact congrArg some (byteAt_setByte_same h _ v)
  · have hne : h.dst + BitVec.ofNat c.aw (out.length - i) ≠ h.dst + BitVec.ofNat c.aw out.length := by
      have hapart := add_ofNat_ne (h.dst + BitVec.ofNat c.aw (out.length - i)) (j := 0) (k := i) (Nat.two_pow_pos _)
        (by omega) (by omega)
      rwa [BitVec.add_zero, BitVec.add_assoc, ← BitVec.ofNat_add, Nat.sub_add_cancel (by omega)] at hapart
    rw [List.getElem?_append_left (by omega), ← hh i hpos (by omega)]
    exact congrArg some (byteAt_setByte_other h v hne)

/-- Destination writes at the offsets that come next are held as well. -/
theorem Block.HoldsLast.storeAll {h : Block c} {out : List Byte} (hh : h.HoldsLast out) (writes : List (c.Word × Byte))
    (hoffsets : writes.map Prod.fst = offsetsFrom (BitVec.ofNat c.aw out.length) writes.length) :
    Block.HoldsLast { h with mem := storeAll h.dst h.mem writes } (out ++ writes.map Prod.snd) := by
  induction writes using List.reverseRecOn with
  | nil => rwa [List.map_nil, List.append_nil]
  | append_singleton writes e ih =>
    rw [List.map_append, List.length_append, List.length_singleton, offsetsFrom_succ] at hoffsets
    obtain ⟨hbefore, hnext⟩ := List.append_inj hoffsets (by simp)
    have hoff : e.1 = BitVec.ofNat c.aw (out ++ writes.map Prod.snd).length := by
      rw [List.length_append, List.length_map, BitVec.ofNat_add]
      exact List.singleton_inj.mp hnext
    have hsnoc := (ih hbefore).snoc e.2
    rw [← hoff, List.append_assoc] at hsnoc
    rw [storeAll_append, List.map_append]
    exact hsnoc

theorem Block.HoldsLast.congr {h g : Block c} {out : List Byte} (hh : h.HoldsLast out) (hdst : g.dst = h.dst)
    (hmem : g.mem = h.mem) : g.HoldsLast out := by
  intro j h1 hj
  rw [byteAt_congr hmem, Block.dstAddr, hdst]
  exact hh j h1 hj

/-- A call that has begun does not become idle by a step (10_state.md R31). -/
theorem step_ne_idle {h h' : Block c} (hstep : step ⟨c, h⟩ = .next ⟨c, h'⟩) (hs : h.status ≠ .idle) : h'.status ≠ .idle := by
  by_cases hrun : h.status = .running
  · obtain ⟨_, ⟨⟩, ⟨hstay, -⟩ | ⟨rfl, -⟩ | ⟨hfault, -⟩⟩ := step_running_cases hrun hstep
    · rwa [hstay.published.status]
    · simp
    · simp [hfault]
  · rw [step_quiet hrun] at hstep
    cases hstep
    exact hs

/-- The writes of a step stand at the offsets that come next (20_memory.md R50), so the destination holds them as well. -/
theorem step_holdsOutput {h h' : Block c} (hstep : step ⟨c, h⟩ = .next ⟨c, h'⟩) (hx : h.ExactAccess) (hh : h.HoldsOutput) :
    h'.HoldsOutput := by
  by_cases hs : h.status = .idle
  · rw [step_quiet (by simp [hs])] at hstep
    cases hstep
    exact hh
  obtain ⟨hdst, accesses, htrace, hmem⟩ := step_replays hstep
  have hafter := (step_exactAccess hstep hx).writes (step_ne_idle hstep hs)
  rw [htrace, dstWrites_append, List.map_append, List.length_append, offsetsUpTo_add, ← hx.writes hs] at hafter
  have hout : (output h.trace).length = (dstWrites h.trace).length := by simp [output]
  have hoffsets := List.append_cancel_left hafter
  rw [← hout] at hoffsets
  rw [holdsOutput_iff, htrace, output_append]
  exact (((holdsOutput_iff h).mp hh).storeAll _ hoffsets).congr hdst hmem

end Sys2Proof.Machine
end

section
/-! SUPPORT. What a match repeats in either LZ mode (40_lz_direct.md R82, R83; 41_lz_shadow.md R93): at a distance inside the
output both decoders write the last bytes of the output once more, from the destination or from the buffer. -/

namespace Sys2Proof.Machine

variable {c : Config} {h h' : Block c}

/-- The entries a match at a distance inside the output reads before it meets its own: the last output bytes. -/
theorem Block.MirrorsLast.entry_behind {out : List Byte} (hlast : h.MirrorsLast out) {d : Byte} (hd : d.toNat ≤ out.length)
    {k : Nat} (hk : k < d.toNat) : h.entry (h.b - d + BitVec.ofNat 8 k) = out[out.length - d.toNat + k]? := by
  have hlt := d.isLt
  obtain ⟨j, hj⟩ := Nat.exists_eq_add_of_lt hk
  have hindex : h.b - d + BitVec.ofNat 8 k = h.b - BitVec.ofNat 8 (j + 1) := by
    rw [eq_ofNat_of_toNat (x := d) hj, Nat.add_assoc, BitVec.ofNat_add (x := k)]
    ring
  rw [hindex, hlast (j + 1) (by omega) (by omega), show out.length - d.toNat + k = out.length - (j + 1) by omega]

/-- The bytes a match at a distance inside the output reads before it meets its own: the last output bytes. -/
theorem Block.HoldsLast.byteAt_behind {out : List Byte} (hlast : h.HoldsLast out) (hwp : h.wp = BitVec.ofNat c.aw out.length)
    {d : Byte} (hd : d.toNat ≤ out.length) {k : Nat} (hk : k < d.toNat) :
    some (h.byteAt (h.backAddr d k)) = out[out.length - d.toNat + k]? := by
  have hlt := d.isLt
  have hroom := aw_room c
  obtain ⟨j, hj⟩ := Nat.exists_eq_add_of_lt hk
  obtain ⟨n, hn⟩ := Nat.exists_eq_add_of_le' hd
  have haddr : h.backAddr d k = h.dstAddr (BitVec.ofNat c.aw (out.length - (j + 1))) := by
    rw [show out.length - (j + 1) = n + k by omega, Block.backAddr, hwp, hn, zext_eq_ofNat, BitVec.ofNat_add,
      BitVec.add_sub_cancel, BitVec.ofNat_add]
  rw [haddr, hlast (j + 1) (by omega) (by omega), show out.length - d.toNat + k = out.length - (j + 1) by omega]

/-- 41_lz_shadow.md R93 on written entries is the overlap law of 40_lz_direct.md R83: `LZS.MATCH` writes the last `distance` bytes
of the output cyclically. -/
theorem execLzsMatch_repeats {length : Byte} (hp : h.PassesMatch length.toNat)
    (hexec : exec (.lzsMatch length) ⟨c, h⟩ = .next ⟨c, h'⟩) {out : List Byte} (hlast : h.MirrorsLast out)
    (h1 : 1 ≤ h.secondByte.toNat) (hd : h.secondByte.toNat ≤ out.length) {k : Nat} (hk : k < length.toNat) :
    some (h'.byteAt (h.outAddr k)) = out[out.length - h.secondByte.toNat + k % h.secondByte.toNat]? := by
  obtain ⟨g, hnext, -, -, -, -, -, -, entries, -⟩ := (lzsMatchMirrors c h length).1 hp
  obtain rfl := exec_unique hexec hnext
  have hlt := h.secondByte.isLt
  have hown : ∀ j, h.b - h.secondByte + BitVec.ofNat 8 (h.secondByte.toNat + j) = h.b + BitVec.ofNat 8 j := fun j => by
    rw [BitVec.ofNat_add, BitVec.ofNat_toNat, BitVec.setWidth_eq]; ring
  have hcopy : ForwardCopy h.entry h'.entry (fun k => h.b - h.secondByte + BitVec.ofNat 8 k)
      (fun k => h.b + BitVec.ofNat 8 k) length.toNat := by
    intro k hk
    obtain ⟨seen, fresh, -⟩ := entries k hk
    refine ⟨seen, fun hne => ?_⟩
    have hfirst : k < h.secondByte.toNat := by
      by_contra hge
      obtain ⟨j, rfl⟩ := Nat.exists_eq_add_of_le (Nat.le_of_not_lt hge)
      exact hne j (by omega) (hown j).symm
    have hbehind := hlast.entry_behind hd hfirst
    rw [List.getElem?_eq_getElem (by omega)] at hbehind
    exact ((fresh hne).1 _ hbehind).trans hbehind.symm
  have hrepeat := hcopy.periodic h1 hown (fun i hi j hj _ => by
    obtain ⟨m, hm⟩ := Nat.exists_eq_add_of_le (show i ≤ h.secondByte.toNat + j by omega)
    have hapart := shadow_ne (h.b - h.secondByte + BitVec.ofNat 8 i) (j := m) (k := 0) (by omega) (by omega) (by omega)
    rwa [BitVec.add_zero, BitVec.add_assoc, ← BitVec.ofNat_add, ← hm, hown] at hapart) k hk
  rw [← (entries k hk).2.2, hrepeat]
  exact hlast.entry_behind hd (Nat.mod_lt _ h1)

/-- `LZD.MATCH` writes the same bytes. -/
theorem execLzdMatch_repeats {length : Byte} (hp : h.PassesMatch length.toNat)
    (hexec : exec (.lzdMatch length) ⟨c, h⟩ = .next ⟨c, h'⟩) {out : List Byte} (hlast : h.HoldsLast out)
    (hwp : h.wp = BitVec.ofNat c.aw out.length) (h1 : 1 ≤ h.secondByte.toNat) (hd : h.secondByte.toNat ≤ out.length) {k : Nat}
    (hk : k < length.toNat) :
    some (h'.byteAt (h.outAddr k)) = out[out.length - h.secondByte.toNat + k % h.secondByte.toNat]? := by
  rw [matchRepeatsPeriodically c h h' length hp h1 hexec k hk]
  exact hlast.byteAt_behind hwp hd (Nat.mod_lt _ h1)

end Sys2Proof.Machine
end

section
/-! SUPPORT. The two LZ decoders side by side (41_lz_shadow.md R95): on a well-formed token both write the same bytes, so all that
`Block.SameCall` compares stays the same. -/

namespace Sys2Proof.Machine

variable {c : Config}

/-! ### What the comparison needs of each decoder -/

/-- A forward copy is determined by what stands at its sources before it. -/
theorem ForwardCopy.unique {α β : Type} {before after after' : α → β} {source target : Nat → α} {count : Nat}
    (hcopy : ForwardCopy before after source target count) (hcopy' : ForwardCopy before after' source target count) :
    ∀ k < count, after' (target k) = after (target k) := by
  intro k
  induction k using Nat.strong_induction_on with
  | _ k ih =>
    intro hk
    by_cases hown : ∃ j < k, target j = source k
    · obtain ⟨j, hj, he⟩ := hown
      rw [(hcopy k hk).1 j hj he, (hcopy' k hk).1 j hj he, ih j hj (hj.trans hk)]
    · have hold : ∀ j < k, target j ≠ source k := fun j hj he => hown ⟨j, hj, he⟩
      rw [(hcopy k hk).2 hold, (hcopy' k hk).2 hold]

/-- `LZD.LIT` outputs what it leaves at its output addresses. -/
theorem execLzdLit_output {h h' : Block c} {count : Byte} (hp : h.PassesLengths (1 + count.toNat) count.toNat)
    (hexec : exec (.lzdLit count) ⟨c, h⟩ = .next ⟨c, h'⟩) :
    output h'.trace = output h.trace ++ h.outBytes h' count.toNat := by
  obtain ⟨g, hnext, -, -, -, -, -, trace, -⟩ := (lzdLitCopies c h count).1 hp
  obtain rfl := exec_unique hexec hnext
  rw [trace, output_append, output_flatMap_range fun _ => rfl]
  rfl

/-- `LZD.MATCH` outputs what it leaves at its output addresses. -/
theorem execLzdMatch_output {h h' : Block c} {length : Byte} (hp : h.PassesMatch length.toNat)
    (hexec : exec (.lzdMatch length) ⟨c, h⟩ = .next ⟨c, h'⟩) :
    output h'.trace = output h.trace ++ h.outBytes h' length.toNat := by
  obtain ⟨g, hnext, -, -, -, -, -, -, trace, -⟩ := (lzdMatchCopies c h length).1 hp
  obtain rfl := exec_unique hexec hnext
  rw [trace, output_append, ← List.singleton_append, output_append, output_flatMap_range fun _ => rfl]
  rfl

/-- The accesses of a token that is not stopped, up to the values it writes (20_memory.md R49, R50), and the memory they leave. -/
theorem exec_accesses {i : Instr} {h h' : Block c} (hexec : exec i ⟨c, h⟩ = .next ⟨c, h'⟩) (hf : h'.status ≠ .fault) :
    ∃ accesses, h'.trace = h.trace ++ accesses ∧ h.sp :: srcReads accesses = offsetsFrom h.sp i.length ∧
      (dstWrites accesses).map Prod.fst = offsetsFrom h.wp i.output ∧ h'.mem = storeAll h.dst h.mem (dstWrites accesses) := by
  obtain ⟨-, accesses, htrace, hmem⟩ := exec_replays hexec
  refine ⟨accesses, htrace, ?_⟩
  cases exec_tokenResult hexec with
  | ended hi =>
    obtain ⟨hlen, hout⟩ := isEnd_length_output hi
    obtain rfl : accesses = [] := List.append_right_eq_self.mp htrace.symm
    exact ⟨by simp [hlen, offsetsFrom_succ, srcReads], by simp [hout, dstWrites], hmem⟩
  | completed hi work hlen hout =>
    obtain ⟨accesses', htrace', hcounts⟩ := work.trace
    obtain rfl : accesses = accesses' := List.append_cancel_left (htrace.symm.trans htrace')
    exact ⟨hcounts.sourceReads, hcounts.destWrites, hmem⟩
  | stopped cause hh work hshadow => exact absurd rfl hf

/-! ### Calls that agree -/

/-- What `Block.SameCall` compares of the two calls, without what it promises of each. -/
structure Block.Agrees (hd hs : Block c) : Prop where
  src : hs.src = hd.src
  dst : hs.dst = hd.dst
  srcLen : hs.srcLen = hd.srcLen
  dstLen : hs.dstLen = hd.dstLen
  status : hs.status = hd.status
  sp : hs.sp = hd.sp
  wp : hs.wp = hd.wp
  mem : hs.mem = hd.mem
  reads : srcReads hs.trace = srcReads hd.trace
  writes : dstWrites hs.trace = dstWrites hd.trace
  result : hd.status = .done → hs.result = hd.result
  wpos : hd.status = .done ∨ hd.status = .fault → hs.wpos = hd.wpos
  cause : hd.status = .fault → hs.cause = hd.cause

section Agrees

variable {hd hs gd gs : Block c}

theorem Block.SameCall.agrees (hsame : hd.SameCall hs) : hd.Agrees hs := { hsame with }

theorem Block.Agrees.byteAt (m : hd.Agrees hs) : hs.byteAt = hd.byteAt := funext (byteAt_congr m.mem)

theorem Block.Agrees.outAddr (m : hd.Agrees hs) : hs.outAddr = hd.outAddr :=
  funext fun k => by rw [outAddr_eq, outAddr_eq, m.dst, m.wp]

theorem Block.Agrees.payloadAddr (m : hd.Agrees hs) : hs.payloadAddr = hd.payloadAddr := by
  funext base k
  rw [Block.payloadAddr, Block.srcAddr, Block.payloadOff, m.src, m.sp]
  rfl

theorem Block.Agrees.tagByte (m : hd.Agrees hs) : hs.tagByte = hd.tagByte := by
  rw [Block.tagByte, Block.srcAddr, m.byteAt, m.src, m.sp]
  rfl

theorem Block.Agrees.secondByte (m : hd.Agrees hs) : hs.secondByte = hd.secondByte := by
  rw [Block.secondByte, Block.srcAddr, m.byteAt, m.src, m.sp]
  rfl

theorem Block.Agrees.passesLengths (m : hd.Agrees hs) {L P : Nat} (hp : hd.PassesLengths L P) : hs.PassesLengths L P := by
  rwa [Block.PassesLengths, m.srcLen, m.sp, m.dstLen, m.wp]

theorem Block.Agrees.lengthsFailure (m : hd.Agrees hs) (L P : Nat) : hs.lengthsFailure L P = hd.lengthsFailure L P := by
  rw [Block.lengthsFailure, m.srcLen, m.sp, m.dstLen, m.wp]
  rfl

theorem Block.Agrees.passesMatch (m : hd.Agrees hs) {P : Nat} (hp : hd.PassesMatch P) : hs.PassesMatch P := by
  rwa [Block.PassesMatch, m.srcLen, m.sp, m.dstLen, m.wp, m.secondByte]

theorem Block.Agrees.matchFailure (m : hd.Agrees hs) (P : Nat) : hs.matchFailure P = hd.matchFailure P := by
  rw [Block.matchFailure, m.secondByte, m.dstLen, m.wp]
  rfl

/-- The same source read on both sides. -/
theorem Block.Agrees.srcReads_snoc (m : hd.Agrees hs) {off off' : c.Word} (hoff : off' = off) :
    srcReads (hs.trace ++ [.srcRead off']) = srcReads (hd.trace ++ [.srcRead off]) := by
  rw [srcReads_append, srcReads_append, m.reads, hoff]

theorem Block.Agrees.dstWrites_snoc (m : hd.Agrees hs) (off off' : c.Word) :
    dstWrites (hs.trace ++ [.srcRead off']) = dstWrites (hd.trace ++ [.srcRead off]) := by
  rw [dstWrites_append, dstWrites_append, m.writes]
  rfl

theorem Block.Agrees.fetchTag (m : hd.Agrees hs) : (fetchTag hd).Agrees (fetchTag hs) :=
  { m with reads := m.srcReads_snoc m.sp, writes := m.dstWrites_snoc _ _ }

theorem Block.Agrees.readDistance (m : hd.Agrees hs) : (readDistance hd).Agrees (readDistance hs) :=
  { m with reads := m.srcReads_snoc (congrArg (· + 1) m.sp), writes := m.dstWrites_snoc _ _ }

theorem Block.Agrees.raiseMalformed (m : hd.Agrees hs) (cause : Cause) :
    (raiseMalformed cause hd).Agrees (raiseMalformed cause hs) :=
  { m with status := rfl, result := nofun, wpos := fun _ => m.wp, cause := fun _ => rfl }

theorem Block.Agrees.finishCall (m : hd.Agrees hs) : (finishCall hd).Agrees (finishCall hs) :=
  { m with
    status := rfl, sp := congrArg (· + 1) m.sp, result := fun _ => congrArg (· + 1) m.sp, wpos := fun _ => m.wp
    cause := nofun }

/-- Two tokens of the same length and output agree as soon as they write the same bytes: where they read and write follows from
the cursors, and memory from what they write. -/
theorem Block.Agrees.completed (m : hd.Agrees hs) {i i' : Instr} (hexec : exec i ⟨c, hd⟩ = .next ⟨c, gd⟩)
    (hexec' : exec i' ⟨c, hs⟩ = .next ⟨c, gs⟩) (hlen : i'.length = i.length) (hout : i'.output = i.output)
    (hrun : gd.status = .running) (hrun' : gs.status = .running) {bytes : List Byte}
    (hbytes : output gd.trace = output hd.trace ++ bytes) (hbytes' : output gs.trace = output hs.trace ++ bytes) :
    gd.Agrees gs := by
  have hf : gd.status ≠ .fault := by simp [hrun]
  have hf' : gs.status ≠ .fault := by simp [hrun']
  obtain ⟨accesses, htrace, hreads, hoffsets, hmem⟩ := exec_accesses hexec hf
  obtain ⟨accesses', htrace', hreads', hoffsets', hmem'⟩ := exec_accesses hexec' hf'
  rw [hlen, m.sp, ← hreads] at hreads'
  rw [hout, m.wp, ← hoffsets] at hoffsets'
  rw [htrace, output_append] at hbytes
  rw [htrace', output_append] at hbytes'
  have hvalues : output accesses' = output accesses :=
    (List.append_cancel_left hbytes').trans (List.append_cancel_left hbytes).symm
  have hwrites : dstWrites accesses' = dstWrites accesses :=
    (List.zip_of_prod hoffsets' hvalues).trans (List.zip_of_prod rfl rfl).symm
  have hr := exec_tokenResult hexec
  have hr' := exec_tokenResult hexec'
  obtain ⟨src, dst, -, srcLen, dstLen⟩ := hr.sameOperands
  obtain ⟨src', dst', -, srcLen', dstLen'⟩ := hr'.sameOperands
  obtain ⟨sp, wp⟩ := hr.cursors hf
  obtain ⟨sp', wp'⟩ := hr'.cursors hf'
  constructor
  case src => rw [src', src, m.src]
  case dst => rw [dst', dst, m.dst]
  case srcLen => rw [srcLen', srcLen, m.srcLen]
  case dstLen => rw [dstLen', dstLen, m.dstLen]
  case status => rw [hrun', hrun]
  case sp => rw [sp', sp, m.sp, hlen]
  case wp => rw [wp', wp, m.wp, hout]
  case mem => rw [hmem', hmem, m.dst, m.mem, hwrites]
  case reads => rw [htrace', htrace, srcReads_append, srcReads_append, m.reads, (List.cons.inj hreads').2]
  case writes => rw [htrace', htrace, dstWrites_append, dstWrites_append, m.writes, hwrites]
  case result | wpos | cause => simp [hrun]

/-! ### The tokens of the two decoders -/

/-- The two tokens lead from the two calls to calls that agree. -/
def ExecsAgree (i i' : Instr) (hd hs : Block c) : Prop :=
  ∃ gd gs : Block c, exec i ⟨c, hd⟩ = .next ⟨c, gd⟩ ∧ exec i' ⟨c, hs⟩ = .next ⟨c, gs⟩ ∧ gd.Agrees gs

/-- Both literals copy the same payload. -/
theorem Block.Agrees.execs_literal (m : hd.Agrees hs) (hrun : hd.status = .running) (count : Byte) :
    ExecsAgree (.lzdLit count) (.lzsLit count) hd hs := by
  obtain hp | ⟨hh, cause, hf⟩ := passesLengths_or_fails hd (1 + count.toNat) count.toNat
  · have hp' := m.passesLengths hp
    obtain ⟨gd, hexec, -, -, -, copy, -, -, -, published, -⟩ := (lzdLitCopies c hd count).1 hp
    obtain ⟨gs, hexec', -, -, -, -, copy', -, -, -, -, -, published', -⟩ := (lzsLitMirrors c hs count).1 hp'
    rw [m.byteAt, m.payloadAddr, m.outAddr] at copy'
    refine ⟨gd, gs, hexec, hexec', m.completed hexec hexec' rfl rfl (published.status.trans hrun)
      (published'.status.trans (m.status.trans hrun)) (execLzdLit_output hp hexec) ?_⟩
    rw [(execLzsLit_mirrorsOutput hp' hexec').2, Block.outBytes, m.outAddr]
    exact congrArg _ (List.map_congr_left fun k hk => copy.unique copy' k (List.mem_range.mp hk))
  · exact ⟨_, _, (lzdLitCopies c hd count).2 cause hh hf,
      (lzsLitMirrors c hs count).2 cause hh ((m.lengthsFailure _ _).trans hf), m.raiseMalformed cause⟩

/-- Both matches repeat the same output, one from the destination, one from the buffer. -/
theorem Block.Agrees.execs_match (m : hd.Agrees hs) (hrun : hd.status = .running) (length : Byte) {out : List Byte}
    (hheld : hd.HoldsLast out) (hwp : hd.wp = BitVec.ofNat c.aw out.length) (hmirror : hs.MirrorsLast out)
    (h1 : 1 ≤ hd.secondByte.toNat) (hback : hd.secondByte.toNat ≤ out.length) :
    ExecsAgree (.lzdMatch length) (.lzsMatch length) hd hs := by
  obtain ⟨stopSource, stop⟩ := (lzdMatchCopies c hd length).2
  obtain ⟨stopSource', stop'⟩ := (lzsMatchMirrors c hs length).2
  obtain hp | ⟨hh, hlt⟩ | ⟨hh, hle, cause, hf⟩ := passesMatch_or_fails hd length.toNat
  · have hp' := m.passesMatch hp
    obtain ⟨gd, hexec, -, -, -, -, -, -, -, -, published, -⟩ := (lzdMatchCopies c hd length).1 hp
    obtain ⟨gs, hexec', -, -, -, -, -, -, -, -, -, -, -, published', -⟩ := (lzsMatchMirrors c hs length).1 hp'
    refine ⟨gd, gs, hexec, hexec', m.completed hexec hexec' rfl rfl (published.status.trans hrun)
      (published'.status.trans (m.status.trans hrun)) (execLzdMatch_output hp hexec) ?_⟩
    rw [(execLzsMatch_mirrorsOutput hp' hexec').2, Block.outBytes]
    refine congrArg _ (List.map_congr_left fun k hk => ?_)
    have hrepeat := execLzdMatch_repeats hp hexec hheld hwp h1 hback (List.mem_range.mp hk)
    have hrepeat' := execLzsMatch_repeats hp' hexec' hmirror (m.secondByte ▸ h1) (m.secondByte ▸ hback) (List.mem_range.mp hk)
    rw [m.secondByte, ← hrepeat] at hrepeat'
    exact Option.some.inj hrepeat'
  · exact ⟨_, _, stopSource hh hlt, stopSource' hh (by rwa [m.srcLen, m.sp]), m.raiseMalformed _⟩
  · exact ⟨_, _, stop cause hh hle hf, stop' cause hh (by rwa [m.srcLen, m.sp]) ((m.matchFailure _).trans hf),
      m.readDistance.raiseMalformed cause⟩

/-- On a well-formed token both decoders do the same. -/
theorem Block.SameCall.execs (hsame : hd.SameCall hs) (hrun : hd.status = .running) (hwf : hd.TokenWellFormed) :
    ExecsAgree (decodeTag .lzDirect hd.tagByte) (decodeTag .lzShadow hd.tagByte) (fetchTag hd) (fetchTag hs) := by
  have m := hsame.agrees.fetchTag
  obtain ⟨hend, hliteral, hmatch⟩ := lzTagMap hd.tagByte
  have hrange : hd.tagByte.toNat = 0x00 ∨ (0x01 ≤ hd.tagByte.toNat ∧ hd.tagByte.toNat ≤ 0x7F) ∨ 0x80 ≤ hd.tagByte.toNat := by
    omega
  obtain h0 | ⟨h1, h127⟩ | h128 := hrange
  · rw [(hend h0).1, (hend h0).2]
    exact ⟨_, _, rfl, rfl, m.finishCall⟩
  · rw [(hliteral h1 h127).1, (hliteral h1 h127).2]
    exact m.execs_literal hrun _
  · rw [(hmatch h128).1, (hmatch h128).2]
    obtain ⟨hd0, hback⟩ := hwf (by rw [and_bit7_set h128]; decide)
    have hwp : hd.wp = BitVec.ofNat c.aw (output hd.trace).length := by
      simpa [output] using hsame.exact.wp hsame.notIdle
    obtain ⟨-, hmirror⟩ := (mirrors_iff hs).mp hsame.mirror (hsame.status.trans hrun) hsame.shadow
    rw [output, hsame.writes] at hmirror
    have hheld : (fetchTag hd).HoldsLast (output hd.trace) := (holdsOutput_iff hd).mp hsame.held
    refine m.execs_match hrun _ hheld hwp hmirror (Nat.pos_of_ne_zero fun h0 => hd0 (BitVec.eq_of_toNat_eq h0)) ?_
    rw [hwp, BitVec.toNat_ofNat] at hback
    exact hback.trans (Nat.mod_le _ _)

/-! ### The step and the call -/

theorem step_mode {h h' : Block c} (hstep : step ⟨c, h⟩ = .next ⟨c, h'⟩) : h'.mode = h.mode := by
  obtain ⟨_, ⟨⟩, ⟨-, rfl⟩ | ⟨-, rfl⟩ | ⟨-, i, -, hr⟩⟩ := step_result hstep
  · rfl
  · rfl
  · exact hr.sameOperands.mode

/-- Two steps that lead to calls that agree lead to the same call: each decoder keeps its own promises. -/
theorem Block.SameCall.of_steps (hsame : hd.SameCall hs) (hstep : Machine.step ⟨c, hd⟩ = .next ⟨c, gd⟩)
    (hstep' : Machine.step ⟨c, hs⟩ = .next ⟨c, gs⟩) (m : gd.Agrees gs) : gd.SameCall gs :=
  { m with
    direct := (step_mode hstep).trans hsame.direct
    shadow := (step_mode hstep').trans hsame.shadow
    notIdle := step_ne_idle hstep hsame.notIdle
    exact := step_exactAccess hstep hsame.exact
    held := step_holdsOutput hstep hsame.exact hsame.held
    mirror := step_mirrors hstep' hsame.mirror }

end Agrees

/-- Settles O44: both decoders are quiet, overrun the source together, or run the same token. -/
theorem shadowStepAgreesWithDirect : Obligations.ShadowStepAgreesWithDirect := by
  intro c hd hs hdirect hshadow hsame hwf
  suffices h : ∃ gd gs : Block c, step ⟨c, hd⟩ = .next ⟨c, gd⟩ ∧ step ⟨c, hs⟩ = .next ⟨c, gs⟩ ∧ gd.Agrees gs by
    obtain ⟨gd, gs, hstep, hstep', m⟩ := h
    exact ⟨gd, gs, hstep, hstep', hsame.of_steps hstep hstep' m⟩
  have m := hsame.agrees
  by_cases hrun : hd.status = .running
  · have hrun' := m.status.trans hrun
    have hdec : c.decoder hd.mode = some .lzDirect := by rw [hsame.direct, decoder_modeCode]; exact if_pos hdirect
    have hdec' : c.decoder hs.mode = some .lzShadow := by rw [hsame.shadow, decoder_modeCode]; exact if_pos hshadow
    by_cases hover : c.harden = true ∧ hd.srcLen.toNat ≤ hd.sp.toNat
    · obtain ⟨hh, hle⟩ := hover
      exact ⟨_, _, step_overrun hrun hdec hh hle, step_overrun hrun' hdec' hh (by rwa [m.srcLen, m.sp]), m.raiseMalformed _⟩
    · have hlen (hh : c.harden = true) : hd.sp.toNat < hd.srcLen.toNat := Nat.lt_of_not_le fun hle => hover ⟨hh, hle⟩
      rw [step_token hrun hdec hlen, step_token hrun' hdec' (by rwa [m.srcLen, m.sp]), m.tagByte]
      exact hsame.execs hrun (hwf hrun)
  · exact ⟨hd, hs, step_quiet hrun, step_quiet (m.status ▸ hrun), m⟩

/-- Settles O45, by induction on the number of steps. -/
theorem shadowCallAgreesWithDirect : Obligations.ShadowCallAgreesWithDirect := by
  intro c hd hs hdirect hshadow hsame hwf n
  induction n generalizing hd hs with
  | zero => exact ⟨hd, hs, rfl, rfl, hsame⟩
  | succ n ih =>
    obtain ⟨gd, gs, hstep, hstep', hsame'⟩ := shadowStepAgreesWithDirect c hd hs hdirect hshadow hsame (hwf 0 hd rfl)
    have hrun (k : Nat) : Sys2Proof.core.run (k + 1) ⟨c, hd⟩ = Sys2Proof.core.run k (⟨c, gd⟩ : State) := by
      simp [Host.Core.run, Sys2Proof.core, hstep]
    have hrun' : Sys2Proof.core.run (n + 1) ⟨c, hs⟩ = Sys2Proof.core.run n (⟨c, gs⟩ : State) := by
      simp [Host.Core.run, Sys2Proof.core, hstep']
    rw [hrun, hrun']
    exact ih gd gs hsame' fun k g hg => hwf (k + 1) g ((hrun k).trans hg)

end Sys2Proof.Machine
end

section
/-! SUPPORT. The round trip in mode `LZ_SHADOW` (40_lz_direct.md R84, 41_lz_shadow.md R95): at every token boundary the buffer
mirrors the part of the source delivered so far, whatever it held before the call. -/

namespace Sys2Proof.Machine

open Sys2Proof.RefEncoder

variable {c : Config} {h h' : Block c} {source stream rest : List Byte}

/-- A boundary whose buffer mirrors the part of the source delivered so far (41_lz_shadow.md R94). -/
structure Block.DeliversMirrored (h : Block c) (source stream : List Byte) : Prop
    extends Block.Delivers h .lzShadow source stream where
  mirror : h.MirrorsLast (source.take h.wp.toNat)

/-- A token that writes the next bytes of the source extends the part delivered by its output. -/
theorem Block.Writes.take_add {count : Nat} (hw : h.Writes h' source count) (hfit : h.wp.toNat + count ≤ source.length) :
    source.take (h.wp.toNat + count) = source.take h.wp.toNat ++ h.outBytes h' count := by
  rw [List.take_add]
  refine congrArg _ (List.ext_getElem? fun k => ?_)
  rcases Nat.lt_or_ge k count with hlt | hge
  · rw [List.getElem?_take_of_lt hlt, List.getElem?_drop, hw k hlt, getElem?_outBytes _ _ hlt]
  · rw [List.getElem?_eq_none (by rw [length_payload hfit]; exact hge),
      List.getElem?_eq_none (by rw [length_outBytes]; exact hge)]

/-- `LZS.LIT` on a literal token writes the bytes it holds. -/
theorem Block.DeliversMirrored.literal_writes (hd : h.DeliversMirrored source stream) {count : Nat} (h1 : 1 ≤ count)
    (h127 : count ≤ 127) (hfit : h.wp.toNat + count ≤ source.length) (htag : h.tagByte = BitVec.ofNat 8 count)
    (hdrop : stream.drop h.sp.toNat = h.tagByte :: ((source.drop h.wp.toNat).take count ++ rest)) :
    h.TokenWrites .lzShadow source := by
  have hcount : h.tagByte.toNat = count := by rw [htag, toNat_ofNat_byte (by omega)]
  have hpass := hd.passesLengths (by decide)
  obtain ⟨hlen, -⟩ := hd.token_fits (by decide)
  unfold Block.TokenWrites
  rw [(decodeTag_lzLit (tag := h.tagByte) (by omega) (by omega)).2] at hpass hlen ⊢
  obtain ⟨h', hexec, -, -, -, -, hcopy, -, -, -, -, -, hpub, -⟩ := (lzsLitMirrors c (fetchTag h) h.tagByte).1 hpass
  refine ⟨h', hexec, hpub.status.trans hd.running, fun k (hk : k < h.tagByte.toNat) => ?_⟩
  replace hlen : h.sp.toNat + (1 + h.tagByte.toNat) ≤ stream.length := hlen
  rw [hd.payload hfit hdrop (by omega)]
  exact congrArg some ((hcopy k hk).2 fun j hj => hd.outAddr_ne_payloadAddr (by omega) (by omega)).symm

/-- `LZS.MATCH` on a match token writes the bytes it repeats, from the buffer. -/
theorem Block.DeliversMirrored.match_writes (hd : h.DeliversMirrored source stream) {length distance : Nat}
    (h127 : length ≤ 127) (h1 : 1 ≤ distance) (h255 : distance ≤ 255) (hback : distance ≤ h.wp.toNat)
    (hcopy : ∀ k < length, source[h.wp.toNat - distance + k]? = source[h.wp.toNat + k]?)
    (htag : h.tagByte = 0x80#8 ||| BitVec.ofNat 8 length)
    (hdrop : stream.drop h.sp.toNat = h.tagByte :: BitVec.ofNat 8 distance :: rest) :
    h.TokenWrites .lzShadow source := by
  have hfield : (BitVec.ofNat 8 length).toNat = length := toNat_ofNat_byte (by omega)
  have hsecond : h.secondByte = BitVec.ofNat 8 distance := hd.byteAt (j := 1) (by rw [hdrop]; rfl)
  have hdist : h.secondByte.toNat = distance := by rw [hsecond, toNat_ofNat_byte (by omega)]
  have htagNat : h.tagByte.toNat = 128 + length := by rw [htag, lzMatchTag_toNat (by omega), hfield]
  have hdone : (source.take h.wp.toNat).length = h.wp.toNat := List.length_take_of_le hd.spells.pos_le
  have hpass := hd.passesLengths (by decide)
  unfold Block.TokenWrites
  rw [(decodeTag_lzMatch (tag := h.tagByte) (by omega)).2, htagNat, Nat.add_sub_cancel_left] at hpass ⊢
  have hmatch : (fetchTag h).PassesMatch (BitVec.ofNat 8 length).toNat := fun hh =>
    ⟨(hpass hh).1, ne_zero_of_toNat (hdist ▸ h1), hdist ▸ hback, (hpass hh).2⟩
  obtain ⟨h', hexec, -, -, -, -, -, -, -, -, -, -, -, hpub, -⟩ := (lzsMatchMirrors c (fetchTag h) _).1 hmatch
  refine ⟨h', hexec, hpub.status.trans hd.running, fun k (hk : k < (BitVec.ofNat 8 length).toNat) => ?_⟩
  have hlaw : some (h'.byteAt (h.outAddr k)) =
      (source.take h.wp.toNat)[(source.take h.wp.toNat).length - h.secondByte.toNat + k % h.secondByte.toNat]? :=
    execLzsMatch_repeats (h := fetchTag h) hmatch hexec hd.mirror (hdist ▸ h1) (by rw [hdone]; exact hdist ▸ hback) hk
  have hmod : k % distance < distance := Nat.mod_lt _ h1
  rw [hlaw, hdone, hdist, List.getElem?_take_of_lt (by omega)]
  exact (repeats_periodic h1 hback hcopy k (by omega)).symm

/-- Every token of a stream that spells the source writes what it stands for. -/
theorem Block.DeliversMirrored.token_writes (hd : h.DeliversMirrored source stream)
    (hi : (decodeTag .lzShadow h.tagByte).isEnd = false) :
    h.TokenWrites .lzShadow source := by
  obtain ⟨rest, hdrop⟩ := hd.tagByte
  have hspells := hdrop ▸ hd.spells
  generalize htag : h.tagByte = tag at hspells
  generalize hpos : h.wp.toNat = pos at hspells
  cases hspells with
  | terminator => rw [(decodeTag_isEnd _ _).mpr htag] at hi; cases hi
  | literal _ count rest h1 h127 hfit hrest =>
    subst hpos
    exact hd.literal_writes h1 h127 hfit htag hdrop
  | backReference _ length distance rest h4 h127 h1 h255 hback hfit hcopy hrest =>
    subst hpos
    exact hd.match_writes h127 h1 h255 hback hcopy htag hdrop

/-- Such a token leads to the next such boundary: it mirrors the bytes it writes. -/
theorem Block.DeliversMirrored.next (hd : h.DeliversMirrored source stream)
    (hi : (decodeTag .lzShadow h.tagByte).isEnd = false)
    (hexec : exec (decodeTag .lzShadow h.tagByte) ⟨c, fetchTag h⟩ = .next ⟨c, h'⟩) (hrun : h'.status = .running)
    (hw : h.Writes h' source (decodeTag .lzShadow h.tagByte).output) :
    h'.DeliversMirrored source stream ∧ h.sp.toNat < h'.sp.toNat := by
  obtain ⟨hnext, hlt⟩ := hd.toDelivers.next (by decide) hi hexec hrun hw
  refine ⟨⟨hnext, ?_⟩, hlt⟩
  obtain ⟨-, hout⟩ := hd.token_fits (by decide)
  obtain ⟨-, hwp⟩ := cursorsAdvanceByToken c (fetchTag h) h' _ hd.running hexec (by simp [hrun])
  have hwp' : h'.wp.toNat = h.wp.toNat + _ := hwp ▸ toNat_add_ofNat (hout.trans_lt hd.sourceFits)
  obtain hrest | ⟨hmirrors, -⟩ := exec_lzs_mirrorsOutput (decodeTag_mode _ _) hexec
  · exact absurd hrun hrest
  · rw [hwp', hw.take_add hout]
    exact hmirrors.mirrorsLast (h := fetchTag h) hd.mirror

/-- A step from such a boundary ends the call with the source delivered, or passes some of the stream. -/
theorem step_deliversMirrored (hd : h.DeliversMirrored source stream) :
    ∃ h', step ⟨c, h⟩ = .next ⟨c, h'⟩ ∧
      (h'.Delivered source stream ∨ (h'.DeliversMirrored source stream ∧ h.sp.toNat < h'.sp.toNat)) := by
  rw [hd.step (by decide)]
  cases hi : (decodeTag .lzShadow h.tagByte).isEnd with
  | true => exact ⟨_, exec_isEnd hi _, .inl (hd.finish ((decodeTag_isEnd _ _).mp hi))⟩
  | false =>
    obtain ⟨h', hexec, hrun, hw⟩ := hd.token_writes hi
    exact ⟨h', hexec, .inr (hd.next hi hexec hrun hw)⟩

/-- Settles O49: the encoder's stream spells the source, before the first token there is no output to mirror, and every step makes
progress. -/
theorem shadowRoundTrip : Obligations.ShadowRoundTrip := by
  rintro c h source _ rfl hb
  have hmirror : h.MirrorsLast (source.take h.wp.toNat) := by simpa [hb.wp] using mirrorsLast_nil h
  have hstart : h.DeliversMirrored source (compress source) := ⟨hb.delivers (spells_compress source), hmirror⟩
  obtain ⟨n, h', hrun, done, result, wpos, written⟩ := run_arrives (fun _ => step_deliversMirrored) hstart
  exact ⟨n, h', hrun, done, result, wpos, written⟩

end Sys2Proof.Machine
end

section
/-! SUPPORT. The statements about the tokens of mode `RLE` (42_rle.md R101 to R103), settled; what the combined token takes from
its two loops. -/

namespace Sys2Proof.Machine

variable {c : Config}

/-! ### A forward copy behind earlier writes -/

/-- Writes to `n` places and then to the `m` places after them change only those. -/
theorem OnlyChanges.append {α β : Type} {before mid after : α → β} {target : Nat → α} {n m : Nat}
    (hfirst : OnlyChanges before mid target n) (hthen : OnlyChanges mid after (fun k => target (n + k)) m) :
    OnlyChanges before after target (n + m) := fun a ha =>
  (hthen a fun k hk => ha (n + k) (by omega)).trans (hfirst a fun k hk => ha k (by omega))

/-- Writes to other places leave the first `n` as they are. -/
theorem OnlyChanges.keeps_earlier {α β : Type} {mid after : α → β} {target : Nat → α} {n m : Nat}
    (hthen : OnlyChanges mid after (fun k => target (n + k)) m) (hinj : ∀ j < n, ∀ k < m, target j ≠ target (n + k)) :
    ∀ j < n, after (target j) = mid (target j) := fun j hj => hthen _ (hinj j hj)

/-- 42_rle.md R103: a copy to the places behind `n` written ones sees those writes as it sees its own. -/
theorem ForwardCopy.behind {α β : Type} {before mid after : α → β} {source target : Nat → α} {n m : Nat}
    (hfirst : OnlyChanges before mid target n) (hcopy : ForwardCopy mid after source (fun k => target (n + k)) m)
    (hthen : OnlyChanges mid after (fun k => target (n + k)) m) (hinj : ∀ j < n, ∀ k < m, target j ≠ target (n + k)) :
    ∀ k < m, (∀ j < n + k, target j = source k → after (target (n + k)) = after (target j)) ∧
      ((∀ j < n + k, target j ≠ source k) → after (target (n + k)) = before (source k)) := by
  intro k hk
  obtain ⟨hown, hold⟩ := hcopy k hk
  refine ⟨fun j hj he => ?_, fun hne => ?_⟩
  · rcases Nat.lt_or_ge j n with hlt | hge
    · rw [hold fun i hi hi' => hinj j hlt i (by omega) (he.trans hi'.symm), ← he, hthen.keeps_earlier hinj j hlt]
    · obtain ⟨i, rfl⟩ := Nat.exists_eq_add_of_le hge
      exact hown i (by omega) he
  · rw [hold fun i hi => hne (n + i) (by omega)]
    exact hfirst _ fun j hj => (hne j (by omega)).symm

/-! ### The two loops of the combined token -/

/-- The output part that starts `x` bytes after `wp`, counted from `wp`. -/
theorem outOff_zext (h : Block c) (x : Byte) (k : Nat) : h.outOff (c.zext x) k = h.outOff 0 (x.toNat + k) := by
  rw [next_output (zext_eq_ofNat c x), next_output_zero rfl, Nat.zero_add]

/-- 42_rle.md R103: the literal's loop after a loop that left `g`, its places counted from the token's start `h`. -/
theorem copyLiteral_loop_behind {h g : Block c} (hf : LoopFrame h g) (run litlen : Byte) :
    CopyLoop g (h.payloadAddr 2) (fun k => h.outAddr (run.toNat + k))
      (fun k v => [.srcRead (h.payloadOff 2 k), .dstWrite (h.outOff 0 (run.toNat + k)) v]) litlen.toNat
      (forBytes (copyLiteral 2 (c.zext run)) litlen.toNat g) := by
  have hloop := copyLiteral_loop 2 (c.zext run) litlen.toNat (byte_lt_512 litlen) g
  have htarget : g.partAddr (c.zext run) = fun k => h.outAddr (run.toNat + k) := funext fun k => by
    rw [hf.partAddr, Block.partAddr, outOff_zext, Block.outAddr]
  simp only [htarget, hf.srcAddr, hf.payloadOff, hf.outOff, outOff_zext] at hloop
  exact hloop

/-- The block after the two loops of `RLE.COMB`, the cursors not yet advanced. -/
def Block.combined (h : Block c) (run litlen : Byte) : Block c :=
  forBytes (copyLiteral 2 (c.zext run)) litlen.toNat
    (forBytes writeFill run.toNat (readFill { h with n := run, m := litlen }))

/-- `RLE.COMB` whose checks hold: neither loop changes `n` or `m`. -/
theorem exec_rleComb_pass {h : Block c} {run litlen : Byte}
    (hp : h.PassesLengths (2 + litlen.toNat) (run.toNat + litlen.toNat)) :
    exec (.rleComb run litlen) ⟨c, h⟩ =
      .next ⟨c, advance (2 + c.zext litlen) (c.zext run + c.zext litlen) (h.combined run litlen)⟩ := by
  refine next_congr ((checkedToken_pass hp).trans ?_)
  have hfill := (writeFill_loop run.toNat (byte_lt_512 run) (readFill { h with n := run, m := litlen })).frame
  have hcopy := hfill.trans (copyLiteral_loop_behind hfill run litlen).frame
  simp only [readFill_n, hfill.n, hfill.m, readFill_m, hcopy.n, hcopy.m, Block.combined]

/-! ### The statements -/

/-- Settles O17: the loop's lemma with `n` and `fill` set, then the cursors. -/
theorem rleRunFills : Obligations.RleRunFills := by
  refine fun c h run => ⟨fun hp => ?_, fun cause hh hf => next_congr (checkedToken_stop hh hf)⟩
  obtain ⟨frame, shadow, filled, only, trace⟩ := writeFill_loop run.toNat (byte_lt_512 run) (readFill { h with n := run })
  refine ⟨_, next_congr (checkedToken_pass hp), frame.n, frame.fill, ?_, ?_, filled, only, ?_,
    { frame.operands with }, { frame.published with }, { shadow with }, frame.cmd, frame.m, frame.dist⟩
  · exact congrArg (· + 2) frame.sp
  · exact congrArg (· + c.zext run) frame.wp
  · exact trace.trans (List.append_assoc _ _ _)

/-- Settles O18: rule, length and output are those of `LZD.LIT` (40_lz_direct.md R81). -/
theorem rleLitCopies : Obligations.RleLitCopies := lzdLitCopies

/-- Settles O19: the run's loop, the literal's loop behind it, then the cursors. -/
theorem rleCombFillsThenCopies : Obligations.RleCombFillsThenCopies := by
  refine fun c h run litlen => ⟨fun hp => ?_, fun cause hh hf => next_congr (checkedToken_stop hh hf)⟩
  obtain ⟨hfill, shadow, filled, fillOnly, fillTrace⟩ :=
    writeFill_loop run.toNat (byte_lt_512 run) (readFill { h with n := run, m := litlen })
  obtain ⟨hcopy, shadow', copy, copyOnly, copyTrace⟩ := copyLiteral_loop_behind hfill run litlen
  have frame := hfill.trans hcopy
  have hinj : ∀ j < run.toNat, ∀ k < litlen.toNat, h.outAddr j ≠ h.outAddr (run.toNat + k) := fun j hj k hk => by
    have hrun := run.isLt
    have hlit := litlen.isLt
    exact outAddr_ne h (by omega) (by omega) (by omega)
  refine ⟨_, exec_rleComb_pass hp, frame.n, frame.m, frame.fill, ?_, ?_,
    fun k hk => (copyOnly.keeps_earlier hinj k hk).trans (filled k hk), copy.behind fillOnly copyOnly hinj,
    fillOnly.append copyOnly, ?_, { frame.operands with }, { frame.published with }, { shadow.trans shadow' with },
    frame.cmd, frame.dist⟩
  · exact (congrArg (· + (2 + c.zext litlen)) frame.sp).trans (BitVec.add_assoc _ _ _).symm
  · exact (congrArg (· + (c.zext run + c.zext litlen)) frame.wp).trans (BitVec.add_assoc _ _ _).symm
  · refine copyTrace.trans ?_
    rw [fillTrace, List.append_assoc]
    exact List.append_assoc _ _ _

end Sys2Proof.Machine
end

section
/-! SUPPORT. The original block beside the hardened one (60_exceptions.md R123): the operations of the token rules do the same in
both, and a checked token that raises nothing is its rule alone. -/

namespace Sys2Proof.Machine

variable {c : Config}

/-! ### Loop bodies and loops -/

/-- `f'` does in the block without the checks what `f` does in the block of configuration `c`. -/
def SameUnchecked (f : Block c → Block c) (f' : Block (Config.soft c) → Block (Config.soft c)) : Prop :=
  ∀ h : Block c, (f h).soft = f' h.soft

theorem copyLiteral_soft (sbase dbase : c.Word) (j : Nat) :
    SameUnchecked (copyLiteral sbase dbase j) (copyLiteral (c := Config.soft c) sbase dbase j) := fun _ => rfl

theorem copyBack_soft (j : Nat) : SameUnchecked (c := c) (copyBack j) (copyBack j) := fun _ => rfl

theorem writeFill_soft (j : Nat) : SameUnchecked (c := c) (writeFill j) (writeFill j) := fun _ => rfl

theorem mirrorLiteral_soft (j : Nat) : SameUnchecked (c := c) (mirrorLiteral j) (mirrorLiteral j) := fun _ => rfl

theorem mirrorBack_soft (j : Nat) : SameUnchecked (c := c) (mirrorBack j) (mirrorBack j) := by
  intro h
  unfold mirrorBack
  rw [bufRead_eq, bufRead_eq]
  rfl

section Loop

variable {body : Nat → Block c → Block c} {body' : Nat → Block (Config.soft c) → Block (Config.soft c)}

theorem countUp_soft (turn : ∀ j, SameUnchecked (body j) (body' j)) (count : Nat) :
    SameUnchecked (countUp body count) (countUp body' count) := by
  intro h
  induction count with
  | zero => rfl
  | succ j ih =>
    have hindex := congrArg (fun g : Block (Config.soft c) => { g with k := BitVec.ofNat 8 j }) ih
    exact (turn j _).trans (congrArg (body' j) hindex)

theorem forBytes_soft (turn : ∀ j, SameUnchecked (body j) (body' j)) (count : Nat) :
    SameUnchecked (forBytes body count) (forBytes body' count) := fun h =>
  congrArg (fun g : Block (Config.soft c) => { g with k := Config.freeByte g.draws, draws := g.draws + 1 })
    (countUp_soft turn count h)

/-- The tail of a token: its byte loop, then the cursors. -/
theorem loop_advance_soft (turn : ∀ j, SameUnchecked (body j) (body' j)) (count : Nat) (len out : c.Word) :
    SameUnchecked (fun h => advance len out (forBytes body count h))
      (fun h => advance (c := Config.soft c) len out (forBytes body' count h)) := fun h =>
  congrArg (advance (c := Config.soft c) len out) (forBytes_soft turn count h)

end Loop

/-- Both loops of `RLE.COMB` (42_rle.md R103). -/
theorem combined_soft (h : Block c) (run litlen : Byte) : (h.combined run litlen).soft = h.soft.combined run litlen :=
  (forBytes_soft (copyLiteral_soft 2 (c.zext run)) litlen.toNat _).trans
    (congrArg (forBytes (copyLiteral (c := Config.soft c) 2 (c.zext run)) litlen.toNat)
      (forBytes_soft writeFill_soft run.toNat _))

/-! ### Checked tokens -/

theorem passesLengths_soft (h : Block c) (L P : Nat) : h.soft.PassesLengths L P := nofun

theorem passesMatch_soft (h : Block c) (P : Nat) : h.soft.PassesMatch P := nofun

section Checked

variable {rule : Block c → Block c} {rule' : Block (Config.soft c) → Block (Config.soft c)} {h : Block c} {L P : Nat}

/-- The checks of a token that does not fault have held. -/
theorem checkedToken_passed (hf : (checkedToken L P rule h).status ≠ .fault) : h.PassesLengths L P := by
  obtain ⟨hp, -⟩ | ⟨-, cause, -, he⟩ := checkedToken_cases L P rule h
  · exact hp
  · exact absurd (congrArg Block.status he) hf

/-- The checks of a match that does not fault have held. -/
theorem checkedMatch_passed (hf : (checkedMatch P rule h).status ≠ .fault) : h.PassesMatch P := by
  obtain ⟨hp, -⟩ | ⟨-, -, he⟩ | ⟨-, -, cause, -, he⟩ := checkedMatch_cases P rule h
  · exact hp
  · exact absurd (congrArg Block.status he) hf
  · exact absurd (congrArg Block.status he) hf

theorem checkedToken_soft (hrule : SameUnchecked rule rule') (hf : (checkedToken L P rule h).status ≠ .fault) :
    (checkedToken L P rule h).soft = checkedToken L P rule' h.soft := by
  rw [checkedToken_pass (checkedToken_passed hf), checkedToken_pass (passesLengths_soft h L P)]
  exact hrule h

theorem checkedMatch_soft (hrule : SameUnchecked rule rule') (hf : (checkedMatch P rule h).status ≠ .fault) :
    (checkedMatch P rule h).soft = checkedMatch P rule' h.soft := by
  rw [checkedMatch_pass (checkedMatch_passed hf), checkedMatch_pass (passesMatch_soft h P)]
  exact hrule (readDistance h)

end Checked

/-! ### The tokens and the step -/

/-- A token that does not fault does the same without the checks. -/
theorem exec_soft {i : Instr} {h h' : Block c} (hexec : exec i ⟨c, h⟩ = .next ⟨c, h'⟩) (hf : h'.status ≠ .fault) :
    exec i ⟨Config.soft c, h.soft⟩ = .next ⟨Config.soft c, h'.soft⟩ := by
  cases i with
  | lzdEnd | lzsEnd | rleEnd => cases hexec; rfl
  | lzdLit count | rleLit count =>
    cases hexec
    exact next_congr (checkedToken_soft
      (fun g => loop_advance_soft (copyLiteral_soft 1 0) count.toNat _ _ { g with n := count }) hf).symm
  | lzdMatch length =>
    cases hexec
    exact next_congr (checkedMatch_soft
      (fun g => loop_advance_soft copyBack_soft length.toNat _ _ { g with n := length }) hf).symm
  | lzsLit count =>
    cases hexec
    exact next_congr (checkedToken_soft
      (fun g => loop_advance_soft mirrorLiteral_soft count.toNat _ _ { g with n := count }) hf).symm
  | lzsMatch length =>
    cases hexec
    exact next_congr (checkedMatch_soft
      (fun g => loop_advance_soft mirrorBack_soft length.toNat _ _ { g with n := length, i := g.shadowStart }) hf).symm
  | rleRun run =>
    cases hexec
    exact next_congr (checkedToken_soft
      (fun g => loop_advance_soft writeFill_soft run.toNat _ _ (readFill { g with n := run })) hf).symm
  | rleComb run litlen =>
    have hp : h.PassesLengths (2 + litlen.toNat) (run.toNat + litlen.toNat) := by
      cases hexec
      exact checkedToken_passed hf
    rw [exec_rleComb_pass hp] at hexec
    cases hexec
    exact (exec_rleComb_pass (passesLengths_soft h _ _)).trans
      (next_congr (congrArg (advance _ _) (combined_soft h run litlen)).symm)

/-- Settles O32: both blocks are quiet, or the hardened one raises nothing and both run the same token. -/
theorem hardenedAgreesWithOriginal : Obligations.HardenedAgreesWithOriginal := by
  intro c h h' _ hstep hf
  obtain ⟨hs, he⟩ | ⟨hs, mode, hd, ⟨-, -, he⟩ | ⟨-, hexec⟩⟩ := step_cases hstep
  · cases he
    exact step_quiet (h := h.soft) hs
  · cases he
    exact absurd rfl hf
  · exact (step_token (h := h.soft) hs hd nofun).trans (exec_soft hexec hf)

end Sys2Proof.Machine
end

section
/-! SUPPORT. The other statements about the hardened block and about faults (60_exceptions.md), settled. -/

namespace Sys2Proof.Machine

variable {c : Config}

/-! ### No trap (60_exceptions.md R120) -/

/-- A step answers a next state unless a call in progress has no decoder (log 15). -/
theorem step_next {h : Block c} (hd : h.HasDecoder) : ∃ h', step ⟨c, h⟩ = .next ⟨c, h'⟩ := by
  by_cases hs : h.status = .running
  · obtain ⟨mode, hmode⟩ := Option.isSome_iff_exists.mp (hd hs)
    by_cases hlen : c.harden = true ∧ h.srcLen.toNat ≤ h.sp.toNat
    · exact ⟨_, step_overrun hs hmode hlen.1 hlen.2⟩
    · obtain ⟨h', hexec⟩ := exec_next (decodeTag mode h.tagByte) (fetchTag h)
      exact ⟨h', (step_token hs hmode fun hh => Nat.lt_of_not_le fun hle => hlen ⟨hh, hle⟩).trans hexec⟩
  · exact ⟨h, step_quiet hs⟩

/-- Settles O31: of the three ways a step of a call can end, the fault needs `HARDEN`. -/
theorem noFaultWithoutHarden : Obligations.NoFaultWithoutHarden := by
  intro c h hsoft hd hf
  obtain ⟨h', hstep⟩ := step_next hd
  refine ⟨h', hstep, ?_⟩
  by_cases hs : h.status = .running
  · obtain ⟨_, ⟨⟩, ⟨hstay, -⟩ | ⟨rfl, -⟩ | ⟨-, hh⟩⟩ := step_running_cases hs hstep
    · rwa [hstay.published.status]
    · simp
    · rw [hsoft] at hh
      cases hh
  · rw [step_quiet hs] at hstep
    cases hstep
    exact hf

theorem reachable_legalStatus {s : State} (hr : Reachable s) : s.block.LegalStatus := by
  induction hr with
  | reset c =>
    obtain ⟨-, -, -, -, -, hlegal⟩ := resetHasInvariants c
    exact hlegal
  | move _ hmove ih => exact movesKeepLegalStatus _ _ hmove ih.1 ih.2

/-- Settles O41: every reachable call has a decoder. -/
theorem noReachableStateStops : Obligations.NoReachableStateStops := fun _ hr =>
  let ⟨h', hstep⟩ := step_next (reachable_legalStatus hr).1
  ⟨⟨_, h'⟩, hstep⟩

/-! ### The cursors stay within the lengths (60_exceptions.md R123) -/

theorem toNat_add_ofNat_le {w : Nat} (x : BitVec w) (n : Nat) : (x + BitVec.ofNat w n).toNat ≤ x.toNat + n := by
  rw [add_ofNat_toNat, BitVec.toNat_ofNat]
  exact Nat.mod_le _ _

theorem Block.PassesMatch.lengths {h : Block c} {P : Nat} (hp : h.PassesMatch P) : h.PassesLengths 2 P := fun hh =>
  let ⟨hsource, _, _, hout⟩ := hp hh
  ⟨hsource, hout⟩

/-- The length checks of a token that neither ends the call nor faults have held; a terminator has none (log 16). -/
theorem exec_passedLengths {i : Instr} {h h' : Block c} (hexec : exec i ⟨c, h⟩ = .next ⟨c, h'⟩) (hi : i.isEnd = false)
    (hf : h'.status ≠ .fault) : h.PassesLengths i.length i.output := by
  cases i with
  | lzdEnd | lzsEnd | rleEnd => cases hi
  | lzdMatch length | lzsMatch length => cases hexec; exact (checkedMatch_passed hf).lengths
  | lzdLit count | lzsLit count | rleRun count | rleLit count => cases hexec; exact checkedToken_passed hf
  | rleComb run litlen => cases hexec; exact checkedToken_passed hf

/-- A token after which the call goes on leaves the cursors within the lengths: its checks were made of the places the cursors
have moved to. -/
theorem exec_withinLengths {i : Instr} {h h' : Block c} (hexec : exec i ⟨c, h⟩ = .next ⟨c, h'⟩) : h'.WithinLengths := by
  intro hh hrun
  have hf : h'.status ≠ .fault := by simp [hrun]
  have hi : i.isEnd = false := Bool.eq_false_iff.mpr fun hend => by
    rw [exec_isEnd hend] at hexec
    cases hexec
    cases hrun
  have hr := exec_tokenResult hexec
  obtain ⟨hsp, hwp⟩ := hr.cursors hf
  obtain ⟨hsource, hout⟩ := exec_passedLengths hexec hi hf hh
  rw [hsp, hwp, hr.sameOperands.srcLen, hr.sameOperands.dstLen]
  exact ⟨(toNat_add_ofNat_le _ _).trans hsource, (toNat_add_ofNat_le _ _).trans hout⟩

theorem step_withinLengths {h : Block c} {t : State} (hstep : step ⟨c, h⟩ = .next t) (hw : h.WithinLengths) :
    t.block.WithinLengths := by
  obtain ⟨-, rfl⟩ | ⟨-, mode, -, ⟨-, -, rfl⟩ | ⟨-, hexec⟩⟩ := step_cases hstep
  · exact hw
  · exact withinLengths_of_atRest (by simp)
  · obtain ⟨h', hnext⟩ := exec_next (decodeTag mode h.tagByte) (fetchTag h)
    rw [hnext] at hexec
    cases hexec
    exact exec_withinLengths hnext

theorem HostEffect.withinLengths {h h' : Block c} (he : HostEffect h h') (hw : h.WithinLengths) : h'.WithinLengths := by
  cases he with
  | nothing => exact hw
  | started ha => exact fun _ _ => ⟨by simp [enterCall], by simp [enterCall]⟩
  | resetTaken => exact withinLengths_of_atRest nofun
  | operands hs src dst mode srcLen dstLen => exact withinLengths_of_atRest hs
  | stored hs a v => exact withinLengths_of_atRest hs

/-- Settles O38: a token of a call that goes on has passed its length checks, START begins at offset 0, and every other host move
leaves the engine at rest. -/
theorem movesKeepWithinLengths : Obligations.MovesKeepWithinLengths := by
  intro s t hmove hw
  cases hmove with
  | engine hstep => exact step_withinLengths hstep hw
  | host cmd hact => exact (hostAct_effect hact).withinLengths hw
  | read r v hread => rw [hostRead_frame hread]; exact hw

/-! ### The checks that raise (60_exceptions.md R124 to R127) -/

/-- Settles O27: each token's own statement says what its failing check does. -/
theorem lengthChecksRaise : Obligations.LengthChecksRaise := by
  rintro c h _ cause hh ⟨x, rfl | rfl | rfl | rfl | ⟨y, rfl⟩⟩ hfail
  · exact (lzdLitCopies c h x).2 cause hh hfail
  · exact (lzsLitMirrors c h x).2 cause hh hfail
  · exact (rleRunFills c h x).2 cause hh hfail
  · exact (rleLitCopies c h x).2 cause hh hfail
  · exact (rleCombFillsThenCopies c h x y).2 cause hh hfail

/-- Settles O28, from the statements about the two matches. -/
theorem matchChecksRaise : Obligations.MatchChecksRaise := by
  intro c h i length hh hi
  have hstops : h.StopsOnMatch i length.toNat := by
    obtain rfl | rfl := hi
    · exact (lzdMatchCopies c h length).2
    · exact (lzsMatchMirrors c h length).2
  exact ⟨hstops.1 hh, fun cause => hstops.2 cause hh⟩

/-- Settles O29. -/
theorem fetchPastSourceRaises : Obligations.FetchPastSourceRaises := by
  intro c h hh hs hd hlen
  obtain ⟨mode, hmode⟩ := Option.isSome_iff_exists.mp hd
  exact step_overrun hs hmode hh hlen

/-- Settles O30. -/
theorem registerCodes : Obligations.RegisterCodes := ⟨rfl, rfl, rfl, rfl⟩

end Sys2Proof.Machine
end

section
/-! SUPPORT. With `HARDEN` every call ends (70_reset_and_hazards.md R156): a step after which the call goes on has moved `sp` towards
`SRC_LEN` and not past it, so the room that is left bounds the number of steps. -/

namespace Sys2Proof.Machine

variable {c : Config}

/-- The stream bytes of the call that are still to be read. -/
def Block.room (h : Block c) : Nat := h.srcLen.toNat - h.sp.toNat

/-- A run whose every step uses up some room or arrives does arrive, after at most `room + 1` steps. -/
theorem run_arrives_within_room {P Q : Block c → Prop}
    (turn : ∀ g, P g → ∃ g', step ⟨c, g⟩ = .next ⟨c, g'⟩ ∧ (Q g' ∨ (P g' ∧ g'.room < g.room))) {h : Block c} (hp : P h) :
    ∃ n h', n ≤ h.room + 1 ∧ Sys2Proof.core.run n ⟨c, h⟩ = .next (⟨c, h'⟩ : State) ∧ Q h' := by
  induction hroom : h.room using Nat.strong_induction_on generalizing h with
  | _ room ih =>
    obtain ⟨g, hstep, hq | ⟨hg, hlt⟩⟩ := turn h hp
    · exact ⟨1, g, by omega, by simp [Host.Core.run, Sys2Proof.core, hstep], hq⟩
    · obtain ⟨n, h', hn, hrun, hq⟩ := ih g.room (hroom ▸ hlt) hg rfl
      exact ⟨n + 1, h', by omega, by simpa [Host.Core.run, Sys2Proof.core, hstep] using hrun, hq⟩

/-- A token after which the call goes on is no terminator (30_encoding.md R76). -/
theorem exec_running_notEnd {i : Instr} {h h' : Block c} (hexec : exec i ⟨c, h⟩ = .next ⟨c, h'⟩)
    (hrun : h'.status = .running) : i.isEnd = false := by
  refine Bool.eq_false_iff.mpr fun hend => ?_
  rw [exec_isEnd hend] at hexec
  cases hexec
  cases hrun

/-- A token of the hardened block after which the call goes on has used up some room: its length check keeps `sp` from
wrapping. -/
theorem exec_room_lt {i : Instr} {h h' : Block c} (hexec : exec i ⟨c, h⟩ = .next ⟨c, h'⟩) (hh : c.harden = true)
    (hrun : h'.status = .running) : h'.room < h.room := by
  have hf : h'.status ≠ .fault := by simp [hrun]
  have hr := exec_tokenResult hexec
  have hlen := token_length_pos i
  obtain ⟨hfits, -⟩ := exec_passedLengths hexec (exec_running_notEnd hexec hrun) hf hh
  have hsp : h'.sp.toNat = h.sp.toNat + i.length := by
    rw [(hr.cursors hf).1, toNat_add_ofNat (hfits.trans_lt h.srcLen.isLt)]
  rw [Block.room, Block.room, hr.sameOperands.srcLen, hsp]
  omega

theorem step_room_lt {h h' : Block c} (hstep : step ⟨c, h⟩ = .next ⟨c, h'⟩) (hh : c.harden = true)
    (hs : h.status = .running) (hrun : h'.status = .running) : h'.room < h.room := by
  obtain ⟨hrest, -⟩ | ⟨-, mode, -, ⟨-, -, he⟩ | ⟨-, hexec⟩⟩ := step_cases hstep
  · exact absurd hs hrest
  · cases he
    cases hrun
  · exact exec_room_lt (h := fetchTag h) hexec hh hrun

/-- A step of a hardened call ends it, or the call goes on with less room. -/
theorem step_ends_or_uses_room {h : Block c} (hh : c.harden = true) (hs : h.status = .running) (hd : h.HasDecoder) :
    ∃ h', step ⟨c, h⟩ = .next ⟨c, h'⟩ ∧
      ((h'.status = .done ∨ h'.status = .fault) ∨ ((h'.status = .running ∧ h'.HasDecoder) ∧ h'.room < h.room)) := by
  obtain ⟨h', hstep⟩ := step_next hd
  refine ⟨h', hstep, ?_⟩
  have hlegal := step_legalStatus hstep ⟨hd, fun _ => hh⟩
  cases hs' : h'.status with
  | idle => exact absurd hs' (step_ne_idle hstep (by simp [hs]))
  | running => exact .inr ⟨⟨rfl, hlegal.1⟩, step_room_lt hstep hh hs hs'⟩
  | done => exact .inl (.inl rfl)
  | fault => exact .inl (.inr rfl)

/-- Settles O33: the room is at most `SRC_LEN`. -/
theorem hardenedCallEnds : Obligations.HardenedCallEnds := by
  intro c h hh hs hd
  obtain ⟨n, h', hn, hrun, hend⟩ := run_arrives_within_room (P := fun g => g.status = .running ∧ g.HasDecoder)
    (Q := fun g => g.status = .done ∨ g.status = .fault) (fun g ⟨hg, hgd⟩ => step_ends_or_uses_room hh hg hgd)
    ⟨hs, fun _ => hd⟩
  exact ⟨n, h', hn.trans (Nat.add_le_add_right (Nat.sub_le _ _) 1), hrun, hend⟩

end Sys2Proof.Machine
end

section
/-! SUPPORT. The other statements about reset and hazards (70_reset_and_hazards.md), settled. -/

namespace Sys2Proof.Machine

variable {c : Config}

/-- Settles O37: an engine step writes the output on at the offsets that come next. -/
theorem stepsKeepOutput : Obligations.StepsKeepOutput := by
  rintro ⟨c, h⟩ t hstep hx hh
  obtain ⟨h', rfl, -⟩ := step_result hstep
  exact step_holdsOutput hstep hx hh

/-! ### The work of a token (70_reset_and_hazards.md R161) -/

/-- A terminator's work is the fetch of its tag. -/
theorem work_ofToken_isEnd {i : Instr} (hi : i.isEnd = true) : Work.ofToken i = .fetched := by
  cases i with
  | lzdEnd | lzsEnd | rleEnd => rfl
  | _ => cases hi

/-- A token that is not stopped does its whole work. -/
theorem TokenResult.work {h h' : Block c} {i : Instr} (hr : TokenResult h i h') (hf : h'.status ≠ .fault) :
    ∃ accesses, h'.trace = h.trace ++ accesses ∧ (Work.ofToken i).Counts h (.srcRead h.sp :: accesses) := by
  cases hr with
  | ended hi => exact ⟨[], (List.append_nil _).symm, work_ofToken_isEnd hi ▸ Work.counts_fetched h⟩
  | completed hi work hlen hout => exact work.trace
  | stopped cause hh work hshadow => exact absurd rfl hf

/-- Settles O25: the tag fetch and the token's own accesses are its whole work. -/
theorem accessesPerToken : Obligations.AccessesPerToken := by
  rintro c h h' mode _ hs hd rfl hstep hf
  obtain ⟨hrest, -⟩ | ⟨-, mode', hd', ⟨-, -, he⟩ | ⟨-, hexec⟩⟩ := step_cases hstep
  · exact absurd hs hrest
  · cases he
    exact absurd rfl hf
  obtain rfl : mode' = mode := Option.some.inj (hd'.symm.trans hd)
  obtain ⟨accesses, htrace, hcounts⟩ := (exec_tokenResult hexec).work hf
  refine ⟨.srcRead h.sp :: accesses, by rw [htrace, fetchTag_trace, List.append_assoc]; rfl, ?_, ?_, hcounts.destReads,
    hcounts.shadowReads, hcounts.shadowWrites⟩
  · exact (congrArg List.length hcounts.sourceReads).trans (length_offsetsFrom _ _)
  · rw [← List.length_map (f := Prod.fst)]
    exact (congrArg List.length hcounts.destWrites).trans (length_offsetsFrom _ _)

/-! ### START, reset and the host's moves -/

/-- A call that has just begun mirrors its output, which is empty. -/
theorem enterCall_mirrors (h : Block c) : (enterCall h).Mirrors := fun _ _ => ⟨rfl, mirrorsLast_nil _⟩

/-- Settles O43: the START event reads neither `MODE` nor memory, so it does the same in both modes. -/
theorem startBeginsSameCall : Obligations.StartBeginsSameCall := fun _ _ =>
  { direct := rfl, shadow := rfl, src := rfl, dst := rfl, srcLen := rfl, dstLen := rfl, status := rfl, sp := rfl, wp := rfl
    mem := rfl, reads := rfl, writes := rfl
    result := fun _ => rfl, wpos := fun _ => rfl, cause := fun _ => rfl, notIdle := nofun
    exact := enterCall_exactAccess _
    held := holdsOutput_of_noAccess rfl
    mirror := enterCall_mirrors _ }

/-- Settles O51. -/
theorem hardwareResetGoesIdle : Obligations.HardwareResetGoesIdle := fun _ h =>
  ⟨hardwareReset h, rfl, rfl, rfl, entry_of_unwrittenBuf rfl⟩

/-- Settles O56: outside a call the write sets `SRC`, and the accepted START begins there with `sp = 0` on the same memory. -/
theorem chainedCallStartsPastTerminator : Obligations.ChainedCallStartsPastTerminator := by
  intro c h h1 h2 hdone hresult hd hwrite hstart
  have hrest : h.status ≠ .running := by simp [hdone]
  rw [(operandWritesOutsideCall c h (h.src + h.result) h.mode hrest).1] at hwrite
  cases hwrite
  obtain ⟨_, hstart', hsp, -, -, -, hrun, hsame, hmem⟩ := (startCommand c { h with src := h.src + h.result }).1 hrest hd
  rw [hstart'] at hstart
  cases hstart
  have haddr : h2.srcAddr h2.sp = h.src + h.result := by
    rw [hsp, Block.srcAddr, hsame.src]
    exact BitVec.add_zero _
  refine ⟨hrun, haddr.trans (by rw [hresult, Block.srcAddr]), ?_⟩
  rw [Block.tagByte, haddr]
  exact byteAt_congr hmem _

/-- Settles O57: outside a call the store is `Block.setByte`, whose laws give the bytes. -/
theorem hostMemoryMoves : Obligations.HostMemoryMoves := fun _ h a v =>
  ⟨fun hs => if_pos hs, fun hs => ⟨h.setByte a v, if_neg hs, byteAt_setByte_same h a v,
    fun _ => byteAt_setByte_other h v, rfl, ⟨rfl, rfl, rfl, rfl, rfl⟩⟩⟩

end Sys2Proof.Machine
end

section
/-! SUPPORT. No move changes the parameters of the instance (00_scope.md section 4), settled. -/

namespace Sys2Proof.Machine

/-- Settles O42: by `step_result` a step answers a block of the same instance; a host command or read acts on one by type. -/
theorem movesKeepConfig : Obligations.MovesKeepConfig := by
  intro s t hmove
  cases hmove with
  | engine hstep =>
    obtain ⟨h', rfl, -⟩ := step_result hstep
    rfl
  | host => rfl
  | read => rfl

end Sys2Proof.Machine
end
